-- ==== Sys2Proof/Word.lean ====
section
/-! DEFINITION. The word types of the byte-stream packet framer (`00_scope.md` R8, `20_memory.md` R55). -/

namespace Sys2Proof

/-- A byte: 8 bits, unsigned (R8). -/
abbrev Byte := BitVec 8

/-- The sink's 16-bit operand width (R55). -/
abbrev U16 := BitVec 16

/-- A measurement: (angular index, distance), the pair delivered to the sink (R212). -/
abbrev Meas := U16 × U16

/-- A COMPLETE packet: all 22 byte slots hold a value (R70, R89). Field accessors take this type, so no
field of an incomplete packet can be read (R27). -/
abbrev Packet := Vector Byte 22

end Sys2Proof
end

