-- ==== Sys2Proof/Syntax.lean ====
section
/-! DEFINITION. The instructions: one constructor per row of spec/opcode_table.json (`30_encoding.md` R79,
R82), and the coded forms the decoder reads. -/

namespace Sys2Proof

/-- The operations (format OP5, R79) and the frame-parser micro-steps (format SEL13, R82). Operands are the
typed arguments of R79; the micro-steps have none. -/
inductive Instr where
  /-- RESET, R260. -/
  | reset
  /-- PARSE, R140. -/
  | parse
  /-- SRC_IS_EMPTY, R210. -/
  | srcIsEmpty
  /-- SRC_NEXT_BYTE, R211. -/
  | srcNextByte
  /-- SINK_ADD(angular_index, distance), R212. -/
  | sinkAdd (a d : U16)
  /-- SINK_SIZE, R213. -/
  | sinkSize
  /-- BUF_PUSH(b), R100. -/
  | bufPush (b : Byte)
  /-- BUF_POP_FRONT, R101. -/
  | bufPopFront
  /-- BUF_PEEK_AT(o), R102. -/
  | bufPeekAt (o : Nat)
  /-- BUF_NEXT, R103. -/
  | bufNext
  /-- BUF_LEN, R104. -/
  | bufLen
  /-- BUF_IS_SCAN_EXHAUSTED, R105. -/
  | bufIsScanExhausted
  /-- BUF_REFILL, R106. -/
  | bufRefill
  /-- PKT_CLEAR, R170. -/
  | pktClear
  /-- PKT_APPEND(b), R171. -/
  | pktAppend (b : Byte)
  /-- PKT_INDEX_BYTE, R172. -/
  | pktIndexByte
  /-- PKT_SPEED, R173. -/
  | pktSpeed
  /-- DEC_ANGLE(k), R174. -/
  | decAngle (k : Fin 4)
  /-- DEC_DIST(k), R175. -/
  | decDist (k : Fin 4)
  /-- DEC_MEASUREMENTS, R176. -/
  | decMeasurements
  /-- VAL_INDEX, R190. -/
  | valIndex
  /-- VAL_CHECKSUM, R191. -/
  | valChecksum
  /-- VAL_VERDICT, R192. -/
  | valVerdict
  /-- HOST_FEED(bytes), R214. -/
  | hostFeed (bytes : List Byte)
  /-- FSM_RESETTING, R131. -/
  | fsmResetting
  /-- FSM_START_PAUSE, R133. -/
  | fsmStartPause
  /-- FSM_START_HIT, R134. -/
  | fsmStartHit
  /-- FSM_START_DROP, R132. -/
  | fsmStartDrop
  /-- FSM_PAYLOAD_PAUSE, R135. -/
  | fsmPayloadPause
  /-- FSM_PAYLOAD_TAKE, R136. -/
  | fsmPayloadTake
  /-- FSM_VALIDATE_FAIL, R137. -/
  | fsmValidateFail
  /-- FSM_VALIDATE_PASS, R138. -/
  | fsmValidatePass
  /-- FSM_EMIT, R139. -/
  | fsmEmit
  deriving DecidableEq, Repr

/-- The nine rows of the step selector's table (R82). -/
inductive MicroStep where
  | resetting
  | startPause
  | startHit
  | startDrop
  | payloadPause
  | payloadTake
  | validateFail
  | validatePass
  | emit
  deriving DecidableEq, Repr

/-- The instruction a selector row names (R82). -/
def MicroStep.instr : MicroStep → Instr
  | .resetting => .fsmResetting
  | .startPause => .fsmStartPause
  | .startHit => .fsmStartHit
  | .startDrop => .fsmStartDrop
  | .payloadPause => .fsmPayloadPause
  | .payloadTake => .fsmPayloadTake
  | .validateFail => .fsmValidateFail
  | .validatePass => .fsmValidatePass
  | .emit => .fsmEmit

/-- A coded operation of format OP5: the 5-bit identifier and its arguments as numbers. R79: "Operands are
typed arguments, not bit fields", so they are a list beside the code. DESIGN CHOICE, log entry 10, safe. -/
structure OpWord where
  op : BitVec 5
  args : List Nat
  deriving DecidableEq, Repr

/-- What the decoder reads: an operation word (OP5) or a step selector (SEL13). -/
inductive Code where
  | op5 (w : OpWord)
  | sel13 (sel : BitVec 13)
  deriving DecidableEq, Repr

/-- The operand column of R79's table. -/
inductive OperandForm where
  /-- no operand -/
  | nothing
  /-- one byte -/
  | byte
  /-- one natural, of any size -/
  | natural
  /-- one slot number, 0..3 -/
  | slot
  /-- two u16 values -/
  | u16Pair
  /-- a finite sequence of bytes -/
  | bytes
  deriving DecidableEq, Repr

end Sys2Proof
end

