-- ==== Sys2Proof/WellFormed.lean ====
section
/-! DEFINITION. When a coded form is well formed: an assigned operation with operands of its own types
(`30_encoding.md` R79, R88), or a selector that R81 can form for a defined state (R80, R87). The constructors
of `Instr` carry operands of the exact types, so every `Instr` is well formed by its type. -/

namespace Sys2Proof

/-- The operand column of R79, `none` for the codes R88 leaves unassigned. -/
def operandForm (op : BitVec 5) : Option OperandForm :=
  match op.toNat with
  | 0x00 | 0x01 | 0x02 | 0x03 | 0x05 => some .nothing
  | 0x04 => some .u16Pair
  | 0x08 | 0x11 => some .byte
  | 0x09 | 0x0B | 0x0C | 0x0D | 0x0E => some .nothing
  | 0x0A => some .natural
  | 0x10 | 0x12 | 0x13 | 0x16 => some .nothing
  | 0x14 | 0x15 => some .slot
  | 0x18 | 0x19 | 0x1A => some .nothing
  | 0x1F => some .bytes
  | _ => none

/-- The arguments are of the form's count and ranges (R8, R79). -/
def OperandForm.fits : OperandForm → List Nat → Bool
  | .nothing, args => args.isEmpty
  | .byte, [b] => decide (b < 256)
  | .natural, [_] => true
  | .slot, [k] => decide (k < 4)
  | .u16Pair, [a, d] => decide (a < 65536) && decide (d < 65536)
  | .bytes, args => args.all fun b => decide (b < 256)
  | _, _ => false

/-- An operation word is well formed: its code is assigned and its operands fit (R79, R88). -/
def OpWord.wf (w : OpWord) : Bool :=
  match operandForm w.op with
  | some f => f.fits w.args
  | none => false

/-- A selector is one that R81 can form for a state code of R80: a defined state, the byte 0 where the scan
is exhausted, and the verdict bit only in VALIDATING. -/
def selWf (sel : BitVec 13) : Bool :=
  decide ((sel.extractLsb' 0 3).toNat ≤ 4)
    && (!sel.getLsbD 3 || sel.extractLsb' 4 8 == 0#8)
    && (!sel.getLsbD 12 || sel.extractLsb' 0 3 == 3#3)

/-- Well-formed coded forms. -/
def Code.wf : Code → Bool
  | .op5 w => w.wf
  | .sel13 sel => selWf sel

end Sys2Proof
end

