-- ==== Sys2Proof/Decode.lean ====
section
/-! DEFINITION. The decoder of both formats and the encoder (`30_encoding.md` sections 3 and 4). -/

namespace Sys2Proof

/-- Why a coded form names no instruction. -/
inductive DecodeError where
  /-- R88: the code has no row. -/
  | unassignedOp (op : BitVec 5)
  /-- The arguments are not those of the operation's row in R79 (log entry 10). -/
  | badOperands (op : BitVec 5)
  /-- R87: no row of R82 matches the selector; only a reserved state code can do that. -/
  | badState (st : BitVec 3)
  deriving DecidableEq, Repr

/-- One row of R82: the step taken when `sel &&& mask = pat` and no earlier row matched. -/
structure SelRow where
  step : MicroStep
  mask : BitVec 13
  pat : BitVec 13
  deriving DecidableEq, Repr

/-- The nine rows of R82, in their order. -/
def selRows : List SelRow :=
  [ ⟨.resetting,    0x0007#13, 0x0000#13⟩,
    ⟨.startPause,   0x000F#13, 0x0009#13⟩,
    ⟨.startHit,     0x0FFF#13, 0x0FA1#13⟩,
    ⟨.startDrop,    0x000F#13, 0x0001#13⟩,
    ⟨.payloadPause, 0x000F#13, 0x000A#13⟩,
    ⟨.payloadTake,  0x000F#13, 0x0002#13⟩,
    ⟨.validateFail, 0x1007#13, 0x0003#13⟩,
    ⟨.validatePass, 0x1007#13, 0x1003#13⟩,
    ⟨.emit,         0x0007#13, 0x0004#13⟩ ]

/-- A row matches a selector (R82). -/
def SelRow.hits (r : SelRow) (sel : BitVec 13) : Bool := sel &&& r.mask == r.pat

/-- R82: the first row, in order, that matches. -/
def decodeSel (sel : BitVec 13) : Option MicroStep :=
  (selRows.find? (·.hits sel)).map (·.step)

/-- `sel[2:0]`, the state code of a selector (R81). -/
def selSt (sel : BitVec 13) : BitVec 3 := sel.extractLsb' 0 3

/-- `sel[3]`, the scan-exhausted bit of a selector (R81). -/
def selExh (sel : BitVec 13) : Bool := sel.getLsbD 3

/-- `sel[11:4]`, the byte at the cursor of a selector (R81). -/
def selByte (sel : BitVec 13) : Byte := sel.extractLsb' 4 8

/-- `sel[12]`, the verdict bit of a selector (R81). -/
def selVerdict (sel : BitVec 13) : Bool := sel.getLsbD 12

/-- The operand list of a row without operands. -/
def argsNone (i : Instr) : List Nat → Option Instr
  | [] => some i
  | _ => none

/-- The operand list of a row with one byte. -/
def argsByte (f : Byte → Instr) : List Nat → Option Instr
  | [b] => if b < 256 then some (f (BitVec.ofNat 8 b)) else none
  | _ => none

/-- The operand list of a row with one natural. -/
def argsNatural (f : Nat → Instr) : List Nat → Option Instr
  | [n] => some (f n)
  | _ => none

/-- The operand list of a row with a slot number. -/
def argsSlot (f : Fin 4 → Instr) : List Nat → Option Instr
  | [k] => if h : k < 4 then some (f ⟨k, h⟩) else none
  | _ => none

/-- The operand list of a row with two u16 values. -/
def argsU16Pair (f : U16 → U16 → Instr) : List Nat → Option Instr
  | [a, d] => if a < 65536 ∧ d < 65536 then some (f (BitVec.ofNat 16 a) (BitVec.ofNat 16 d)) else none
  | _ => none

/-- The operand list of a row with a sequence of bytes. -/
def argsBytes (f : List Byte → Instr) (args : List Nat) : Option Instr :=
  if args.all (fun b => decide (b < 256)) then some (f (args.map (BitVec.ofNat 8))) else none

/-- R79: the row of an operation code, as the reader of its operand list; `none` for the codes of R88. -/
def opReader (op : BitVec 5) : Option (List Nat → Option Instr) :=
  match op.toNat with
  | 0x00 => some (argsNone .reset)
  | 0x01 => some (argsNone .parse)
  | 0x02 => some (argsNone .srcIsEmpty)
  | 0x03 => some (argsNone .srcNextByte)
  | 0x04 => some (argsU16Pair .sinkAdd)
  | 0x05 => some (argsNone .sinkSize)
  | 0x08 => some (argsByte .bufPush)
  | 0x09 => some (argsNone .bufPopFront)
  | 0x0A => some (argsNatural .bufPeekAt)
  | 0x0B => some (argsNone .bufNext)
  | 0x0C => some (argsNone .bufLen)
  | 0x0D => some (argsNone .bufIsScanExhausted)
  | 0x0E => some (argsNone .bufRefill)
  | 0x10 => some (argsNone .pktClear)
  | 0x11 => some (argsByte .pktAppend)
  | 0x12 => some (argsNone .pktIndexByte)
  | 0x13 => some (argsNone .pktSpeed)
  | 0x14 => some (argsSlot .decAngle)
  | 0x15 => some (argsSlot .decDist)
  | 0x16 => some (argsNone .decMeasurements)
  | 0x18 => some (argsNone .valIndex)
  | 0x19 => some (argsNone .valChecksum)
  | 0x1A => some (argsNone .valVerdict)
  | 0x1F => some (argsBytes .hostFeed)
  | _ => none

/-- The decoder of operation words (R79, R88). -/
def decodeOp (w : OpWord) : Except DecodeError Instr :=
  match opReader w.op with
  | none => .error (.unassignedOp w.op)
  | some rd =>
    match rd w.args with
    | some i => .ok i
    | none => .error (.badOperands w.op)

/-- The decoder, total on both formats. -/
def decode : Code → Except DecodeError Instr
  | .op5 w => decodeOp w
  | .sel13 sel =>
    match decodeSel sel with
    | some m => .ok m.instr
    | none => .error (.badState (selSt sel))

/-- The encoder: R79's code and operands, or R82's match word. -/
def encode : Instr → Code
  | .reset => .op5 ⟨0x00#5, []⟩
  | .parse => .op5 ⟨0x01#5, []⟩
  | .srcIsEmpty => .op5 ⟨0x02#5, []⟩
  | .srcNextByte => .op5 ⟨0x03#5, []⟩
  | .sinkAdd a d => .op5 ⟨0x04#5, [a.toNat, d.toNat]⟩
  | .sinkSize => .op5 ⟨0x05#5, []⟩
  | .bufPush b => .op5 ⟨0x08#5, [b.toNat]⟩
  | .bufPopFront => .op5 ⟨0x09#5, []⟩
  | .bufPeekAt o => .op5 ⟨0x0A#5, [o]⟩
  | .bufNext => .op5 ⟨0x0B#5, []⟩
  | .bufLen => .op5 ⟨0x0C#5, []⟩
  | .bufIsScanExhausted => .op5 ⟨0x0D#5, []⟩
  | .bufRefill => .op5 ⟨0x0E#5, []⟩
  | .pktClear => .op5 ⟨0x10#5, []⟩
  | .pktAppend b => .op5 ⟨0x11#5, [b.toNat]⟩
  | .pktIndexByte => .op5 ⟨0x12#5, []⟩
  | .pktSpeed => .op5 ⟨0x13#5, []⟩
  | .decAngle k => .op5 ⟨0x14#5, [k.val]⟩
  | .decDist k => .op5 ⟨0x15#5, [k.val]⟩
  | .decMeasurements => .op5 ⟨0x16#5, []⟩
  | .valIndex => .op5 ⟨0x18#5, []⟩
  | .valChecksum => .op5 ⟨0x19#5, []⟩
  | .valVerdict => .op5 ⟨0x1A#5, []⟩
  | .hostFeed bytes => .op5 ⟨0x1F#5, bytes.map BitVec.toNat⟩
  | .fsmResetting => .sel13 0x0000#13
  | .fsmStartPause => .sel13 0x0009#13
  | .fsmStartHit => .sel13 0x0FA1#13
  | .fsmStartDrop => .sel13 0x0001#13
  | .fsmPayloadPause => .sel13 0x000A#13
  | .fsmPayloadTake => .sel13 0x0002#13
  | .fsmValidateFail => .sel13 0x0003#13
  | .fsmValidatePass => .sel13 0x1003#13
  | .fsmEmit => .sel13 0x0004#13

/-- The operands of a word whose table row gives it none: zeros, and an empty sequence of bytes. -/
def zeroOperands (op : BitVec 5) : List Nat :=
  match operandForm op with
  | some .byte | some .natural | some .slot => [0]
  | some .u16Pair => [0, 0]
  | _ => []

/-- The coded form of a table word: a word of at most 8 bits is of format OP5 (5 bits, operands zero), a
longer one of format SEL13. DESIGN CHOICE, log entry 11, safe. -/
def tableCode (nbits w : Nat) : Option Code :=
  if nbits ≤ 8 then
    if w < 32 then some (.op5 ⟨BitVec.ofNat 5 w, zeroOperands (BitVec.ofNat 5 w)⟩) else none
  else if w < 8192 then some (.sel13 (BitVec.ofNat 13 w)) else none

/-- The instruction the decoder reads from a table word. -/
def decodeTableWord (nbits w : Nat) : Option Instr :=
  match tableCode nbits w with
  | some c =>
    match decode c with
    | .ok i => some i
    | .error _ => none
  | none => none

end Sys2Proof
end

