-- ==== Sys2Proof/Machine/Params.lean ====
section
/-! DEFINITION. The fixed implementation parameters of `00_scope.md` R6. The literals are the spec's, taken as
written (`93_implementation_defined.md` section 2; log entry 15). -/

namespace Sys2Proof.Machine

/-- `PKT_LEN`: bytes of a packet; also the smallest legal `BUF_CAP` (R6, R262). -/
def pktSize : Nat := 22

/-- `START_MARKER` (R71). -/
def startMarker : Byte := 0xFA#8

/-- `INDEX_MIN` (R72). -/
def indexMin : Byte := 0xA0#8

/-- `INDEX_MAX` (R72). -/
def indexMax : Byte := 0xF9#8

/-- `DIST_MASK`: keep bits 13..0 (R76). -/
def distMask : U16 := 0x3FFF#16

/-- `CHK_MASK`: 15 bits (R191; `90_conflicts.md` C1; log entry 15). -/
def chkMask : BitVec 32 := 0x7FFF#32

/-- `CHK_FOLD_SHIFT` (R191). -/
def chkFoldShift : Nat := 15

/-- The slots of `N_GROUPS` = 4 data groups, ascending (R6, R139). -/
def slots : List (Fin 4) := [0, 1, 2, 3]

/-- The numbers of the `CHK_WORDS` = 10 checksum words, in order (R6, R191). -/
def chkWordNumbers : List (Fin 10) := [0, 1, 2, 3, 4, 5, 6, 7, 8, 9]

end Sys2Proof.Machine
end

