-- ==== Sys2Proof/Machine/Operands.lean ====
section
/-! DEFINITION. Value assembly: the fields of a complete packet (`30_encoding.md` R70 to R78), the decoded
measurement (`42_field_decoding.md` R174 to R176) and the validator's arithmetic (`43_packet_validator.md`
R190 to R194). All are pure functions (R177, R195). -/

namespace Sys2Proof.Machine

/-- `LE16(lo, hi) = lo | (hi << 8)` (R9, R54). -/
def le16 (lo hi : Byte) : U16 := lo.setWidth 16 ||| (hi.setWidth 16 <<< 8)

/-- A sequence of exactly 22 bytes, as a complete packet (R89). -/
def packetOf (l : List Byte) : Option Packet :=
  if h : l.length = 22 then some ⟨l.toArray, by simpa using h⟩ else none

/-- `pkt[1]`, the index byte (R72). -/
def packetIndex (p : Packet) : Byte := p[1]

/-- The speed field (R73). -/
def packetSpeed (p : Packet) : U16 := le16 p[2] p[3]

/-- The distance word of group `k`, at offsets `4+4k`, `5+4k` (R74). -/
def distWord (p : Packet) (k : Fin 4) : U16 := le16 p[4 + 4 * k.val] p[5 + 4 * k.val]

/-- R76: the 14-bit distance of slot `k`, zero-extended to 16 bits. -/
def distanceOf (p : Packet) (k : Fin 4) : U16 := distWord p k &&& distMask

/-- R77: the angular index of slot `k` for a valid index byte, zero-extended to 16 bits. -/
def angleOf (index : Byte) (k : Fin 4) : U16 :=
  BitVec.ofNat 16 (((index.toNat - indexMin.toNat) <<< 2) + k.val)

/-- The measurement of slot `k` (R139). -/
def measurementOf (p : Packet) (k : Fin 4) : Meas := (angleOf (packetIndex p) k, distanceOf p k)

/-- The four measurements of a packet with a valid index, in slot order (R176). -/
def measurementsOf (p : Packet) : List Meas := slots.map (measurementOf p)

/-- R190: the index byte is in `[0xA0, 0xF9]`. -/
def indexOk (index : Byte) : Bool := decide (indexMin ≤ index) && decide (index ≤ indexMax)

/-- R78: checksum word `i`, at offsets `2i`, `2i+1`. -/
def chkWord (p : Packet) (i : Fin 10) : U16 := le16 p[2 * i.val] p[2 * i.val + 1]

/-- R191: one turn of the loop, `acc := (acc << 1) + w`, in the 32-bit accumulator (D3). -/
def chkTurn (acc : BitVec 32) (w : U16) : BitVec 32 := (acc <<< 1) + w.setWidth 32

/-- R191: the accumulator after the loop over the ten words. -/
def chkAcc (p : Packet) : BitVec 32 := (chkWordNumbers.map (chkWord p)).foldl chkTurn 0#32

/-- R191: the fold, done once: `(acc & 0x7FFF) + (acc >> 15)`. -/
def chkFold (acc : BitVec 32) : BitVec 32 := (acc &&& chkMask) + (acc >>> chkFoldShift)

/-- R191: the 15-bit checksum of bytes 0..19, as a u16. -/
def checksumOf (p : Packet) : U16 := (chkFold (chkAcc p) &&& chkMask).setWidth 16

/-- R75: the stored checksum. -/
def storedChecksum (p : Packet) : U16 := le16 p[20] p[21]

/-- R192: `VALID(pkt)`; the comparison is on all 16 bits (R194). -/
def validPacket (p : Packet) : Bool := indexOk (packetIndex p) && checksumOf p == storedChecksum p

end Sys2Proof.Machine
end

