-- ==== Sys2Proof/Config.lean ====
section
/-! DEFINITION. What an implementation fixes: the one OPEN parameter of `00_scope.md` R6, the frame buffer
capacity `BUF_CAP`. The fixed parameters of R6 are in `Sys2Proof/Machine/Params.lean`. -/

namespace Sys2Proof

/-- How many bytes more than the smallest legal 22 the frame buffer holds. OPEN (R6, `92_eei_decisions.md`
D2): no body, so no proof can see its value. DESIGN CHOICE, log entry 2, safe. -/
opaque Config.bufCapExtra : Nat

/-- `BUF_CAP` of the instance `State.reset` describes: any value of at least 22 (R6, R262). -/
def Config.bufCap : Nat := Config.bufCapExtra + 22

end Sys2Proof
end

