-- ==== Sys2Proof/Machine/State.lean ====
section
/-! DEFINITION. The state of one framer instance and of the host's side of its interfaces
(`10_state.md` R20, R21, R30), the faults and refusals of `60_exceptions.md` R237, R238, and reset. -/

namespace Sys2Proof.Machine

/-- A value an operation hands back to its caller (the "returns" column of `30_encoding.md` R79). -/
inductive Ret where
  /-- the operation hands back nothing -/
  | none
  | bool (b : Bool)
  | byte (b : Byte)
  | nat (n : Nat)
  | u16 (v : U16)
  | pairs (l : List Meas)
  deriving DecidableEq, Repr

/-- The operations of the source and of the sink that the block calls (R210 to R212), in which the host's handlers
run. -/
inductive Port where
  | srcIsEmpty
  | srcNextByte
  | sinkAdd
  deriving DecidableEq, Repr

/-- The host command port (`44_interfaces.md`): what R216 forbids a handler to issue. -/
inductive Command where
  | parse
  | reset
  deriving DecidableEq, Repr

/-- One act of the host (`44_interfaces.md` R215), in the list of acts still to come. DESIGN CHOICE, log
entry 4. -/
inductive Event where
  /-- Issue the operation as one atomic transaction (R57), once no PARSE is running. -/
  | call (w : OpWord)
  /-- Begin a PARSE, once none is running, and let its micro-steps be steps of the machine (R130). -/
  | enter
  /-- Issue the operation at once, also between two micro-steps of a running PARSE (R215, R216). -/
  | inside (w : OpWord)
  /-- The host does nothing: a running PARSE takes one micro-step. -/
  | pass
  /-- The handler of a source or sink operation issues PARSE or RESET from inside the next call that a running PARSE
  makes of it (R216, R268; log entry 14). The act is held, while the acts after it go on, until that call. -/
  | nested (p : Port) (c : Command)
  deriving DecidableEq, Repr

/-- The operation a fault records ("what is recorded", R237). -/
inductive Site where
  | bufPopFront
  | bufPeekAt
  | bufNext
  /-- forming the step selector of R81 -/
  | stepSelect
  | pktIndexByte
  | pktSpeed
  | decAngle
  | decDist
  | valIndex
  | valChecksum
  | valVerdict
  deriving DecidableEq, Repr

/-- The faults of R237. Each is permanent: the step has no next state. All are safe: the model stops where
the spec says that the instance stops. -/
inductive Fault where
  /-- F_POP_EMPTY: BUF_POP_FRONT of an empty frame buffer (R101). Safe. -/
  | popEmpty (op : Site)
  /-- F_PEEK_RANGE: BufRead, BUF_PEEK_AT, BUF_NEXT or the selector at an offset not below |buf| (R51, R102,
  R103). Safe. -/
  | peekRange (op : Site) (offset : Nat)
  /-- F_PKT_UNWRITTEN: a packet field read before the packet is complete (R53, R172 to R175, R190 to R192).
  Safe. -/
  | pktUnwritten (op : Site) (slot : Nat)
  /-- F_PKT_OVERFLOW: PKT_APPEND to a full packet (R171). Safe. -/
  | pktOverflow (b : Byte)
  /-- F_DECODE_INVALID: DEC_ANGLE with the index byte out of range (R174). Safe. -/
  | decodeInvalid (index : Byte)
  /-- F_SRC_EMPTY_READ: SRC_NEXT_BYTE of an empty source (R211). Safe. -/
  | srcEmptyRead
  deriving DecidableEq, Repr

/-- The refusals of R238, and two of the model's own. -/
inductive Refusal where
  /-- An instruction the model gives no meaning yet; raised by `exec`'s refused arms. Safe. -/
  | notModelled (mnemonic : String)
  /-- R_BAD_STATE: step decode with a reserved state code (R82, R87). Safe. -/
  | badState (st : BitVec 3)
  /-- R_UNASSIGNED_OP: an operation code without a row (R88). Safe. -/
  | unassignedOp (op : BitVec 5)
  /-- R_REENTRANT: PARSE or RESET issued while a PARSE is running, also from inside a source or sink call (R216).
  Safe. -/
  | reentrant
  /-- R_CONFIG: a step of an instance built with BUF_CAP below 22 (R262). Safe. -/
  | config
  /-- An operation word whose arguments are not its row's typed operands (R79; log entry 10). Safe. -/
  | badOperands (op : BitVec 5)
  deriving DecidableEq, Repr

/-- One framer instance, its configuration parameter, and the host's side. The block's own state is the
first seven entries of R20 (`pkt_len` is the length of `pkt`); `src` and `sink` are the host's (R21). -/
structure State where
  /-- the frame-parser state code, 3 bits (R80) -/
  st : BitVec 3
  /-- the continue flag; true exactly while a PARSE is running (R24) -/
  cont : Bool
  /-- the frame buffer, oldest byte first (R51) -/
  buf : List Byte
  /-- the scan cursor, an offset from the buffer head -/
  cur : Nat
  /-- the written packet slots, slot 0 first; a slot at or above the length holds no value (R27) -/
  pkt : List Byte
  /-- measurements delivered in the current call (R20) -/
  emitted : Nat
  /-- the frame buffer capacity BUF_CAP; no operation writes it (R26; log entry 2) -/
  cap : Nat
  /-- HOST: the bytes the source still holds, oldest first (R21) -/
  src : List Byte
  /-- HOST: the measurements delivered so far, oldest first (R21) -/
  sink : List Meas
  /-- MODEL'S OWN: what the last transaction returned to its caller (log entry 3) -/
  ret : Ret
  /-- MODEL'S OWN: the host's acts still to come (log entry 4) -/
  script : List Event
  deriving DecidableEq, Repr

/-- `pkt_len` of R20: how many packet slots are filled, in order from slot 0. -/
def State.pktLen (s : State) : Nat := s.pkt.length

/-- What a step of the model answers. -/
abbrev Out := Host.Outcome State Fault Refusal

/-- The state code RESETTING (R80). -/
abbrev stResetting : BitVec 3 := 0#3

/-- The state code SCAN_START (R80). -/
abbrev stScanStart : BitVec 3 := 1#3

/-- The state code SCAN_PAYLOAD (R80). -/
abbrev stScanPayload : BitVec 3 := 2#3

/-- The state code VALIDATING (R80). -/
abbrev stValidating : BitVec 3 := 3#3

/-- The state code EMITTING (R80). -/
abbrev stEmitting : BitVec 3 := 4#3

/-- The machine right after RESET of a freshly built instance (R30, R260, R262): `src` and `sink` empty, as
every program of `95_test_vectors.md` section 3 starts; no act of the host pending. -/
def State.reset : State where
  st := stResetting
  cont := false
  buf := []
  cur := 0
  pkt := []
  emitted := 0
  cap := Config.bufCap
  src := []
  sink := []
  ret := .none
  script := []

end Sys2Proof.Machine
end

