-- ==== Sys2Proof/Machine/Ops.lean ====
section
/-! DEFINITION. The named operations over the block's two storage spaces and the two host interfaces, which
every meaning is built from (`20_memory.md`, `40_frame_buffer.md`, `42_field_decoding.md`,
`43_packet_validator.md`, `44_interfaces.md`).
There is no operation that takes an exception and none that returns from one: R240, R241 say that no condition
transfers control to a handler or saves state. -/

namespace Sys2Proof.Machine

/-- The outcome of an operation that changes state: its value and the next state, or a fault. -/
inductive Res (α : Type) where
  | ok (a : α) (s : State)
  | fault (f : Fault)
  deriving Repr

/-- Do the next operation on the state the first one leaves (R9: later statements see earlier writes). -/
def Res.andThen {α β : Type} (r : Res α) (k : α → State → Res β) : Res β :=
  match r with
  | .ok a s => k a s
  | .fault f => .fault f

/-- Write the value a transaction hands back to its caller (log entry 3). -/
def State.returns (s : State) (v : Ret) : State := { s with ret := v }

/-- End a transaction whose operation changed state: hand back its value, or fault (R237). -/
def Res.answer {α : Type} (r : Res α) (f : α → Ret) : Out :=
  match r with
  | .ok a s => .next (s.returns (f a))
  | .fault e => .fault e

/-- End a micro-step: it hands nothing back to a caller. -/
def Res.micro (r : Res Unit) : Out :=
  match r with
  | .ok _ s => .next s
  | .fault e => .fault e

/-- End a transaction that only reads: the state is unchanged but for the value handed back (R177, R195). -/
def State.answers {α : Type} (s : State) (r : Except Fault α) (f : α → Ret) : Out :=
  match r with
  | .ok a => .next (s.returns (f a))
  | .error e => .fault e

/-! ## Frame buffer (R51, R100 to R106) -/

/-- R51: `BufRead(i)`, for the operation `op`. -/
def State.bufRead (s : State) (op : Site) (i : Nat) : Except Fault Byte :=
  match s.buf[i]? with
  | some b => .ok b
  | none => .error (.peekRange op i)

/-- There is room for one more byte: `|buf| < BUF_CAP` (R100). -/
def State.hasRoom (s : State) : Bool := decide (s.buf.length < s.cap)

/-- R100: append at the tail if there is room; the value says whether. -/
def State.bufPush (s : State) (b : Byte) : Bool × State :=
  if s.hasRoom then (true, { s with buf := s.buf ++ [b] }) else (false, s)

/-- R101: remove and return the oldest byte; the cursor moves down with the head, saturating at 0. -/
def State.bufPopFront (s : State) : Res Byte :=
  match s.buf with
  | [] => .fault (.popEmpty .bufPopFront)
  | v :: rest => .ok v { s with buf := rest, cur := if s.cur > 0 then s.cur - 1 else 0 }

/-- `repeat n times: BUF_POP_FRONT()` (R139). -/
def State.bufPopMany (s : State) : Nat → Res Unit
  | 0 => .ok () s
  | n + 1 => s.bufPopFront.andThen fun _ t => t.bufPopMany n

/-- R103: read the byte at the scan cursor and advance the cursor. -/
def State.bufNext (s : State) : Res Byte :=
  match s.bufRead .bufNext s.cur with
  | .ok v => .ok v { s with cur := s.cur + 1 }
  | .error f => .fault f

/-! ## Byte source and measurement sink (R210 to R214) -/

/-- R210: the source holds no byte. No side effect (D24). -/
def State.srcIsEmpty (s : State) : Bool := s.src.isEmpty

/-- R211: take the oldest byte of the source. -/
def State.srcNextByte (s : State) : Res Byte :=
  match s.src with
  | [] => .fault .srcEmptyRead
  | v :: rest => .ok v { s with src := rest }

/-- R214: the host appends bytes to the source. -/
def State.srcFeed (s : State) (bytes : List Byte) : State := { s with src := s.src ++ bytes }

/-- R212: deliver one measurement; the sink always accepts (D14). -/
def State.sinkAdd (s : State) (a d : U16) : State := { s with sink := s.sink ++ [(a, d)] }

/-- Deliver measurements one after the other, in order (R57, R62). -/
def State.sinkAddAll (s : State) : List Meas → State
  | [] => s
  | (a, d) :: rest => (s.sinkAdd a d).sinkAddAll rest

/-- R106: the refill loop, for at most `n` turns. A turn stops at an empty source; otherwise it takes one
byte and pushes it. -/
def State.refillLoop (s : State) : Nat → Res Unit
  | 0 => .ok () s
  | n + 1 =>
    if s.srcIsEmpty then .ok () s
    else s.srcNextByte.andThen fun b t => (t.bufPush b).2.refillLoop n

/-- R106: BUF_REFILL. The loop runs while `|buf| < BUF_CAP`, and each turn adds one byte, so there are at most
`BUF_CAP - |buf|` turns. -/
def State.refill (s : State) : Res Unit := s.refillLoop (s.cap - s.buf.length)

/-! ## Packet register (R27, R53, R170 to R176) -/

/-- R53: `PktRead(i)`, for the operation `op`. -/
def State.pktRead (s : State) (op : Site) (i : Nat) : Except Fault Byte :=
  match s.pkt[i]? with
  | some b => .ok b
  | none => .error (.pktUnwritten op i)

/-- R170: empty the packet accumulator; its slots become unreadable. -/
def State.pktClear (s : State) : State := { s with pkt := [] }

/-- R171: write the next slot, `PktWrite(pkt_len, b)`. -/
def State.pktAppend (s : State) (b : Byte) : Res Unit :=
  if s.pktLen < pktSize then .ok () { s with pkt := s.pkt ++ [b] } else .fault (.pktOverflow b)

/-- The complete packet, or F_PKT_UNWRITTEN while slots are unwritten (R27, D29). The slot recorded is the
lowest unwritten one (log entry 8). -/
def State.packet (s : State) (op : Site) : Except Fault Packet :=
  match packetOf s.pkt with
  | some p => .ok p
  | none => .error (.pktUnwritten op s.pktLen)

/-- Read one field of the complete packet. -/
def State.field {α : Type} (s : State) (op : Site) (f : Packet → α) : Except Fault α :=
  match s.packet op with
  | .ok p => .ok (f p)
  | .error e => .error e

/-- R174: the angular index of slot `k`. -/
def State.decAngle (s : State) (k : Fin 4) : Except Fault U16 :=
  match s.packet .decAngle with
  | .ok p => if indexOk (packetIndex p) then .ok (angleOf (packetIndex p) k) else .error (.decodeInvalid (packetIndex p))
  | .error e => .error e

/-- R175: the distance of slot `k`. -/
def State.decDist (s : State) (k : Fin 4) : Except Fault U16 := s.field .decDist fun p => distanceOf p k

/-- The pair `(DEC_ANGLE(k), DEC_DIST(k))` (R176). -/
def State.decMeasurement (s : State) (k : Fin 4) : Except Fault Meas :=
  match s.decAngle k with
  | .ok a =>
    match s.decDist k with
    | .ok d => .ok (a, d)
    | .error e => .error e
  | .error e => .error e

/-- The pairs of the listed slots, in order; the first fault ends it (R176). -/
def State.decSlots (s : State) : List (Fin 4) → Except Fault (List Meas)
  | [] => .ok []
  | k :: rest =>
    match s.decMeasurement k with
    | .ok m =>
      match s.decSlots rest with
      | .ok ms => .ok (m :: ms)
      | .error e => .error e
    | .error e => .error e

/-- R176: the four measurements, in slot order. -/
def State.decMeasurements (s : State) : Except Fault (List Meas) := s.decSlots slots

/-! ## Validator (R190 to R192) -/

/-- R190: VAL_INDEX. -/
def State.valIndex (s : State) : Except Fault Bool := s.field .valIndex fun p => indexOk (packetIndex p)

/-- R191: VAL_CHECKSUM. -/
def State.valChecksum (s : State) : Except Fault U16 := s.field .valChecksum checksumOf

/-- R192: VAL_VERDICT. Of an incomplete packet it records itself as the operation, not the VAL_INDEX that its
pseudocode names first, since R196 lets both checks be evaluated at once (DESIGN CHOICE, log entry 8). -/
def State.valVerdict (s : State) : Except Fault Bool := s.field .valVerdict validPacket

/-! ## Reset (R30, R260) -/

/-- R260: every block register at its value of R30; the capacity and the host's side are untouched. -/
def State.resetBlock (s : State) : State :=
  { s with st := stResetting, cont := false, buf := [], cur := 0, pkt := [], emitted := 0 }

end Sys2Proof.Machine
end

