-- ==== Sys2Proof/Machine/Flags.lean ====
section
/-! DEFINITION. The one architectural flag `cont` (`10_state.md` R24), the derived signals (R25) and the step
selector formed from them (`30_encoding.md` R81). -/

namespace Sys2Proof.Machine

/-- Set `cont`: only PARSE does, at the start of a call (R24). -/
def State.setCont (s : State) : State := { s with cont := true }

/-- Clear `cont`: the two pause steps do (R24). -/
def State.clearCont (s : State) : State := { s with cont := false }

/-- Write the state register (R80). -/
def State.goto (s : State) (c : BitVec 3) : State := { s with st := c }

/-- R25: `exh = (cur == |buf|)`. -/
def State.exh (s : State) : Bool := s.cur == s.buf.length

/-- R25: `full = (|buf| == BUF_CAP)`. -/
def State.full (s : State) : Bool := s.buf.length == s.cap

/-- R81: the byte part of the selector, `buf[cur]`, or 0 where the scan is exhausted. -/
def State.selectorByte (s : State) : Except Fault Byte :=
  if s.exh then .ok 0#8 else s.bufRead .stepSelect s.cur

/-- R81: the verdict part of the selector, `VALID(pkt)` in VALIDATING, otherwise 0. -/
def State.selectorVerdict (s : State) : Except Fault Bool :=
  if s.st = stValidating then s.valVerdict else .ok false

/-- R81: the 13 bits `verdict, byte, exh, st`, the most significant first. -/
def selectorWord (v : Bool) (b : Byte) (e : Bool) (st : BitVec 3) : BitVec 13 :=
  BitVec.ofBool v ++ b ++ BitVec.ofBool e ++ st

/-- R81: the step selector, formed at the start of a micro-step. -/
def State.selector (s : State) : Except Fault (BitVec 13) :=
  match s.selectorByte with
  | .error f => .error f
  | .ok b =>
    match s.selectorVerdict with
    | .error f => .error f
    | .ok v => .ok (selectorWord v b s.exh s.st)

end Sys2Proof.Machine
end

