-- ==== Sys2Proof/Machine/FieldDecoding.lean ====
section
/-! DEFINITION. The field decoding family of the opcode table (`42_field_decoding.md` R170 to R177). -/

namespace Sys2Proof.Machine

/-- PKT_CLEAR (R170). -/
def execPktClear (s : State) : Out := .next (s.pktClear.returns .none)

/-- PKT_APPEND (R171). -/
def execPktAppend (b : Byte) (s : State) : Out := (s.pktAppend b).answer fun _ => .none

/-- PKT_INDEX_BYTE (R172). -/
def execPktIndexByte (s : State) : Out := s.answers (s.field .pktIndexByte packetIndex) .byte

/-- PKT_SPEED (R173). -/
def execPktSpeed (s : State) : Out := s.answers (s.field .pktSpeed packetSpeed) .u16

/-- DEC_ANGLE (R174). -/
def execDecAngle (k : Fin 4) (s : State) : Out := s.answers (s.decAngle k) .u16

/-- DEC_DIST (R175). -/
def execDecDist (k : Fin 4) (s : State) : Out := s.answers (s.decDist k) .u16

/-- DEC_MEASUREMENTS (R176). -/
def execDecMeasurements (s : State) : Out := s.answers s.decMeasurements .pairs

end Sys2Proof.Machine
end

