-- ==== Sys2Proof/Machine/FrameBuffer.lean ====
section
/-! DEFINITION. The frame buffer family of the opcode table (`40_frame_buffer.md` R100 to R106). -/

namespace Sys2Proof.Machine

/-- BUF_PUSH (R100). -/
def execBufPush (b : Byte) (s : State) : Out := .next ((s.bufPush b).2.returns (.bool (s.bufPush b).1))

/-- BUF_POP_FRONT (R101). -/
def execBufPopFront (s : State) : Out := s.bufPopFront.answer .byte

/-- BUF_PEEK_AT (R102). -/
def execBufPeekAt (o : Nat) (s : State) : Out := s.answers (s.bufRead .bufPeekAt o) .byte

/-- BUF_NEXT (R103). -/
def execBufNext (s : State) : Out := s.bufNext.answer .byte

/-- BUF_LEN (R104). -/
def execBufLen (s : State) : Out := .next (s.returns (.nat s.buf.length))

/-- BUF_IS_SCAN_EXHAUSTED (R105). -/
def execBufIsScanExhausted (s : State) : Out := .next (s.returns (.bool s.exh))

/-- BUF_REFILL (R106). -/
def execBufRefill (s : State) : Out := s.refill.answer fun _ => .none

end Sys2Proof.Machine
end

