-- ==== Sys2Proof/Machine/FrameParser.lean ====
section
/-! DEFINITION. The frame parser family of the opcode table: the nine micro-steps and PARSE
(`41_frame_parser.md` R130 to R140). -/

namespace Sys2Proof.Machine

/-- FSM_RESETTING (R131). -/
def execFsmResetting (s : State) : Out := .next ({ s.pktClear with cur := 0 }.goto stScanStart)

/-- FSM_START_PAUSE (R133): the state register is kept, so the next call resumes there (R142). -/
def execFsmStartPause (s : State) : Out := .next s.clearCont

/-- FSM_START_HIT (R134): the marker stays in the buffer. -/
def execFsmStartHit (s : State) : Out :=
  (s.bufNext.andThen fun b t => (t.pktAppend b).andThen fun _ u => .ok () (u.goto stScanPayload)).micro

/-- FSM_START_DROP (R132): exactly one byte is discarded. -/
def execFsmStartDrop (s : State) : Out :=
  (s.bufNext.andThen fun _ t => t.bufPopFront.andThen fun _ u => .ok () u).micro

/-- FSM_PAYLOAD_PAUSE (R135). -/
def execFsmPayloadPause (s : State) : Out := .next s.clearCont

/-- FSM_PAYLOAD_TAKE (R136): the byte that completes the packet also moves the state on (D11). -/
def execFsmPayloadTake (s : State) : Out :=
  (s.bufNext.andThen fun b t =>
    (t.pktAppend b).andThen fun _ u => .ok () (if u.pktLen = pktSize then u.goto stValidating else u)).micro

/-- FSM_VALIDATE_FAIL (R137): only the candidate's first byte is discarded (`90_conflicts.md` C2). -/
def execFsmValidateFail (s : State) : Out :=
  (s.bufPopFront.andThen fun _ t => .ok () (t.goto stResetting)).micro

/-- FSM_VALIDATE_PASS (R138). -/
def execFsmValidatePass (s : State) : Out := .next (s.goto stEmitting)

/-- FSM_EMIT (R139): the four measurements in slot order, then the 22 bytes of the candidate are popped. -/
def execFsmEmit (s : State) : Out :=
  match s.decMeasurements with
  | .error f => .fault f
  | .ok ms =>
    let t := s.sinkAddAll ms
    (({ t with emitted := t.emitted + 4 }.bufPopMany pktSize).andThen fun _ u =>
      .ok () (u.goto stResetting)).micro

/-- The meaning of each row of the selector's table. -/
def runMicro : MicroStep → State → Out
  | .resetting, s => execFsmResetting s
  | .startPause, s => execFsmStartPause s
  | .startHit, s => execFsmStartHit s
  | .startDrop, s => execFsmStartDrop s
  | .payloadPause, s => execFsmPayloadPause s
  | .payloadTake, s => execFsmPayloadTake s
  | .validateFail, s => execFsmValidateFail s
  | .validatePass, s => execFsmValidatePass s
  | .emit, s => execFsmEmit s

/-- R130: form the selector, take the first matching row of R82, perform it. A reserved state code is refused
(R87). -/
def microStep (s : State) : Out :=
  match s.selector with
  | .error f => .fault f
  | .ok sel =>
    match decodeSel sel with
    | some m => runMicro m s
    | none => .refused (.badState (selSt sel))

/-- R140: `while cont = 1 do micro-step`, for at most `n` micro-steps. -/
def parseLoop : Nat → State → Out
  | 0, s => .next s
  | n + 1, s =>
    if s.cont then
      match microStep s with
      | .next t => parseLoop n t
      | .fault f => .fault f
      | .refused r => .refused r
    else .next s

/-- R143(a): a call takes at most `24 * L + 2` micro-steps, `L` being `|buf|` after its refill. -/
def callBound (s : State) : Nat := 24 * s.buf.length + 2

/-- R140: the start of a call: the one refill, then `emitted <- 0` and `cont <- 1`. -/
def State.enterCall (s : State) : Res Unit :=
  s.refill.andThen fun _ t => .ok () { t with emitted := 0 }.setCont

/-- R140: the end of a call hands the count back. A state in which `cont` is still 1 has not returned. -/
def State.returnCount (s : State) : State := if s.cont then s else s.returns (.nat s.emitted)

/-- PARSE (R140): one whole call; refused when issued while a PARSE is running (R216). The bound of R143(a)
is the loop's fuel, so the loop always runs to its end (log entry 5). -/
def execParse (s : State) : Out :=
  if s.cont then .refused .reentrant
  else
    match s.enterCall with
    | .fault f => .fault f
    | .ok _ t =>
      match parseLoop (callBound t) t with
      | .next u => .next u.returnCount
      | .fault f => .fault f
      | .refused r => .refused r

end Sys2Proof.Machine
end

