-- ==== Sys2Proof/Machine/Interfaces.lean ====
section
/-! DEFINITION. The interfaces family of the opcode table (`44_interfaces.md` R210 to R214). -/

namespace Sys2Proof.Machine

/-- SRC_IS_EMPTY (R210). -/
def execSrcIsEmpty (s : State) : Out := .next (s.returns (.bool s.srcIsEmpty))

/-- SRC_NEXT_BYTE (R211). -/
def execSrcNextByte (s : State) : Out := s.srcNextByte.answer .byte

/-- SINK_ADD (R212). -/
def execSinkAdd (a d : U16) (s : State) : Out := .next ((s.sinkAdd a d).returns .none)

/-- SINK_SIZE (R213). -/
def execSinkSize (s : State) : Out := .next (s.returns (.nat s.sink.length))

/-- HOST_FEED (R214): allowed at any time, also during a PARSE (R215). -/
def execHostFeed (bytes : List Byte) (s : State) : Out := .next ((s.srcFeed bytes).returns .none)

end Sys2Proof.Machine
end

