-- ==== Sys2Proof/Machine/Reset.lean ====
section
/-! DEFINITION. The reset family of the opcode table (`70_reset_and_hazards.md` R260). -/

namespace Sys2Proof.Machine

/-- RESET (R260): a freshly built parser; refused while a PARSE is running (R216). -/
def execReset (s : State) : Out :=
  if s.cont then .refused .reentrant else .next (s.resetBlock.returns .none)

end Sys2Proof.Machine
end

