-- ==== Sys2Proof/Machine/Validator.lean ====
section
/-! DEFINITION. The validator family of the opcode table (`43_packet_validator.md` R190 to R196). -/

namespace Sys2Proof.Machine

/-- VAL_INDEX (R190). -/
def execValIndex (s : State) : Out := s.answers s.valIndex .bool

/-- VAL_CHECKSUM (R191). -/
def execValChecksum (s : State) : Out := s.answers s.valChecksum .u16

/-- VAL_VERDICT (R192). -/
def execValVerdict (s : State) : Out := s.answers s.valVerdict .bool

end Sys2Proof.Machine
end

