-- ==== Sys2Proof/Machine/Dispatch.lean ====
section
/-! DEFINITION. The one dispatch: one arm per constructor of Instr (spec/opcode_table.json, in its order). -/

namespace Sys2Proof.Machine

/-- The meaning of each instruction. -/
def exec (i : Instr) (s : State) : Host.Outcome State Fault Refusal :=
  match i with
  | .reset => Sys2Proof.Machine.execReset s
  | .parse => Sys2Proof.Machine.execParse s
  | .srcIsEmpty => Sys2Proof.Machine.execSrcIsEmpty s
  | .srcNextByte => Sys2Proof.Machine.execSrcNextByte s
  | .sinkAdd a d => Sys2Proof.Machine.execSinkAdd a d s
  | .sinkSize => Sys2Proof.Machine.execSinkSize s
  | .bufPush b => Sys2Proof.Machine.execBufPush b s
  | .bufPopFront => Sys2Proof.Machine.execBufPopFront s
  | .bufPeekAt o => Sys2Proof.Machine.execBufPeekAt o s
  | .bufNext => Sys2Proof.Machine.execBufNext s
  | .bufLen => Sys2Proof.Machine.execBufLen s
  | .bufIsScanExhausted => Sys2Proof.Machine.execBufIsScanExhausted s
  | .bufRefill => Sys2Proof.Machine.execBufRefill s
  | .pktClear => Sys2Proof.Machine.execPktClear s
  | .pktAppend b => Sys2Proof.Machine.execPktAppend b s
  | .pktIndexByte => Sys2Proof.Machine.execPktIndexByte s
  | .pktSpeed => Sys2Proof.Machine.execPktSpeed s
  | .decAngle k => Sys2Proof.Machine.execDecAngle k s
  | .decDist k => Sys2Proof.Machine.execDecDist k s
  | .decMeasurements => Sys2Proof.Machine.execDecMeasurements s
  | .valIndex => Sys2Proof.Machine.execValIndex s
  | .valChecksum => Sys2Proof.Machine.execValChecksum s
  | .valVerdict => Sys2Proof.Machine.execValVerdict s
  | .hostFeed bytes => Sys2Proof.Machine.execHostFeed bytes s
  | .fsmResetting => Sys2Proof.Machine.execFsmResetting s
  | .fsmStartPause => Sys2Proof.Machine.execFsmStartPause s
  | .fsmStartHit => Sys2Proof.Machine.execFsmStartHit s
  | .fsmStartDrop => Sys2Proof.Machine.execFsmStartDrop s
  | .fsmPayloadPause => Sys2Proof.Machine.execFsmPayloadPause s
  | .fsmPayloadTake => Sys2Proof.Machine.execFsmPayloadTake s
  | .fsmValidateFail => Sys2Proof.Machine.execFsmValidateFail s
  | .fsmValidatePass => Sys2Proof.Machine.execFsmValidatePass s
  | .fsmEmit => Sys2Proof.Machine.execFsmEmit s

end Sys2Proof.Machine
end

