-- ==== Sys2Proof/Machine/Sequencer.lean ====
section
/-! DEFINITION. What the machine does next: an act of the host, or a micro-step of the running PARSE
(`41_frame_parser.md` R130, `44_interfaces.md` R215, `70_reset_and_hazards.md` R262, R264; log entries 4, 5, 9,
11, 13). -/

namespace Sys2Proof.Machine

/-- The next turn of the machine, with the state it is taken in. -/
inductive Turn where
  /-- a transaction of an operation of format OP5 (R57) -/
  | op (i : Instr) (s : State)
  /-- the start of a PARSE whose micro-steps are steps of the machine -/
  | enter (s : State)
  /-- a micro-step of the running PARSE -/
  | micro (i : Instr) (s : State)
  /-- no PARSE runs and the host does nothing (R247) -/
  | idle (s : State)
  | fault (f : Fault)
  | refuse (r : Refusal)
  deriving Repr

/-- The refusal that a decoding error stands for (R238). -/
def refusalOf : DecodeError → Refusal
  | .unassignedOp op => .unassignedOp op
  | .badOperands op => .badOperands op
  | .badState st => .badState st

/-- The turn of an operation word the host issues. -/
def State.opTurn (s : State) (w : OpWord) : Turn :=
  match decode (.op5 w) with
  | .ok i => .op i s
  | .error e => .refuse (refusalOf e)

/-- R130: while `cont = 1` the block takes the micro-step its selector names; no micro-step runs while
`cont = 0`, and then nothing happens (R247, R264). -/
def State.blockTurn (s : State) : Turn :=
  if s.cont then
    match s.selector with
    | .error f => .fault f
    | .ok sel =>
      match decode (.sel13 sel) with
      | .ok i => .micro i s
      | .error e => .refuse (refusalOf e)
  else .idle s

/-- The turn that the host's acts and the running call give (log entry 4). The acts `held` were passed over and
stay pending: they wait for a call of a port (log entry 14). -/
def State.turnFrom (s : State) (held : List Event) : List Event → Turn
  | [] => s.blockTurn
  | .pass :: rest => { s with script := held ++ rest }.blockTurn
  | .inside w :: rest => { s with script := held ++ rest }.opTurn w
  | .call w :: rest => if s.cont then s.blockTurn else { s with script := held ++ rest }.opTurn w
  | .enter :: rest => if s.cont then s.blockTurn else .enter { s with script := held ++ rest }
  | .nested p c :: rest => s.turnFrom (held ++ [.nested p c]) rest

/-- The next turn. An instance whose capacity breaks the premise of R262 is refused; otherwise the host's next
act and the running call say who moves (log entry 4). -/
def fetch (s : State) : Turn :=
  if s.cap < pktSize then .refuse .config else s.turnFrom [] s.script

/-- A micro-step that clears `cont` ends the call, which hands its count back (R140). -/
def finishMicro : Out → Out
  | .next t => .next t.returnCount
  | .fault f => .fault f
  | .refused r => .refused r

/-- Take a turn, `ex` being the meaning of the instructions. -/
def Turn.run (ex : Instr → State → Out) : Turn → Out
  | .op i s => ex i s
  | .enter s => s.enterCall.micro
  | .micro i s => finishMicro (ex i s)
  | .idle s => .next s
  | .fault f => .fault f
  | .refuse r => .refused r

/-! ## Placing one table word (log entry 11) -/

/-- The packet of `95_test_vectors.md` V-SRC-1, a valid candidate. -/
def sampleValid : List Byte :=
  [0xFA#8, 0xA0#8, 0x27#8, 0x4B#8, 0x97#8, 0x01#8, 0xBB#8, 0x01#8, 0x97#8, 0x01#8, 0xB4#8, 0x00#8,
   0x98#8, 0x01#8, 0x53#8, 0x00#8, 0x99#8, 0x01#8, 0x93#8, 0x00#8, 0x4E#8, 0x28#8]

/-- A candidate whose index byte 0x00 is out of range. -/
def sampleInvalid : List Byte := startMarker :: List.replicate 21 0x00#8

/-- The candidate that a selector's state and verdict ask for. -/
def candidateFor (sel : BitVec 13) : List Byte :=
  match (selSt sel).toNat with
  | 2 => [startMarker]
  | 3 => if selVerdict sel then sampleValid else sampleInvalid
  | 4 => sampleValid
  | _ => []

/-- `s` inside a running PARSE whose next micro-step forms the selector `sel`. -/
def State.placeSelector (s : State) (sel : BitVec 13) : State :=
  { s with
    st := selSt sel
    cont := true
    buf := candidateFor sel ++ (if selExh sel then [] else [selByte sel])
    cur := (candidateFor sel).length
    pkt := candidateFor sel
    script := .pass :: s.script }

/-- `s` with the coded instruction as what the next step runs. -/
def State.placeCode (s : State) : Code → State
  | .op5 w => { s with script := .inside w :: s.script }
  | .sel13 sel => s.placeSelector sel

/-- `s` with the instruction of a table word as what the next step runs; `s` itself where the table can have no
such word. -/
def State.placeTableWord (s : State) (nbits w : Nat) : State :=
  match tableCode nbits w with
  | some c => s.placeCode c
  | none => s

end Sys2Proof.Machine
end

