-- ==== Sys2Proof/Machine/Reentry.lean ====
section
/-! DEFINITION. Calls from inside a source or sink call (`44_interfaces.md` R216): which ports a turn of the machine
calls while a PARSE is running, and the refusal of a PARSE or RESET that a handler issues there. -/

namespace Sys2Proof.Machine

/-- R106: a refill asks the source if there is room, and takes a byte from it if it then has one. -/
def State.refillPorts (s : State) : List Port :=
  if s.hasRoom then if s.srcIsEmpty then [.srcIsEmpty] else [.srcIsEmpty, .srcNextByte] else []

/-- R139: FSM_EMIT calls the sink once the packet decodes. -/
def State.emitPorts (s : State) : List Port :=
  match s.decMeasurements with
  | .ok _ => [.sinkAdd]
  | .error _ => []

/-- R130, R139: of the micro-steps only FSM_EMIT calls a port. -/
def State.microPorts (s : State) : List Port :=
  match s.selector with
  | .ok sel => if decodeSel sel = some .emit then s.emitPorts else []
  | .error _ => []

/-- The ports that `parseLoop` calls. -/
def loopPorts : Nat → State → List Port
  | 0, _ => []
  | n + 1, s =>
    if s.cont then
      s.microPorts ++
        match microStep s with
        | .next t => loopPorts n t
        | .fault _ => []
        | .refused _ => []
    else []

/-- R140: the ports that a whole PARSE calls, those of its refill and those of its micro-steps. -/
def State.parsePorts (s : State) : List Port :=
  s.refillPorts ++
    match s.enterCall with
    | .ok _ t => loopPorts (callBound t) t
    | .fault _ => []

/-- The ports that an instruction calls. -/
def State.portsOf (s : State) : Instr → List Port
  | .parse => s.parsePorts
  | .bufRefill => s.refillPorts
  | .srcIsEmpty => [.srcIsEmpty]
  | .srcNextByte => [.srcNextByte]
  | .sinkAdd _ _ => [.sinkAdd]
  | .fsmEmit => s.emitPorts
  | .reset | .sinkSize | .hostFeed _ => []
  | .bufPush _ | .bufPopFront | .bufPeekAt _ | .bufNext | .bufLen | .bufIsScanExhausted => []
  | .pktClear | .pktAppend _ | .pktIndexByte | .pktSpeed | .decAngle _ | .decDist _ | .decMeasurements => []
  | .valIndex | .valChecksum | .valVerdict => []
  | .fsmResetting | .fsmStartPause | .fsmStartHit | .fsmStartDrop | .fsmPayloadPause | .fsmPayloadTake => []
  | .fsmValidateFail | .fsmValidatePass => []

/-- The ports that a turn calls while a PARSE is running: the call that it begins is running from its refill on,
although `cont` is set after it (R140). -/
def Turn.ports : Turn → List Port
  | .op i s => if s.cont ∨ i = .parse then s.portsOf i else []
  | .enter s => s.refillPorts
  | .micro i s => s.portsOf i
  | .idle _ => []
  | .fault _ => []
  | .refuse _ => []

/-- The ports whose handlers are to issue a PARSE or RESET: those of the acts held at the head of the list. -/
def nestedPorts : List Event → List Port
  | .nested p _ :: rest => p :: nestedPorts rest
  | [] | .call _ :: _ | .enter :: _ | .inside _ :: _ | .pass :: _ => []

/-- Take a turn with the host's acts pending: if it calls a port whose handler issues a PARSE or RESET there, that is
refused (R216). -/
def Turn.runWith (ex : Instr → State → Out) (acts : List Event) (t : Turn) : Out :=
  if t.ports.any fun p => (nestedPorts acts).contains p then .refused .reentrant else t.run ex

end Sys2Proof.Machine
end

