-- ==== Sys2Proof/Machine/Step.lean ====
section
/-! DEFINITION. One step of the machine, and the placing of one table word. -/

namespace Sys2Proof.Machine

/-- One step: the next turn, taken with the meanings of `exec`. -/
def step (s : State) : Host.Outcome State Fault Refusal := (fetch s).runWith exec s.script

/-- `s` with the instruction of a table word as the one the next step runs (log entry 11). -/
def State.withFetchWord (s : State) (nbits w : Nat) : State := s.placeTableWord nbits w

end Sys2Proof.Machine
end

