-- ==== Sys2Proof/Machine/Conditions.lean ====
section
/-! DEFINITION. The four recovered error conditions (`60_exceptions.md` R230 to R236). No register holds them
and no interface reports them: they are a function of the state a micro-step is about to be taken in. -/

namespace Sys2Proof.Machine

/-- The conditions of R230. -/
inductive Condition where
  | framing
  | field
  | checksum
  | starvation
  deriving DecidableEq, Repr

/-- The trace codes of R230. -/
def Condition.code : Condition → Nat
  | .framing => 1
  | .field => 2
  | .checksum => 3
  | .starvation => 4

/-- The class of a candidate that fails: FIELD where the index check fails, whatever the checksum (R235(a)). -/
def State.failClass (s : State) : Option Condition :=
  match s.valIndex with
  | .ok true => some .checksum
  | .ok false => some .field
  | .error _ => none

/-- The condition raised by the micro-step taken in a state, if any (R230 to R235): at most one. -/
def State.condition (s : State) : Option Condition :=
  match s.selector with
  | .error _ => none
  | .ok sel =>
    match decodeSel sel with
    | some .startDrop => some .framing
    | some .startPause => some .starvation
    | some .payloadPause => some .starvation
    | some .validateFail => s.failClass
    | _ => none

end Sys2Proof.Machine
end

