-- ==== Sys2Proof/Machine/HostProgram.lean ====
section
/-! DEFINITION. Host programs: the statements of `30_encoding.md` R90, R91 and what a run of them observes
(`70_reset_and_hazards.md` R272). -/

namespace Sys2Proof.Machine

/-- The statements of R90. -/
inductive Stmt where
  /-- `RESET` -/
  | reset
  /-- `FEED` of a brace list of bytes -/
  | feed (bytes : List Byte)
  /-- `PARSE -> n` -/
  | parse (n : Nat)
  /-- `EXPECT sink += [...]`: what the preceding PARSE delivered -/
  | expectSink (delivered : List Meas)
  /-- `EXPECT state st=.. |buf|=.. cur=.. pkt_len=.. src=..` -/
  | expectState (st : BitVec 3) (bufLen cur pktLen srcLen : Nat)
  deriving DecidableEq, Repr

/-- The operation of a statement; an EXPECT line performs none (R91). -/
def Stmt.instr : Stmt → Option Instr
  | .reset => some .reset
  | .feed bytes => some (.hostFeed bytes)
  | .parse _ => some .parse
  | .expectSink _ => none
  | .expectState _ _ _ _ _ => none

/-- What a run observes (R272): the state with the sink, the returned counts, and how long the sink was before
the last PARSE. -/
structure HostRun where
  state : State
  counts : List Nat
  mark : Nat
  deriving DecidableEq, Repr

/-- Issue an operation; `none` where it does not complete. -/
def HostRun.issue (r : HostRun) (i : Instr) : Option State :=
  match exec i r.state with
  | .next t => some t
  | .fault _ => none
  | .refused _ => none

/-- One statement; `none` where its operation does not complete or what it expects is not so. -/
def HostRun.stmt (r : HostRun) : Stmt → Option HostRun
  | .reset => (r.issue .reset).map fun t => { r with state := t }
  | .feed bytes => (r.issue (.hostFeed bytes)).map fun t => { r with state := t }
  | .parse n =>
    match r.issue .parse with
    | some t =>
      if t.ret = .nat n then some { state := t, counts := r.counts ++ [n], mark := r.state.sink.length } else none
    | none => none
  | .expectSink ms => if r.state.sink.drop r.mark = ms then some r else none
  | .expectState st bufLen cur pktLen srcLen =>
    if r.state.st = st ∧ r.state.buf.length = bufLen ∧ r.state.cur = cur ∧ r.state.pktLen = pktLen
        ∧ r.state.src.length = srcLen then some r else none

/-- A host program, statement by statement. -/
def HostRun.program (r : HostRun) : List Stmt → Option HostRun
  | [] => some r
  | st :: rest =>
    match r.stmt st with
    | some r' => r'.program rest
    | none => none

/-- The instance after construction with the given capacity (`95_test_vectors.md` section 3). -/
def State.built (cap : Nat) : State := { State.reset with cap := cap }

/-- The start of a host run on a freshly built instance. -/
def HostRun.start (cap : Nat) : HostRun := { state := State.built cap, counts := [], mark := 0 }

/-- The bytes a program feeds, in order. -/
def fedBytes : List Stmt → List Byte
  | [] => []
  | .feed bytes :: rest => bytes ++ fedBytes rest
  | .reset :: rest => fedBytes rest
  | .parse _ :: rest => fedBytes rest
  | .expectSink _ :: rest => fedBytes rest
  | .expectState _ _ _ _ _ :: rest => fedBytes rest

end Sys2Proof.Machine
end

