-- ==== Sys2Proof/Safety.lean ====
section
/-! DEFINITION. What counts as a safe run, in the terms the statements use: the bounded storage, the
reachable-state invariants of `10_state.md` R29, the host's duties of `44_interfaces.md` R215, and the
measurement sequence `M(S)` of a byte stream (`41_frame_parser.md` R144). -/

namespace Sys2Proof.Machine

/-- The canonical form of the block's storage (INV1 of R29, R20): the buffer within its capacity, the cursor
within the buffer, at most 22 packet slots. The block has no address space (R50, R59), so this, not a list of
addressed cells, is its memory. -/
def Memory.wf (s : State) : Bool :=
  decide (s.cur ≤ s.buf.length) && decide (s.buf.length ≤ s.cap) && decide (s.pktLen ≤ pktSize)

/-- The reachable-state invariants of R29, with the premise on the capacity (R262) and the defined state codes
(R87). -/
structure Invariants (s : State) : Prop where
  /-- R262: the capacity premise -/
  cap_ok : 22 ≤ s.cap
  /-- INV1 and the range of `pkt_len` -/
  storage : Memory.wf s = true
  /-- R80, R87: the state code is one of the five defined ones -/
  code : s.st.toNat ≤ 4
  /-- INV2 -/
  scanStart : s.st = stScanStart → s.cur = 0 ∧ s.pktLen = 0
  /-- INV3 -/
  scanPayload : s.st = stScanPayload → 1 ≤ s.pktLen ∧ s.pktLen = s.cur ∧ s.cur ≤ 21
  /-- INV4 -/
  complete : s.st = stValidating ∨ s.st = stEmitting → s.pktLen = 22 ∧ s.cur = 22 ∧ 22 ≤ s.buf.length
  /-- INV5: the candidate is the head of the buffer -/
  candidate : s.st = stScanPayload ∨ s.st = stValidating ∨ s.st = stEmitting → s.pkt = s.buf.take s.pktLen
  /-- INV3 and R71: a candidate begins with the marker -/
  marker : s.st = stScanPayload ∨ s.st = stValidating ∨ s.st = stEmitting → s.pkt[0]? = some startMarker
  /-- INV6 -/
  emitting : s.st = stEmitting → (packetOf s.pkt).map validPacket = some true
  /-- INV7 and INV8: the two kinds of state between calls -/
  idle : s.cont = false →
    (s.st = stResetting ∧ s.buf = [] ∧ s.cur = 0) ∨
      ((s.st = stScanStart ∨ s.st = stScanPayload) ∧ s.cur = s.buf.length)

/-- The operations the host may issue while no PARSE is running: its command port and its own source and sink
(R215, R262; the frame-buffer, packet and validator operations are internal). -/
def Instr.hostPort : Instr → Bool
  | .reset | .parse | .sinkSize | .hostFeed _ => true
  | _ => false

/-- The operations the host may issue at any time, also during a PARSE (R215). -/
def Instr.hostAnytime : Instr → Bool
  | .sinkSize | .hostFeed _ => true
  | _ => false

/-- An act that keeps the host's duties (R215, R216, R268). -/
def Event.dutiful : Event → Bool
  | .call w =>
    match decode (.op5 w) with
    | .ok i => Instr.hostPort i
    | .error _ => false
  | .inside w =>
    match decode (.op5 w) with
    | .ok i => Instr.hostAnytime i
    | .error _ => false
  | .enter => true
  | .pass => true
  | .nested _ _ => false

/-- Every act still to come keeps the host's duties. -/
def State.dutiful (s : State) : Bool := s.script.all Event.dutiful

/-- The bytes that an act gives to the source: HOST_FEED's (R214). -/
def Event.fed : Event → List Byte
  | .call w | .inside w =>
    match decode (.op5 w) with
    | .ok (.hostFeed bytes) => bytes
    | _ => []
  | .enter | .pass | .nested _ _ => []

/-- An act that issues RESET where it completes (R260). -/
def Event.resets : Event → Bool
  | .call w | .inside w => decide (decode (.op5 w) = .ok .reset)
  | .enter | .pass | .nested _ _ => false

/-- The bytes that an instruction adds at the tail of the buffer, if it completes: BUF_PUSH's byte where there is
room (R100), and the bytes that a refill moves (R106, R140); no other instruction adds any (R52). -/
def bytesAdded (s : State) : Instr → List Byte
  | .bufPush b => if s.buf.length < s.cap then [b] else []
  | .bufRefill | .parse => s.src.take (s.cap - s.buf.length)
  | .reset | .srcIsEmpty | .srcNextByte | .sinkAdd _ _ | .sinkSize | .hostFeed _ => []
  | .bufPopFront | .bufPeekAt _ | .bufNext | .bufLen | .bufIsScanExhausted => []
  | .pktClear | .pktAppend _ | .pktIndexByte | .pktSpeed | .decAngle _ | .decDist _ | .decMeasurements => []
  | .valIndex | .valChecksum | .valVerdict => []
  | .fsmResetting | .fsmStartPause | .fsmStartHit | .fsmStartDrop | .fsmPayloadPause | .fsmPayloadTake => []
  | .fsmValidateFail | .fsmValidatePass | .fsmEmit => []

/-- The measurements of a byte stream, and the bytes left over as a partial candidate: `M(S)` of R144, written
over the whole stream at once, with no buffer, no cursor and no state machine. At each `0xFA` the 22-byte window
that starts there is tried: a valid one delivers its four measurements and is skipped whole (`skip` counts the
bytes still to skip); an invalid one loses its first byte; one that the stream is too short for is left over. -/
def streamScan : Nat → List Byte → List Meas × List Byte
  | _, [] => ([], [])
  | skip + 1, _ :: rest => streamScan skip rest
  | 0, b :: rest =>
    if b = startMarker then
      match packetOf ((b :: rest).take 22) with
      | none => ([], b :: rest)
      | some p =>
        if validPacket p then
          (measurementsOf p ++ (streamScan 21 rest).1, (streamScan 21 rest).2)
        else streamScan 0 rest
    else streamScan 0 rest

/-- `M(S)` (R144). -/
def measurementsIn (stream : List Byte) : List Meas := (streamScan 0 stream).1

/-- What of a stream is left over: empty, or a partial candidate (R142, R269). -/
def leftover (stream : List Byte) : List Byte := (streamScan 0 stream).2

/-- The 22-byte window of a stream at an offset passes the validator (R148). -/
def windowValid (stream : List Byte) (i : Nat) : Bool :=
  match packetOf ((stream.drop i).take 22) with
  | some p => validPacket p
  | none => false

/-- `n` micro-steps in a row (R130), with no act of the host between them. -/
def microSteps : Nat → State → Out
  | 0, s => .next s
  | n + 1, s =>
    match microStep s with
    | .next t => microSteps n t
    | .fault f => .fault f
    | .refused r => .refused r

/-- What an outcome's next state is, if it has one. -/
def nextOf : Out → Option State
  | .next s => some s
  | .fault _ => none
  | .refused _ => none

/-- The fault an outcome is, if it is one. -/
def faultOf : Out → Option Fault
  | .next _ => none
  | .fault f => some f
  | .refused _ => none

/-- The refusal an outcome is, if it is one. -/
def refusedOf : Out → Option Refusal
  | .next _ => none
  | .fault _ => none
  | .refused r => some r

end Sys2Proof.Machine
end

