-- ==== Sys2Proof/Certificates/Slice0/Obligations.lean ====
section
/-! DEFINITION. The statements for the provers, from the numbered rules of spec/. Every hypothesis is on the
state and the operands alone; each has its witness in Sys2Proof/Tests/Slice0.lean. The value an operation hands back
is the spec's ("returns"); that the field `ret` records it, and records none where nothing is returned, is the model's
choice (log entry 3), and so is the field `script` (log entry 4): no cited rule speaks of these two fields. -/

open Sys2Proof Sys2Proof.Machine

/-! ## Encoding and decoding -/

/-- Every instruction's encoding is well formed and decodes to the instruction, with every operand at every
value (derived: R79, R82). -/
def Obligations.DecodeEncodeAgree : Prop :=
  ∀ i : Instr, decode (encode i) = .ok i ∧ (encode i).wf = true

/-- An operation word is read in one way only: what the decoder reads encodes back to the same word (derived:
R79). -/
def Obligations.OperationWordsHaveOneReading : Prop :=
  ∀ (w : OpWord) (i : Instr), decode (.op5 w) = .ok i → encode i = .op5 w

/-- R88: exactly the eight unassigned identifiers name no operation, and a host that issues one, at once or while no
PARSE runs, is refused with R_UNASSIGNED_OP. That an operation word decodes exactly where it is well formed is the
model's (log entry 10), as are the acts of the host (log entry 4); derived. -/
def Obligations.UnassignedIdentifiersRefused : Prop :=
  (∀ w : OpWord, decode (.op5 w) = .error (.unassignedOp w.op) ↔
    w.op.toNat ∈ [0x06, 0x07, 0x0F, 0x17, 0x1B, 0x1C, 0x1D, 0x1E]) ∧
  (∀ w : OpWord, (∃ i, decode (.op5 w) = .ok i) ↔ w.wf = true) ∧
  (∀ (s : State) (w : OpWord) (rest : List Event), 22 ≤ s.cap →
    s.script = .inside w :: rest ∨ (s.script = .call w :: rest ∧ s.cont = false) →
    w.op.toNat ∈ [0x06, 0x07, 0x0F, 0x17, 0x1B, 0x1C, 0x1D, 0x1E] →
    step s = .refused (.unassignedOp w.op))

/-- R82: the step decode of every one of the 8192 selectors is the table's column "condition in words": exactly
one step for each selector with a state code of at most 4, none for the reserved codes. -/
def Obligations.StepDecodeIsTheTable : Prop :=
  ∀ sel : BitVec 13, decodeSel sel =
    if selSt sel = 0#3 then some .resetting
    else if selSt sel = 1#3 then
      if selExh sel = true then some .startPause
      else if selByte sel = 0xFA#8 then some .startHit
      else some .startDrop
    else if selSt sel = 2#3 then
      if selExh sel = true then some .payloadPause else some .payloadTake
    else if selSt sel = 3#3 then
      if selVerdict sel = true then some .validatePass else some .validateFail
    else if selSt sel = 4#3 then some .emit
    else none

/-- R81: the four parts of the selector, in every state with the cursor within the buffer and, in VALIDATING, a
complete packet. -/
def Obligations.SelectorIsFormedFromTheState : Prop :=
  ∀ s : State, s.cur ≤ s.buf.length → (s.st = stValidating → s.pktLen = 22) →
    ∃ sel, s.selector = .ok sel ∧ selSt sel = s.st ∧ (selExh sel = true ↔ s.cur = s.buf.length) ∧
      selByte sel = s.buf.getD s.cur 0#8 ∧
      (selVerdict sel = true ↔ s.st = stValidating ∧ (packetOf s.pkt).map validPacket = some true)

/-- Words written out from the encodings of R79 and R82 decode to the instructions they stand for (derived). -/
def Obligations.SampleWordsDecode : Prop :=
  decode (.op5 ⟨0b00000#5, []⟩) = .ok .reset ∧
  decode (.op5 ⟨0b00001#5, []⟩) = .ok .parse ∧
  decode (.op5 ⟨0b00100#5, [6, 16383]⟩) = .ok (.sinkAdd 6#16 16383#16) ∧
  decode (.op5 ⟨0b01000#5, [0xA0]⟩) = .ok (.bufPush 0xA0#8) ∧
  decode (.op5 ⟨0b10100#5, [2]⟩) = .ok (.decAngle 2) ∧
  decode (.op5 ⟨0b11010#5, []⟩) = .ok .valVerdict ∧
  decode (.op5 ⟨0b11111#5, [0x11, 0x22]⟩) = .ok (.hostFeed [0x11#8, 0x22#8]) ∧
  decode (.sel13 0b0111110100001#13) = .ok .fsmStartHit ∧
  decode (.sel13 0b0111110110001#13) = .ok .fsmStartDrop ∧
  decode (.sel13 0b1000000000011#13) = .ok .fsmValidatePass ∧
  decode (.sel13 0b0000000000101#13) = .error (.badState 5#3)

/-! ## The step -/

/-- A step runs the operation the host issues: at once for `inside`, and for `call` while no PARSE runs
(derived: R57, R79, R215). -/
def Obligations.StepRunsTheIssuedOperation : Prop :=
  (∀ (s : State) (w : OpWord) (rest : List Event) (i : Instr), 22 ≤ s.cap → s.script = .inside w :: rest →
    decode (.op5 w) = .ok i → step s = exec i { s with script := rest }) ∧
  (∀ (s : State) (w : OpWord) (rest : List Event) (i : Instr), 22 ≤ s.cap → s.script = .call w :: rest →
    s.cont = false → decode (.op5 w) = .ok i → step s = exec i { s with script := rest })

/-- R130: while `cont = 1` a step is the micro-step the selector names; when it clears `cont` the call returns
its count. While `cont = 0` and the host does nothing, no micro-step runs and nothing changes. The host's acts are
the model's own list (log entry 4). -/
def Obligations.StepRunsTheSelectedMicroStep : Prop :=
  (∀ (s : State) (sel : BitVec 13) (i : Instr), 22 ≤ s.cap → s.script = [] → s.cont = true →
    s.selector = .ok sel → decode (.sel13 sel) = .ok i →
    (∀ t, exec i s = .next t → t.cont = true → step s = .next t) ∧
    (∀ t, exec i s = .next t → t.cont = false → step s = .next { t with ret := .nat t.emitted }) ∧
    (∀ f, exec i s = .fault f → step s = .fault f)) ∧
  (∀ s : State, 22 ≤ s.cap → s.script = [] → s.cont = false → step s = .next s)

/-- R87, R262: in a reserved state code the micro-step is refused with R_BAD_STATE (with the cursor outside the
buffer, which no run reaches, forming the selector faults first: log entry 6); an instance with BUF_CAP below 22 is
refused with R_CONFIG, whatever it is asked (log entry 9). -/
def Obligations.ReservedStateAndSmallCapacityRefused : Prop :=
  (∀ s : State, 22 ≤ s.cap → s.script = [] → s.cont = true → 5 ≤ s.st.toNat →
    (s.cur ≤ s.buf.length → step s = .refused (.badState s.st)) ∧
    (s.buf.length < s.cur → step s = .fault (.peekRange .stepSelect s.cur))) ∧
  (∀ s : State, s.cap < 22 → step s = .refused .config)

/-! ## Reset -/

/-- R260: RESET makes the block a freshly built parser and touches neither source nor sink; during a PARSE it is
refused. -/
def Obligations.ResetRebuildsTheBlock : Prop :=
  decode (.op5 ⟨0x00#5, []⟩) = .ok .reset ∧
  (∀ s : State, s.cont = false →
    exec .reset s = .next { s with st := 0#3, cont := false, buf := [], cur := 0, pkt := [], emitted := 0, ret := .none }) ∧
  (∀ s : State, s.cont = true → exec .reset s = .refused .reentrant)

/-- R30: the reset values of the block's registers, which RESET gives every register, whatever the state; source and
sink are as before. -/
def Obligations.ResetStateValues : Prop :=
  State.reset.st = 0#3 ∧ State.reset.cont = false ∧ State.reset.buf = [] ∧ State.reset.cur = 0 ∧
  State.reset.pktLen = 0 ∧ (∀ op i, State.reset.pktRead op i = .error (.pktUnwritten op i)) ∧
  State.reset.emitted = 0 ∧
  (∀ s t : State, exec .reset s = .next t →
    t = { State.reset with cap := s.cap, src := s.src, sink := s.sink, script := s.script })

/-! ## Frame buffer -/

/-- R100: BUF_PUSH appends at the tail where there is room and says so; a full buffer is left as it is. -/
def Obligations.PushAppendsAtTheTail : Prop :=
  ∀ (s : State) (b : Byte), decode (.op5 ⟨0x08#5, [b.toNat]⟩) = .ok (.bufPush b) ∧
    (s.buf.length < s.cap → exec (.bufPush b) s = .next { s with buf := s.buf ++ [b], ret := .bool true }) ∧
    (s.cap ≤ s.buf.length → exec (.bufPush b) s = .next { s with ret := .bool false })

/-- R101: BUF_POP_FRONT removes and returns the oldest byte, the cursor moves down with the head and saturates at
0; an empty buffer faults. -/
def Obligations.PopRemovesTheOldestByte : Prop :=
  decode (.op5 ⟨0x09#5, []⟩) = .ok .bufPopFront ∧
  (∀ (s : State) (v : Byte) (rest : List Byte), s.buf = v :: rest → 0 < s.cur →
    exec .bufPopFront s = .next { s with buf := rest, cur := s.cur - 1, ret := .byte v }) ∧
  (∀ (s : State) (v : Byte) (rest : List Byte), s.buf = v :: rest → s.cur = 0 →
    exec .bufPopFront s = .next { s with buf := rest, ret := .byte v }) ∧
  (∀ s : State, s.buf = [] → exec .bufPopFront s = .fault (.popEmpty .bufPopFront))

/-- R102, R104, R105: BUF_PEEK_AT reads the byte at an offset, BUF_LEN the length and BUF_IS_SCAN_EXHAUSTED whether
the cursor has reached it; none changes anything; a peek beyond the end faults. -/
def Obligations.BufferReadsChangeNothing : Prop :=
  (∀ (s : State) (o : Nat), decode (.op5 ⟨0x0A#5, [o]⟩) = .ok (.bufPeekAt o) ∧
    (∀ h : o < s.buf.length, exec (.bufPeekAt o) s = .next { s with ret := .byte s.buf[o] }) ∧
    (s.buf.length ≤ o → exec (.bufPeekAt o) s = .fault (.peekRange .bufPeekAt o))) ∧
  decode (.op5 ⟨0x0C#5, []⟩) = .ok .bufLen ∧ decode (.op5 ⟨0x0D#5, []⟩) = .ok .bufIsScanExhausted ∧
  ∀ s : State, exec .bufLen s = .next { s with ret := .nat s.buf.length } ∧
    (s.cur = s.buf.length → exec .bufIsScanExhausted s = .next { s with ret := .bool true }) ∧
    (s.cur ≠ s.buf.length → exec .bufIsScanExhausted s = .next { s with ret := .bool false })

/-- R103: BUF_NEXT reads the byte at the cursor, advances the cursor and leaves the byte in the buffer; an
exhausted scan faults. -/
def Obligations.NextReadsAndAdvances : Prop :=
  ∀ s : State, decode (.op5 ⟨0x0B#5, []⟩) = .ok .bufNext ∧
    (∀ h : s.cur < s.buf.length,
      exec .bufNext s = .next { s with cur := s.cur + 1, ret := .byte s.buf[s.cur] }) ∧
    (s.buf.length ≤ s.cur → exec .bufNext s = .fault (.peekRange .bufNext s.cur))

/-- R106: BUF_REFILL moves exactly as many bytes as there is room for and the source holds, in source order, to
the tail; the cursor and everything else stay, and it never faults. -/
def Obligations.RefillMovesWhatFits : Prop :=
  decode (.op5 ⟨0x0E#5, []⟩) = .ok .bufRefill ∧
  ∀ s : State, ∃ moved left, s.src = moved ++ left ∧
    moved.length = min (s.cap - s.buf.length) s.src.length ∧
    exec .bufRefill s = .next { s with buf := s.buf ++ moved, src := left, ret := .none }

/-- R52 (derived): whatever instruction runs, the buffer after it is the buffer before with the instruction's own
bytes at the tail (BUF_PUSH's where there is room, a refill's for BUF_REFILL and PARSE, none for any other) and then
some bytes taken from the head: no byte in it is ever rewritten or reordered. -/
def Obligations.BufferIsFirstInFirstOut : Prop :=
  ∀ (i : Instr) (s t : State), exec i s = .next t →
    ∃ k, k ≤ (s.buf ++ bytesAdded s i).length ∧ t.buf = (s.buf ++ bytesAdded s i).drop k

/-! ## Packet register and field decoding -/

/-- R170, R171: PKT_CLEAR empties the packet, PKT_APPEND writes slot `pkt_len` and no other, and faults on a full
packet; a slot below `pkt_len` reads as the byte written there, a slot at or above it faults (R53). -/
def Obligations.PacketFillsInOrder : Prop :=
  decode (.op5 ⟨0x10#5, []⟩) = .ok .pktClear ∧
  (∀ s : State, exec .pktClear s = .next { s with pkt := [], ret := .none }) ∧
  (∀ (s : State) (b : Byte), decode (.op5 ⟨0x11#5, [b.toNat]⟩) = .ok (.pktAppend b) ∧
    (s.pktLen < 22 → exec (.pktAppend b) s = .next { s with pkt := s.pkt ++ [b], ret := .none }) ∧
    (s.pktLen = 22 → exec (.pktAppend b) s = .fault (.pktOverflow b))) ∧
  ∀ (s : State) (op : Site) (i : Nat),
    (∀ h : i < s.pkt.length, s.pktRead op i = .ok s.pkt[i]) ∧
    (s.pktLen ≤ i → s.pktRead op i = .error (.pktUnwritten op i))

/-- R172, R173: the index byte as stored, and the little-endian speed field, of a complete packet; nothing else
changes, and an incomplete packet faults. That the slot recorded is `pkt_len` is the model's choice (log entry 8);
derived. -/
def Obligations.IndexAndSpeedFieldsRead : Prop :=
  decode (.op5 ⟨0x12#5, []⟩) = .ok .pktIndexByte ∧ decode (.op5 ⟨0x13#5, []⟩) = .ok .pktSpeed ∧
  (∀ (s : State) (h : s.pkt.length = 22),
    exec .pktIndexByte s = .next { s with ret := .byte s.pkt[1] } ∧
    exec .pktSpeed s = .next { s with ret := .u16 (s.pkt[3] ++ s.pkt[2]) }) ∧
  (∀ s : State, s.pktLen < 22 →
    exec .pktIndexByte s = .fault (.pktUnwritten .pktIndexByte s.pktLen) ∧
    exec .pktSpeed s = .fault (.pktUnwritten .pktSpeed s.pktLen))

/-- R174: the angular index of slot `k` of a complete packet with a valid index byte is `4 (index - 0xA0) + k`, at
most 359; an index out of range or an incomplete packet faults; nothing else changes. That the slot recorded is
`pkt_len` is the model's choice (log entry 8); derived. -/
def Obligations.AngleIsNormalised : Prop :=
  ∀ (s : State) (k : Fin 4), decode (.op5 ⟨0x14#5, [k.val]⟩) = .ok (.decAngle k) ∧
    (∀ h : s.pkt.length = 22, 0xA0#8 ≤ s.pkt[1] → s.pkt[1] ≤ 0xF9#8 →
      ∃ v : U16, v.toNat = 4 * (s.pkt[1].toNat - 160) + k.val ∧ v.toNat ≤ 359 ∧
        exec (.decAngle k) s = .next { s with ret := .u16 v }) ∧
    (∀ h : s.pkt.length = 22, ¬(0xA0#8 ≤ s.pkt[1] ∧ s.pkt[1] ≤ 0xF9#8) →
      exec (.decAngle k) s = .fault (.decodeInvalid s.pkt[1])) ∧
    (s.pktLen < 22 → exec (.decAngle k) s = .fault (.pktUnwritten .decAngle s.pktLen))

/-- R175: the distance of slot `k` of a complete packet is its little-endian word without bits 15 and 14; nothing
else changes, and an incomplete packet faults. That the slot recorded is `pkt_len` is the model's choice (log entry 8);
derived. -/
def Obligations.DistanceIsMasked : Prop :=
  ∀ (s : State) (k : Fin 4), decode (.op5 ⟨0x15#5, [k.val]⟩) = .ok (.decDist k) ∧
    (∀ h : s.pkt.length = 22,
      ∃ v : U16, v.toNat = (s.pkt[4 + 4 * k.val].toNat + 256 * s.pkt[5 + 4 * k.val].toNat) % 16384 ∧
        exec (.decDist k) s = .next { s with ret := .u16 v }) ∧
    (s.pktLen < 22 → exec (.decDist k) s = .fault (.pktUnwritten .decDist s.pktLen))

/-- R176: the four measurements of a complete packet with a valid index byte, in slot order, each the angle and
the distance of its slot; nothing else changes. That an incomplete packet records DEC_ANGLE and `pkt_len` is the model's
choice (log entry 8); derived. -/
def Obligations.MeasurementsInSlotOrder : Prop :=
  decode (.op5 ⟨0x16#5, []⟩) = .ok .decMeasurements ∧
  (∀ (s : State) (h : s.pkt.length = 22), 0xA0#8 ≤ s.pkt[1] → s.pkt[1] ≤ 0xF9#8 →
    ∃ ms : List Meas, exec .decMeasurements s = .next { s with ret := .pairs ms } ∧ ms.length = 4 ∧
      ∀ k : Fin 4, ∃ a d : U16, ms[k.val]? = some (a, d) ∧
        exec (.decAngle k) s = .next { s with ret := .u16 a } ∧
        exec (.decDist k) s = .next { s with ret := .u16 d }) ∧
  (∀ (s : State) (h : s.pkt.length = 22), ¬(0xA0#8 ≤ s.pkt[1] ∧ s.pkt[1] ≤ 0xF9#8) →
    exec .decMeasurements s = .fault (.decodeInvalid s.pkt[1])) ∧
  (∀ s : State, s.pktLen < 22 → exec .decMeasurements s = .fault (.pktUnwritten .decAngle s.pktLen))

/-- R177, R195: the field accessors and the validator change no state: a next state differs from the state before
in the value handed back only. -/
def Obligations.AccessorsChangeNothing : Prop :=
  ∀ (i : Instr) (s t : State),
    i = .pktIndexByte ∨ i = .pktSpeed ∨ (∃ k, i = .decAngle k) ∨ (∃ k, i = .decDist k) ∨ i = .decMeasurements ∨
      i = .valIndex ∨ i = .valChecksum ∨ i = .valVerdict →
    exec i s = .next t → { t with ret := s.ret } = s

/-! ## Validator -/

/-- R190: VAL_INDEX says whether the index byte of a complete packet is in [0xA0, 0xF9]. That an incomplete packet
records the slot `pkt_len` is the model's choice (log entry 8); derived. -/
def Obligations.IndexRangeChecked : Prop :=
  decode (.op5 ⟨0x18#5, []⟩) = .ok .valIndex ∧
  (∀ (s : State) (h : s.pkt.length = 22),
    exec .valIndex s =
      .next { s with ret := .bool (decide (160 ≤ s.pkt[1].toNat) && decide (s.pkt[1].toNat ≤ 249)) }) ∧
  (∀ s : State, s.pktLen < 22 → exec .valIndex s = .fault (.pktUnwritten .valIndex s.pktLen))

/-- R191, R193: the checksum of a complete packet is the once-folded sum of the ten little-endian words, word `i`
weighted by `2^(9-i)`, in 15 bits; the sum needs at most 26 bits, so the accumulator never wraps. That an incomplete
packet records the slot `pkt_len` is the model's choice (log entry 8); derived. -/
def Obligations.ChecksumIsTheFoldedSum : Prop :=
  decode (.op5 ⟨0x19#5, []⟩) = .ok .valChecksum ∧
  (∀ (s : State) (h : s.pkt.length = 22),
    ∃ (acc : Nat) (v : U16),
      acc = ((List.finRange 10).map fun i : Fin 10 =>
        (s.pkt[2 * i.val].toNat + 256 * s.pkt[2 * i.val + 1].toNat) * 2 ^ (9 - i.val)).sum ∧
      acc ≤ 0x03FEFC01 ∧ acc % 2 ^ 15 + acc / 2 ^ 15 ≤ 0x87FC ∧
      v.toNat = (acc % 2 ^ 15 + acc / 2 ^ 15) % 2 ^ 15 ∧
      exec .valChecksum s = .next { s with ret := .u16 v }) ∧
  (∀ s : State, s.pktLen < 22 → exec .valChecksum s = .fault (.pktUnwritten .valChecksum s.pktLen))

/-- R192: the verdict of a complete packet is the index check and the equality, on all 16 bits, of the computed
and the stored checksum. That an incomplete packet records the operation VAL_VERDICT, not VAL_INDEX, and the slot
`pkt_len` is the model's choice (log entry 8); derived. -/
def Obligations.VerdictIsBothChecks : Prop :=
  decode (.op5 ⟨0x1A#5, []⟩) = .ok .valVerdict ∧
  (∀ (s : State) (h : s.pkt.length = 22), ∃ (ok : Bool) (c : U16),
    exec .valIndex s = .next { s with ret := .bool ok } ∧
    exec .valChecksum s = .next { s with ret := .u16 c } ∧
    exec .valVerdict s = .next { s with ret := .bool (ok && c == s.pkt[21] ++ s.pkt[20]) }) ∧
  (∀ s : State, s.pktLen < 22 → exec .valVerdict s = .fault (.pktUnwritten .valVerdict s.pktLen))

/-- R86: a stored checksum with bit 15 set never matches, so the candidate fails. -/
def Obligations.StoredTopBitNeverMatches : Prop :=
  ∀ (s : State) (h : s.pkt.length = 22), 0x80#8 ≤ s.pkt[21] →
    exec .valVerdict s = .next { s with ret := .bool false }

/-! ## Interfaces -/

/-- R210 to R213: the source's two calls, reading an empty source faults; the sink takes every measurement at its
end, and its size is how many it took. -/
def Obligations.SourceAndSinkCalls : Prop :=
  decode (.op5 ⟨0x02#5, []⟩) = .ok .srcIsEmpty ∧ decode (.op5 ⟨0x03#5, []⟩) = .ok .srcNextByte ∧
  (∀ s : State, s.src = [] → exec .srcIsEmpty s = .next { s with ret := .bool true } ∧
    exec .srcNextByte s = .fault .srcEmptyRead) ∧
  (∀ (s : State) (v : Byte) (rest : List Byte), s.src = v :: rest →
    exec .srcIsEmpty s = .next { s with ret := .bool false } ∧
    exec .srcNextByte s = .next { s with src := rest, ret := .byte v }) ∧
  decode (.op5 ⟨0x05#5, []⟩) = .ok .sinkSize ∧
  ∀ (s : State) (a d : U16), decode (.op5 ⟨0x04#5, [a.toNat, d.toNat]⟩) = .ok (.sinkAdd a d) ∧
    exec (.sinkAdd a d) s = .next { s with sink := s.sink ++ [(a, d)], ret := .none } ∧
    exec .sinkSize s = .next { s with ret := .nat s.sink.length }

/-- R214: HOST_FEED appends the bytes to the source, in every state, and changes nothing of the block. -/
def Obligations.FeedAppendsToTheSource : Prop :=
  ∀ (s : State) (bytes : List Byte),
    decode (.op5 ⟨0x1F#5, bytes.map BitVec.toNat⟩) = .ok (.hostFeed bytes) ∧
    exec (.hostFeed bytes) s = .next { s with src := s.src ++ bytes, ret := .none }

/-- R65 (derived, with R215): bytes fed between two micro-steps of a running call are not seen by it: the
micro-step does the same with and without them. -/
def Obligations.FeedDuringACallIsUnseen : Prop :=
  ∀ (s : State) (bytes : List Byte),
    (∀ t, microStep s = .next t → microStep (s.srcFeed bytes) = .next (t.srcFeed bytes)) ∧
    (∀ f, microStep s = .fault f → microStep (s.srcFeed bytes) = .fault f) ∧
    (∀ r, microStep s = .refused r → microStep (s.srcFeed bytes) = .refused r)

/-! ## The micro-steps -/

/-- R131: FSM_RESETTING clears the packet and the cursor, keeps the buffer, and moves to SCAN_START; it is the
step of state code 0. -/
def Obligations.ResettingClearsPacketAndCursor : Prop :=
  (∀ s : State, exec .fsmResetting s = .next { s with pkt := [], cur := 0, st := 1#3 }) ∧
  (∀ s : State, s.cur ≤ s.buf.length → s.st = 0#3 → microStep s = exec .fsmResetting s)

/-- R132: FSM_START_DROP discards exactly the head byte, the cursor and everything else as before; it is the step
of SCAN_START on a byte other than 0xFA. On an exhausted scan, where R82 never selects it, it faults by R103: that it
has this meaning there is the model's choice (log entry 17); derived. -/
def Obligations.StartDropDiscardsOneByte : Prop :=
  (∀ s : State, s.cur < s.buf.length → exec .fsmStartDrop s = .next { s with buf := s.buf.drop 1 }) ∧
  (∀ (s : State) (h : s.cur < s.buf.length), s.st = 1#3 → s.buf[s.cur] ≠ 0xFA#8 →
    microStep s = exec .fsmStartDrop s) ∧
  (∀ s : State, s.buf.length ≤ s.cur → exec .fsmStartDrop s = .fault (.peekRange .bufNext s.cur))

/-- R133, R135: the two pause steps clear `cont` and change nothing else; they are the steps of the two scanning
states on an exhausted scan. -/
def Obligations.PausesOnlyClearCont : Prop :=
  (∀ s : State, exec .fsmStartPause s = .next { s with cont := false } ∧
    exec .fsmPayloadPause s = .next { s with cont := false }) ∧
  (∀ s : State, s.cur = s.buf.length →
    (s.st = 1#3 → microStep s = exec .fsmStartPause s) ∧ (s.st = 2#3 → microStep s = exec .fsmPayloadPause s))

/-- R134: FSM_START_HIT takes the marker into the packet, leaves it in the buffer, advances the cursor and moves
to SCAN_PAYLOAD; it is the step of SCAN_START on 0xFA. -/
def Obligations.StartHitTakesTheMarker : Prop :=
  (∀ (s : State) (h : s.cur < s.buf.length), s.pktLen < 22 →
    exec .fsmStartHit s = .next { s with cur := s.cur + 1, pkt := s.pkt ++ [s.buf[s.cur]], st := 2#3 }) ∧
  (∀ (s : State) (h : s.cur < s.buf.length), s.st = 1#3 → s.buf[s.cur] = 0xFA#8 →
    microStep s = exec .fsmStartHit s)

/-- R136: FSM_PAYLOAD_TAKE takes the byte at the cursor into the next slot; the byte that completes the packet
moves the state to VALIDATING in the same step; it is the step of SCAN_PAYLOAD on an unexhausted scan. -/
def Obligations.PayloadTakeFillsTheNextSlot : Prop :=
  (∀ (s : State) (h : s.cur < s.buf.length), s.pktLen < 21 →
    exec .fsmPayloadTake s = .next { s with cur := s.cur + 1, pkt := s.pkt ++ [s.buf[s.cur]] }) ∧
  (∀ (s : State) (h : s.cur < s.buf.length), s.pktLen = 21 →
    exec .fsmPayloadTake s = .next { s with cur := s.cur + 1, pkt := s.pkt ++ [s.buf[s.cur]], st := 3#3 }) ∧
  (∀ s : State, s.cur < s.buf.length → s.st = 2#3 → microStep s = exec .fsmPayloadTake s)

/-- R137: FSM_VALIDATE_FAIL pops exactly the head byte and moves to RESETTING; it is the step of VALIDATING on an
invalid candidate, whichever check failed. -/
def Obligations.ValidateFailPopsOneByte : Prop :=
  (∀ s : State, 0 < s.buf.length →
    exec .fsmValidateFail s = .next { s with buf := s.buf.drop 1, cur := s.cur - 1, st := 0#3 }) ∧
  (∀ s : State, s.cur ≤ s.buf.length → s.st = 3#3 → (packetOf s.pkt).map validPacket = some false →
    microStep s = exec .fsmValidateFail s)

/-- R138: FSM_VALIDATE_PASS changes the state register only; it is the step of VALIDATING on a valid candidate. -/
def Obligations.ValidatePassOnlyMovesOn : Prop :=
  (∀ s : State, exec .fsmValidatePass s = .next { s with st := 4#3 }) ∧
  (∀ s : State, s.cur ≤ s.buf.length → s.st = 3#3 → (packetOf s.pkt).map validPacket = some true →
    microStep s = exec .fsmValidatePass s)

/-- R139: FSM_EMIT, with a complete packet of valid index and at least 22 bytes buffered, delivers the four
measurements that DEC_MEASUREMENTS returns, in that order, counts four, pops 22 bytes and moves to RESETTING; it is
the step of EMITTING. -/
def Obligations.EmitDeliversFourMeasurements : Prop :=
  (∀ (s : State) (h : s.pkt.length = 22), 0xA0#8 ≤ s.pkt[1] → s.pkt[1] ≤ 0xF9#8 → 22 ≤ s.buf.length →
    ∃ ms : List Meas, ms.length = 4 ∧ exec .decMeasurements s = .next { s with ret := .pairs ms } ∧
      exec .fsmEmit s = .next { s with sink := s.sink ++ ms, emitted := s.emitted + 4, buf := s.buf.drop 22,
                                       cur := s.cur - 22, st := 0#3 }) ∧
  (∀ s : State, s.cur ≤ s.buf.length → s.st = 4#3 → microStep s = exec .fsmEmit s)

/-- Where the micro-steps fault, which is where no run from reset takes them (derived: R101, R103, R139, R171, R174).
Which operation and slot a fault records, that a fault leaves no partial effect, and that a micro-step has a meaning
outside its row of R82, are the model's (log entries 8, 16, 17). -/
def Obligations.MicroStepFaults : Prop :=
  (∀ s : State, s.buf.length ≤ s.cur →
    exec .fsmStartHit s = .fault (.peekRange .bufNext s.cur) ∧
    exec .fsmPayloadTake s = .fault (.peekRange .bufNext s.cur)) ∧
  (∀ (s : State) (h : s.cur < s.buf.length), 22 ≤ s.pktLen →
    exec .fsmStartHit s = .fault (.pktOverflow s.buf[s.cur]) ∧
    exec .fsmPayloadTake s = .fault (.pktOverflow s.buf[s.cur])) ∧
  (∀ s : State, s.buf = [] → exec .fsmValidateFail s = .fault (.popEmpty .bufPopFront)) ∧
  (∀ s : State, s.pktLen < 22 → exec .fsmEmit s = .fault (.pktUnwritten .decAngle s.pktLen)) ∧
  (∀ (s : State) (h : s.pkt.length = 22), ¬(0xA0#8 ≤ s.pkt[1] ∧ s.pkt[1] ≤ 0xF9#8) →
    exec .fsmEmit s = .fault (.decodeInvalid s.pkt[1])) ∧
  (∀ (s : State) (h : s.pkt.length = 22), 0xA0#8 ≤ s.pkt[1] → s.pkt[1] ≤ 0xF9#8 → s.buf.length < 22 →
    exec .fsmEmit s = .fault (.popEmpty .bufPopFront))

/-- R230 to R235 (derived): the condition of a micro-step and the step taken: FRAMING is a dropped byte, STARVATION
a pause, FIELD and CHECKSUM a failed candidate, FIELD where the index check fails whatever the checksum; the other
micro-steps raise none, and where no micro-step is taken (a cursor beyond the buffer, a reserved state code, VALIDATING
without a complete packet) there is none. That a condition is a function of the state is the model's (log entry 22). -/
def Obligations.ConditionsAreTheStepsTaken : Prop :=
  (∀ (s : State) (h : s.cur < s.buf.length), s.st = 1#3 →
    s.condition = if s.buf[s.cur] = 0xFA#8 then none else some .framing) ∧
  (∀ s : State, s.cur = s.buf.length → (s.st = 1#3 ∨ s.st = 2#3) → s.condition = some .starvation) ∧
  (∀ (s : State) (p : Packet), s.cur ≤ s.buf.length → s.st = 3#3 → s.pkt = p.toList →
    s.condition = if validPacket p then none
      else if 0xA0#8 ≤ p[1] ∧ p[1] ≤ 0xF9#8 then some .checksum else some .field) ∧
  (∀ s : State, s.cur ≤ s.buf.length → (s.st = 0#3 ∨ s.st = 4#3 ∨ (s.st = 2#3 ∧ s.cur < s.buf.length)) →
    s.condition = none) ∧
  (∀ s : State, (s.buf.length < s.cur ∨ 5 ≤ s.st.toNat ∨ (s.st = 3#3 ∧ s.pktLen ≠ 22)) → s.condition = none) ∧
  [Condition.framing, .field, .checksum, .starvation].map Condition.code = [1, 2, 3, 4]

/-! ## Whole-machine rules, over all instructions -/

/-- R24: no instruction but PARSE, the two pause steps and RESET writes `cont`; PARSE and RESET complete only with
`cont = 0`, and leave it 0. -/
def Obligations.OnlyPauseParseAndResetWriteCont : Prop :=
  ∀ (i : Instr) (s t : State), exec i s = .next t →
    (i = .parse ∨ i = .reset → s.cont = false ∧ t.cont = false) ∧
    (i = .fsmStartPause ∨ i = .fsmPayloadPause → t.cont = false) ∧
    (i ≠ .parse → i ≠ .reset → i ≠ .fsmStartPause → i ≠ .fsmPayloadPause → t.cont = s.cont)

/-- R26: no instruction writes the capacity; nor does one touch the host's pending acts (log entry 4). -/
def Obligations.CapacityIsFixed : Prop :=
  (∀ (i : Instr) (s t : State), exec i s = .next t → t.cap = s.cap ∧ t.script = s.script) ∧
  (∀ s t : State, step s = .next t → t.cap = s.cap)

/-- R58, R212, R236 (derived): a delivered measurement is never taken back, and only SINK_ADD, FSM_EMIT and PARSE
deliver any; only HOST_FEED, SRC_NEXT_BYTE, BUF_REFILL and PARSE touch the source, and the last three only take
bytes from its head. -/
def Obligations.SourceAndSinkMoveOneWay : Prop :=
  ∀ (i : Instr) (s t : State), exec i s = .next t →
    (∃ ms, t.sink = s.sink ++ ms) ∧
    ((∀ a d, i ≠ .sinkAdd a d) → i ≠ .fsmEmit → i ≠ .parse → t.sink = s.sink) ∧
    ((∀ bytes, i ≠ .hostFeed bytes) → ∃ k, t.src = s.src.drop k) ∧
    ((∀ bytes, i ≠ .hostFeed bytes) → i ≠ .srcNextByte → i ≠ .bufRefill → i ≠ .parse → t.src = s.src)

/-- The canonical form of the storage is kept by every instruction, in every state: the buffer stays within its
capacity, the cursor within the buffer, the packet within 22 slots (R20, R29 INV1; derived). -/
def Obligations.StorageFormIsKept : Prop :=
  (∀ (i : Instr) (s t : State), Memory.wf s = true → exec i s = .next t → Memory.wf t = true) ∧
  (∀ s t : State, Memory.wf s = true → step s = .next t → Memory.wf t = true)

/-- R29, R237: from every state that meets the invariants, with a host that keeps its duties, the machine takes a
step: no fault and no refusal; and the next state meets the invariants again (derived). -/
def Obligations.InvariantsAreKept : Prop :=
  ∀ s : State, Invariants s → s.dutiful = true → ∃ t, step s = .next t ∧ Invariants t ∧ t.dutiful = true

/-- The reset state, with any capacity of at least 22, meets the invariants, and so does the instance of the
model's configuration (R29, R30; derived). -/
def Obligations.InvariantsHoldAtReset : Prop :=
  (∀ cap, 22 ≤ cap → Invariants (State.built cap)) ∧ Invariants State.reset ∧ State.reset.dutiful = true

/-! ## PARSE -/

/-- R216: a PARSE or RESET issued while a PARSE is running is refused with R_REENTRANT: between two of its
micro-steps, and from inside a source or sink call that it makes: SRC_IS_EMPTY where the refill has room, SRC_NEXT_BYTE
where the source also holds a byte (R106), SINK_ADD where a packet is emitted (R139), in a PARSE taken step by step and
in one taken whole. Where the running PARSE does not make that call, it goes on and the handler's act stays pending.
The host's acts are the model's (log entry 4), and so are the act `nested`, its waiting, and the reading that a PARSE is
running where `cont` is 1 and in its refill (log entry 14); derived. -/
def Obligations.ReentrantCallsRefused : Prop :=
  (∀ s : State, s.cont = true → exec .parse s = .refused .reentrant ∧ exec .reset s = .refused .reentrant) ∧
  (∀ (s : State) (rest : List Event), 22 ≤ s.cap → s.cont = true →
    s.script = .inside ⟨0x01#5, []⟩ :: rest ∨ s.script = .inside ⟨0x00#5, []⟩ :: rest →
    step s = .refused .reentrant) ∧
  (∀ (s : State) (p : Port) (c : Command) (rest : List Event), 22 ≤ s.cap → s.cont = false →
    s.script = .nested p c :: .enter :: rest ∨ s.script = .nested p c :: .call ⟨0x01#5, []⟩ :: rest →
    s.buf.length < s.cap → p = .srcIsEmpty ∨ (p = .srcNextByte ∧ s.src ≠ []) → step s = .refused .reentrant) ∧
  (∀ (s : State) (c : Command) (h : s.pkt.length = 22), 22 ≤ s.cap → s.cont = true → s.script = [.nested .sinkAdd c] →
    s.st = 4#3 → s.cur ≤ s.buf.length → 0xA0#8 ≤ s.pkt[1] → s.pkt[1] ≤ 0xF9#8 → step s = .refused .reentrant) ∧
  (∀ (s t : State) (c : Command) (rest : List Event), 22 ≤ s.cap → s.cont = false →
    s.script = .nested .sinkAdd c :: .call ⟨0x01#5, []⟩ :: rest → exec .parse s = .next t → t.sink ≠ s.sink →
    step s = .refused .reentrant) ∧
  (∀ (s t : State) (p : Port) (c : Command), s.cont = true → s.script = [.nested p c] → p ≠ .sinkAdd ∨ s.st ≠ 4#3 →
    step { s with script := [] } = .next t → step s = .next { t with script := s.script }) ∧
  (∀ (s t : State) (p : Port) (c : Command) (rest : List Event), 22 ≤ s.cap → s.cont = false →
    p = .sinkAdd ∨ s.cap ≤ s.buf.length ∨ (p = .srcNextByte ∧ s.src = []) →
    (s.script = .nested p c :: .enter :: rest → exec .bufRefill s = .next t →
      step s = .next { t with ret := s.ret, emitted := 0, cont := true, script := .nested p c :: rest }) ∧
    (s.script = .nested p c :: .call ⟨0x01#5, []⟩ :: rest → exec .parse s = .next t → p ≠ .sinkAdd ∨ t.sink = s.sink →
      step s = .next { t with script := .nested p c :: rest }))

/-- R143: a call whose buffer holds `L` bytes after its refill ends after at most `24 L + 2` micro-steps, has then
counted at most `4 (L / 22)`, and leaves `cont = 0`, INV7 and the other invariants. -/
def Obligations.CallIsBounded : Prop :=
  ∀ s : State, Invariants s → s.cont = true → s.emitted = 0 →
    ∃ n t, n ≤ 24 * s.buf.length + 2 ∧ microSteps n s = .next t ∧ t.cont = false ∧ Invariants t ∧
      (t.st = 1#3 ∨ t.st = 2#3) ∧ t.cur = t.buf.length ∧ t.emitted ≤ 4 * (s.buf.length / 22)

/-- R140: PARSE is one refill, `emitted` to 0, `cont` to 1, and micro-steps as long as `cont` is 1; then it returns
`emitted`. It completes with a state exactly where that loop, with no bound on its turns, ends in it. A re-entrant
call is refused. -/
def Obligations.ParseIsRefillThenMicroSteps : Prop :=
  decode (.op5 ⟨0x01#5, []⟩) = .ok .parse ∧
  (∀ s : State, s.cont = true → exec .parse s = .refused .reentrant) ∧
  ∀ s t : State, s.cont = false → ∃ r u : State, exec .bufRefill s = .next r ∧
    u = { r with ret := s.ret, emitted := 0, cont := true } ∧
    (exec .parse s = .next t ↔ ∃ n v, (∀ m, m < n → ∃ w, microSteps m u = .next w ∧ w.cont = true) ∧
      microSteps n u = .next v ∧ v.cont = false ∧ t = { v with ret := .nat v.emitted })

/-- R141: whatever state PARSE is called in, if it returns, it returns the number of measurements it delivered to
the sink, a multiple of 4. -/
def Obligations.CountIsWhatWasDelivered : Prop :=
  ∀ s t : State, exec .parse s = .next t →
    ∃ ms : List Meas, t.sink = s.sink ++ ms ∧ t.ret = .nat ms.length ∧ ms.length % 4 = 0

/-- PARSE computes the stream function, the model's own writing of M(S) (log entry 23): from every state between
calls that meets the invariants, it completes; it delivers exactly the measurements of the buffered and refilled bytes,
keeps exactly their leftover, returns the count, and leaves the next state between calls (derived: R106, R130 to R142,
R144). -/
def Obligations.ParseFollowsTheStream : Prop :=
  ∀ s : State, Invariants s → s.cont = false → ∃ t moved left, s.src = moved ++ left ∧
    moved.length = min (s.cap - s.buf.length) s.src.length ∧ exec .parse s = .next t ∧
    t.sink = s.sink ++ measurementsIn (s.buf ++ moved) ∧ t.buf = leftover (s.buf ++ moved) ∧ t.src = left ∧
    t.ret = .nat (measurementsIn (s.buf ++ moved)).length ∧ t.cont = false ∧ t.cap = s.cap ∧
    t.script = s.script ∧ Invariants t ∧ t.pkt = t.buf ∧ t.cur = t.buf.length ∧
    t.emitted = (measurementsIn (s.buf ++ moved)).length ∧ (t.buf = [] → t.st = 1#3) ∧ (t.buf ≠ [] → t.st = 2#3)

/-- R144 (derived; M(S), host programs and the host's acts are the model's: log entries 4, 23). On a freshly built
instance, with no RESET after the start, the measurements delivered are a prefix of `M(S)`, `S` being all the bytes fed,
however they are split, whenever PARSE is called and whatever the capacity; and they are all of `M(S)` once no PARSE
runs and the source is empty. First for host programs, statement by statement; then for runs of the machine under any
list of dutiful acts, in which bytes may be fed between two micro-steps of a running PARSE. -/
def Obligations.StreamDeterminism : Prop :=
  (∀ (cap : Nat) (p : List Stmt) (r : HostRun), 22 ≤ cap → Stmt.reset ∉ p.tail →
    (HostRun.start cap).program p = some r →
    (∃ rest, measurementsIn (fedBytes p) = r.state.sink ++ rest) ∧
    (r.state.src = [] → r.state.sink = measurementsIn (fedBytes p))) ∧
  (∀ (cap : Nat) (acts : List Event) (n : Nat) (t : State), 22 ≤ cap →
    (∀ e ∈ acts, e.dutiful = true ∧ e.resets = false) →
    Sys2Proof.core.run n { State.built cap with script := acts } = .next t →
    (∃ rest, measurementsIn (acts.flatMap Event.fed) = t.sink ++ rest) ∧
    (t.script = [] → t.cont = false → t.src = [] → t.sink = measurementsIn (acts.flatMap Event.fed)))

/-- The model's stream function (log entry 23; the machine does not use it) may be run in pieces: the leftover of one
piece, followed by the next piece, gives what the pieces give together. With ParseFollowsTheStream this is the source's
idempotence of resumption (derived: R142, R144). -/
def Obligations.StreamMayBeSplit : Prop :=
  ∀ xs ys : List Byte,
    measurementsIn (xs ++ ys) = measurementsIn xs ++ measurementsIn (leftover xs ++ ys) ∧
    leftover (xs ++ ys) = leftover (leftover xs ++ ys)

/-- R145: PARSE with an empty source and an empty buffer returns 0 and delivers nothing; from RESETTING its
micro-steps are FSM_RESETTING then FSM_START_PAUSE, from SCAN_START FSM_START_PAUSE alone. -/
def Obligations.EmptyInputReturnsZero : Prop :=
  ∀ s : State, s.cont = false → s.src = [] → s.buf = [] → s.cur = 0 →
    (s.st = 0#3 →
      exec .parse s = .next { s with st := 1#3, pkt := [], emitted := 0, cont := false, ret := .nat 0 } ∧
      ∃ t u : State, microStep { s with emitted := 0, cont := true } = .next t ∧
        exec .fsmResetting { s with emitted := 0, cont := true } = .next t ∧ t.cont = true ∧
        microStep t = .next u ∧ exec .fsmStartPause t = .next u ∧ u.cont = false) ∧
    (s.st = 1#3 →
      exec .parse s = .next { s with emitted := 0, cont := false, ret := .nat 0 } ∧
      ∃ t : State, microStep { s with emitted := 0, cont := true } = .next t ∧
        exec .fsmStartPause { s with emitted := 0, cont := true } = .next t ∧ t.cont = false)

/-- R146: from SCAN_START or RESETTING with an empty buffer, a source that holds exactly one valid packet makes one
PARSE return 4 and deliver its four measurements, in slot order, with the angles and the 14-bit distances of the
packet's bytes. -/
def Obligations.OnePacketDeliversFour : Prop :=
  ∀ (s : State) (p : Packet), 22 ≤ s.cap → s.cont = false → s.buf = [] → s.cur = 0 →
    (s.st = 0#3 ∨ (s.st = 1#3 ∧ s.pkt = [])) → s.src = p.toList → p[0] = 0xFA#8 → validPacket p = true →
    ∃ t ms, exec .parse s = .next t ∧ t.ret = .nat 4 ∧ t.sink = s.sink ++ ms ∧ ms.length = 4 ∧
      ∀ k : Fin 4, ∃ a d : U16, ms[k.val]? = some (a, d) ∧
        a.toNat = 4 * (p[1].toNat - 160) + k.val ∧
        d.toNat = (p[4 + 4 * k.val].toNat + 256 * p[5 + 4 * k.val].toNat) % 16384

/-- R147 (derived), of the model's stream function (log entry 23): the measurements of valid packets back to back are
the packets' measurements, in packet order. -/
def Obligations.ConcatenatedPacketsAllDelivered : Prop :=
  ∀ ps : List Packet, (∀ p ∈ ps, p[0] = 0xFA#8 ∧ validPacket p = true) →
    measurementsIn (ps.flatMap fun p => p.toList) = ps.flatMap measurementsOf ∧
    (measurementsIn (ps.flatMap fun p => p.toList)).length = 4 * ps.length

/-- R148, R149 with their precondition, of the model's stream function (log entry 23): bytes before a valid packet,
garbage or failed candidates, change none of its measurements, provided that no window that starts at an 0xFA before
its marker and overlaps it is valid; and bytes after it change nothing of what was delivered (derived). -/
def Obligations.ResyncUnderThePrecondition : Prop :=
  ∀ (before after : List Byte) (p : Packet), p[0] = 0xFA#8 → validPacket p = true →
    (∀ i, i < before.length → before.length < i + 22 → before[i]? = some 0xFA#8 →
      windowValid (before ++ p.toList) i = false) →
    measurementsIn (before ++ p.toList ++ after) =
      measurementsIn before ++ measurementsOf p ++ measurementsIn after

/-- `90_conflicts.md` C4, of the model's stream function (log entry 23): without the precondition of R148 the resync
property is false: some garbage makes a valid packet's measurements be lost (derived). -/
def Obligations.ResyncFailsWithoutThePrecondition : Prop :=
  ∃ (before : List Byte) (p : Packet), p[0] = 0xFA#8 ∧ validPacket p = true ∧
    ¬∃ ms ms', measurementsIn (before ++ p.toList) = ms ++ measurementsOf p ++ ms'

/-- R266: with a capacity below 22, a full buffer inside a candidate stalls for ever: every PARSE returns 0,
consumes nothing and leaves the same state (its meaning, which a conforming step refuses to run: R262). -/
def Obligations.CapacityHazard : Prop :=
  ∀ s : State, s.cap < 22 → s.st = 2#3 → s.cont = false → s.buf.length = s.cap → s.cur = s.cap →
    exec .parse s = .next { s with emitted := 0, cont := false, ret := .nat 0 }

/-- A PARSE whose micro-steps are steps of the machine ends in the very state that the atomic PARSE ends in, after
at most `24 L + 3` steps (derived: R57, R130, R140, `92_eei_decisions.md` D1). -/
def Obligations.StepwiseParseIsParse : Prop :=
  ∀ s t : State, 22 ≤ s.cap → s.cont = false → s.script = [] → exec .parse s = .next t →
    ∃ n, n ≤ 24 * min (s.buf.length + s.src.length) (max s.cap s.buf.length) + 3 ∧
      Sys2Proof.core.run n { s with script := [.enter] } = .next t
end

