-- ==== Sys2Proof/Laws/Decode.lean ====
section
/-! SUPPORT. The operand readers on encoded operands, and a selector from its parts (R79, R81). -/

namespace Sys2Proof

@[simp] theorem argsNone_nil (i : Instr) : argsNone i [] = some i := rfl

@[simp] theorem argsByte_toNat (f : Byte → Instr) (b : Byte) : argsByte f [b.toNat] = some (f b) := by
  have h : b.toNat < 256 := b.isLt
  simp [argsByte, h]

@[simp] theorem argsNatural_singleton (f : Nat → Instr) (n : Nat) : argsNatural f [n] = some (f n) := rfl

@[simp] theorem argsSlot_val (f : Fin 4 → Instr) (k : Fin 4) : argsSlot f [k.val] = some (f k) := by
  simp [argsSlot, k.isLt]

@[simp] theorem argsU16Pair_toNat (f : U16 → U16 → Instr) (a d : U16) :
    argsU16Pair f [a.toNat, d.toNat] = some (f a d) := by
  have ha : a.toNat < 65536 := a.isLt
  have hd : d.toNat < 65536 := d.isLt
  simp [argsU16Pair, ha, hd]

/-- Encoded bytes are below 256. -/
theorem all_toNat_lt (bytes : List Byte) : (bytes.map BitVec.toNat).all (fun b => decide (b < 256)) = true := by
  simp only [List.all_map, List.all_eq_true, Function.comp_apply, decide_eq_true_eq]
  exact fun b _ => b.isLt

@[simp] theorem argsBytes_toNat (f : List Byte → Instr) (bytes : List Byte) :
    argsBytes f (bytes.map BitVec.toNat) = some (f bytes) := by
  rw [argsBytes, if_pos (all_toNat_lt bytes)]
  simp [Function.comp_def]

/-- An operation word decodes to what its row's reader makes of its arguments. -/
theorem decodeOp_of_reader {w : OpWord} {rd : List Nat → Option Instr} {i : Instr} (h : opReader w.op = some rd)
    (hi : rd w.args = some i) : decodeOp w = .ok i := by
  simp [decodeOp, h, hi]

/-- What the decoder reads, the row's reader read. -/
theorem decodeOp_eq_ok {w : OpWord} {i : Instr} (h : decodeOp w = .ok i) :
    ∃ rd, opReader w.op = some rd ∧ rd w.args = some i := by
  unfold decodeOp at h
  split at h
  · cases h
  · rename_i rd hr
    split at h
    · rename_i j hj
      cases h
      exact ⟨rd, hr, hj⟩
    · cases h

namespace Machine

/-- The bits of a selector (R81). -/
theorem getLsbD_selectorWord (v : Bool) (b : Byte) (e : Bool) (st : BitVec 3) (i : Nat) :
    (selectorWord v b e st).getLsbD i =
      if i < 3 then st.getLsbD i
      else if i - 3 < 1 then (BitVec.ofBool e).getLsbD (i - 3)
      else if i - 3 - 1 < 8 then b.getLsbD (i - 3 - 1)
      else (BitVec.ofBool v).getLsbD (i - 3 - 1 - 8) := by
  change (BitVec.ofBool v ++ b ++ BitVec.ofBool e ++ st : BitVec (1 + 8 + 1 + 3)).getLsbD i = _
  rw [BitVec.getLsbD_append, BitVec.getLsbD_append, BitVec.getLsbD_append]

/-- A selector is made of its four parts (R81). -/
theorem selectorWord_parts (sel : BitVec 13) :
    selectorWord (selVerdict sel) (selByte sel) (selExh sel) (selSt sel) = sel := by
  have h : ∀ i : Fin 13,
      (selectorWord (selVerdict sel) (selByte sel) (selExh sel) (selSt sel)).getLsbD i = sel.getLsbD i := by
    intro i
    rw [getLsbD_selectorWord]
    fin_cases i <;> simp [selVerdict, selByte, selExh, selSt]
  exact BitVec.eq_of_getLsbD_eq fun i hi => h ⟨i, hi⟩

@[simp] theorem selSt_selectorWord (v : Bool) (b : Byte) (e : Bool) (st : BitVec 3) :
    selSt (selectorWord v b e st) = st := by
  refine BitVec.eq_of_getLsbD_eq fun i hi => ?_
  simp [selSt, getLsbD_selectorWord, hi]

@[simp] theorem selExh_selectorWord (v : Bool) (b : Byte) (e : Bool) (st : BitVec 3) :
    selExh (selectorWord v b e st) = e := by
  rw [selExh, getLsbD_selectorWord]
  simp

@[simp] theorem selByte_selectorWord (v : Bool) (b : Byte) (e : Bool) (st : BitVec 3) :
    selByte (selectorWord v b e st) = b := by
  refine BitVec.eq_of_getLsbD_eq fun i hi => ?_
  have h1 : ¬4 + i < 3 := by omega
  have h2 : ¬4 + i - 3 < 1 := by omega
  have h3 : 4 + i - 3 - 1 = i := by omega
  simp [selByte, getLsbD_selectorWord, hi, h1, h2, h3]

@[simp] theorem selVerdict_selectorWord (v : Bool) (b : Byte) (e : Bool) (st : BitVec 3) :
    selVerdict (selectorWord v b e st) = v := by
  rw [selVerdict, getLsbD_selectorWord]
  simp

end Machine

end Sys2Proof
end

