-- ==== Sys2Proof/Laws/State.lean ====
section
/-! SUPPORT. One lemma per field per named update of State, true by rfl, so that no later proof unfolds a record
update. -/

namespace Sys2Proof.Machine

variable (s : State)

/-! ### the value handed back -/

@[simp] theorem State.returns_st (v : Ret) : (s.returns v).st = s.st := rfl
@[simp] theorem State.returns_cont (v : Ret) : (s.returns v).cont = s.cont := rfl
@[simp] theorem State.returns_buf (v : Ret) : (s.returns v).buf = s.buf := rfl
@[simp] theorem State.returns_cur (v : Ret) : (s.returns v).cur = s.cur := rfl
@[simp] theorem State.returns_pkt (v : Ret) : (s.returns v).pkt = s.pkt := rfl
@[simp] theorem State.returns_emitted (v : Ret) : (s.returns v).emitted = s.emitted := rfl
@[simp] theorem State.returns_cap (v : Ret) : (s.returns v).cap = s.cap := rfl
@[simp] theorem State.returns_src (v : Ret) : (s.returns v).src = s.src := rfl
@[simp] theorem State.returns_sink (v : Ret) : (s.returns v).sink = s.sink := rfl
@[simp] theorem State.returns_ret (v : Ret) : (s.returns v).ret = v := rfl
@[simp] theorem State.returns_script (v : Ret) : (s.returns v).script = s.script := rfl
@[simp] theorem State.returns_pktLen (v : Ret) : (s.returns v).pktLen = s.pktLen := rfl

/-! ### setting `cont` -/

@[simp] theorem State.setCont_st : (s.setCont).st = s.st := rfl
@[simp] theorem State.setCont_cont : (s.setCont).cont = true := rfl
@[simp] theorem State.setCont_buf : (s.setCont).buf = s.buf := rfl
@[simp] theorem State.setCont_cur : (s.setCont).cur = s.cur := rfl
@[simp] theorem State.setCont_pkt : (s.setCont).pkt = s.pkt := rfl
@[simp] theorem State.setCont_emitted : (s.setCont).emitted = s.emitted := rfl
@[simp] theorem State.setCont_cap : (s.setCont).cap = s.cap := rfl
@[simp] theorem State.setCont_src : (s.setCont).src = s.src := rfl
@[simp] theorem State.setCont_sink : (s.setCont).sink = s.sink := rfl
@[simp] theorem State.setCont_ret : (s.setCont).ret = s.ret := rfl
@[simp] theorem State.setCont_script : (s.setCont).script = s.script := rfl
@[simp] theorem State.setCont_pktLen : (s.setCont).pktLen = s.pktLen := rfl

/-! ### clearing `cont` -/

@[simp] theorem State.clearCont_st : (s.clearCont).st = s.st := rfl
@[simp] theorem State.clearCont_cont : (s.clearCont).cont = false := rfl
@[simp] theorem State.clearCont_buf : (s.clearCont).buf = s.buf := rfl
@[simp] theorem State.clearCont_cur : (s.clearCont).cur = s.cur := rfl
@[simp] theorem State.clearCont_pkt : (s.clearCont).pkt = s.pkt := rfl
@[simp] theorem State.clearCont_emitted : (s.clearCont).emitted = s.emitted := rfl
@[simp] theorem State.clearCont_cap : (s.clearCont).cap = s.cap := rfl
@[simp] theorem State.clearCont_src : (s.clearCont).src = s.src := rfl
@[simp] theorem State.clearCont_sink : (s.clearCont).sink = s.sink := rfl
@[simp] theorem State.clearCont_ret : (s.clearCont).ret = s.ret := rfl
@[simp] theorem State.clearCont_script : (s.clearCont).script = s.script := rfl
@[simp] theorem State.clearCont_pktLen : (s.clearCont).pktLen = s.pktLen := rfl

/-! ### writing the state register -/

@[simp] theorem State.goto_st (c : BitVec 3) : (s.goto c).st = c := rfl
@[simp] theorem State.goto_cont (c : BitVec 3) : (s.goto c).cont = s.cont := rfl
@[simp] theorem State.goto_buf (c : BitVec 3) : (s.goto c).buf = s.buf := rfl
@[simp] theorem State.goto_cur (c : BitVec 3) : (s.goto c).cur = s.cur := rfl
@[simp] theorem State.goto_pkt (c : BitVec 3) : (s.goto c).pkt = s.pkt := rfl
@[simp] theorem State.goto_emitted (c : BitVec 3) : (s.goto c).emitted = s.emitted := rfl
@[simp] theorem State.goto_cap (c : BitVec 3) : (s.goto c).cap = s.cap := rfl
@[simp] theorem State.goto_src (c : BitVec 3) : (s.goto c).src = s.src := rfl
@[simp] theorem State.goto_sink (c : BitVec 3) : (s.goto c).sink = s.sink := rfl
@[simp] theorem State.goto_ret (c : BitVec 3) : (s.goto c).ret = s.ret := rfl
@[simp] theorem State.goto_script (c : BitVec 3) : (s.goto c).script = s.script := rfl
@[simp] theorem State.goto_pktLen (c : BitVec 3) : (s.goto c).pktLen = s.pktLen := rfl

/-! ### PKT_CLEAR -/

@[simp] theorem State.pktClear_st : (s.pktClear).st = s.st := rfl
@[simp] theorem State.pktClear_cont : (s.pktClear).cont = s.cont := rfl
@[simp] theorem State.pktClear_buf : (s.pktClear).buf = s.buf := rfl
@[simp] theorem State.pktClear_cur : (s.pktClear).cur = s.cur := rfl
@[simp] theorem State.pktClear_pkt : (s.pktClear).pkt = [] := rfl
@[simp] theorem State.pktClear_emitted : (s.pktClear).emitted = s.emitted := rfl
@[simp] theorem State.pktClear_cap : (s.pktClear).cap = s.cap := rfl
@[simp] theorem State.pktClear_src : (s.pktClear).src = s.src := rfl
@[simp] theorem State.pktClear_sink : (s.pktClear).sink = s.sink := rfl
@[simp] theorem State.pktClear_ret : (s.pktClear).ret = s.ret := rfl
@[simp] theorem State.pktClear_script : (s.pktClear).script = s.script := rfl
@[simp] theorem State.pktClear_pktLen : (s.pktClear).pktLen = 0 := rfl

/-! ### HOST_FEED -/

@[simp] theorem State.srcFeed_st (bytes : List Byte) : (s.srcFeed bytes).st = s.st := rfl
@[simp] theorem State.srcFeed_cont (bytes : List Byte) : (s.srcFeed bytes).cont = s.cont := rfl
@[simp] theorem State.srcFeed_buf (bytes : List Byte) : (s.srcFeed bytes).buf = s.buf := rfl
@[simp] theorem State.srcFeed_cur (bytes : List Byte) : (s.srcFeed bytes).cur = s.cur := rfl
@[simp] theorem State.srcFeed_pkt (bytes : List Byte) : (s.srcFeed bytes).pkt = s.pkt := rfl
@[simp] theorem State.srcFeed_emitted (bytes : List Byte) : (s.srcFeed bytes).emitted = s.emitted := rfl
@[simp] theorem State.srcFeed_cap (bytes : List Byte) : (s.srcFeed bytes).cap = s.cap := rfl
@[simp] theorem State.srcFeed_src (bytes : List Byte) : (s.srcFeed bytes).src = s.src ++ bytes := rfl
@[simp] theorem State.srcFeed_sink (bytes : List Byte) : (s.srcFeed bytes).sink = s.sink := rfl
@[simp] theorem State.srcFeed_ret (bytes : List Byte) : (s.srcFeed bytes).ret = s.ret := rfl
@[simp] theorem State.srcFeed_script (bytes : List Byte) : (s.srcFeed bytes).script = s.script := rfl
@[simp] theorem State.srcFeed_pktLen (bytes : List Byte) : (s.srcFeed bytes).pktLen = s.pktLen := rfl

/-! ### SINK_ADD -/

@[simp] theorem State.sinkAdd_st (a d : U16) : (s.sinkAdd a d).st = s.st := rfl
@[simp] theorem State.sinkAdd_cont (a d : U16) : (s.sinkAdd a d).cont = s.cont := rfl
@[simp] theorem State.sinkAdd_buf (a d : U16) : (s.sinkAdd a d).buf = s.buf := rfl
@[simp] theorem State.sinkAdd_cur (a d : U16) : (s.sinkAdd a d).cur = s.cur := rfl
@[simp] theorem State.sinkAdd_pkt (a d : U16) : (s.sinkAdd a d).pkt = s.pkt := rfl
@[simp] theorem State.sinkAdd_emitted (a d : U16) : (s.sinkAdd a d).emitted = s.emitted := rfl
@[simp] theorem State.sinkAdd_cap (a d : U16) : (s.sinkAdd a d).cap = s.cap := rfl
@[simp] theorem State.sinkAdd_src (a d : U16) : (s.sinkAdd a d).src = s.src := rfl
@[simp] theorem State.sinkAdd_sink (a d : U16) : (s.sinkAdd a d).sink = s.sink ++ [(a, d)] := rfl
@[simp] theorem State.sinkAdd_ret (a d : U16) : (s.sinkAdd a d).ret = s.ret := rfl
@[simp] theorem State.sinkAdd_script (a d : U16) : (s.sinkAdd a d).script = s.script := rfl
@[simp] theorem State.sinkAdd_pktLen (a d : U16) : (s.sinkAdd a d).pktLen = s.pktLen := rfl

/-! ### RESET -/

@[simp] theorem State.resetBlock_st : (s.resetBlock).st = stResetting := rfl
@[simp] theorem State.resetBlock_cont : (s.resetBlock).cont = false := rfl
@[simp] theorem State.resetBlock_buf : (s.resetBlock).buf = [] := rfl
@[simp] theorem State.resetBlock_cur : (s.resetBlock).cur = 0 := rfl
@[simp] theorem State.resetBlock_pkt : (s.resetBlock).pkt = [] := rfl
@[simp] theorem State.resetBlock_emitted : (s.resetBlock).emitted = 0 := rfl
@[simp] theorem State.resetBlock_cap : (s.resetBlock).cap = s.cap := rfl
@[simp] theorem State.resetBlock_src : (s.resetBlock).src = s.src := rfl
@[simp] theorem State.resetBlock_sink : (s.resetBlock).sink = s.sink := rfl
@[simp] theorem State.resetBlock_ret : (s.resetBlock).ret = s.ret := rfl
@[simp] theorem State.resetBlock_script : (s.resetBlock).script = s.script := rfl
@[simp] theorem State.resetBlock_pktLen : (s.resetBlock).pktLen = 0 := rfl

end Sys2Proof.Machine
end

