-- ==== Sys2Proof/Laws/Ops.lean ====
section
/-! SUPPORT. What each shared operation can do, once: later proofs cite these lemmas and unfold no operation. -/

namespace Sys2Proof.Machine

@[simp] theorem Res.andThen_ok {α β : Type} (a : α) (s : State) (k : α → State → Res β) :
    (Res.ok a s).andThen k = k a s := rfl

@[simp] theorem Res.andThen_fault {α β : Type} (f : Fault) (k : α → State → Res β) :
    (Res.fault f : Res α).andThen k = .fault f := rfl

@[simp] theorem Res.micro_ok (s : State) : (Res.ok () s).micro = .next s := rfl

@[simp] theorem Res.micro_fault (f : Fault) : (Res.fault f : Res Unit).micro = .fault f := rfl

@[simp] theorem Res.answer_ok {α : Type} (a : α) (s : State) (f : α → Ret) :
    (Res.ok a s).answer f = .next (s.returns (f a)) := rfl

@[simp] theorem Res.answer_fault {α : Type} (e : Fault) (f : α → Ret) :
    (Res.fault e : Res α).answer f = .fault e := rfl

@[simp] theorem State.answers_ok {α : Type} (s : State) (a : α) (f : α → Ret) :
    s.answers (.ok a) f = .next (s.returns (f a)) := rfl

@[simp] theorem State.answers_error {α : Type} (s : State) (e : Fault) (f : α → Ret) :
    s.answers (.error e) f = .fault e := rfl

/-- A chain of operations that ends well began well. -/
theorem Res.andThen_eq_ok {α β : Type} {r : Res α} {k : α → State → Res β} {b : β} {t : State}
    (h : r.andThen k = .ok b t) : ∃ a u, r = .ok a u ∧ k a u = .ok b t := by
  cases r with
  | ok a u => exact ⟨a, u, rfl, h⟩
  | fault f => cases h

/-- A micro-step's outcome is a next state exactly where its operations end well. -/
theorem Res.micro_eq_next {r : Res Unit} {t : State} (h : r.micro = .next t) : r = .ok () t := by
  cases r with
  | ok a u => simpa [Res.micro] using h
  | fault f => cases h

theorem Res.answer_eq_next {α : Type} {r : Res α} {f : α → Ret} {t : State} (h : r.answer f = .next t) :
    ∃ a u, r = .ok a u ∧ t = u.returns (f a) := by
  cases r with
  | ok a u => exact ⟨a, u, rfl, by simpa [eq_comm] using h⟩
  | fault e => cases h

theorem State.answers_eq_next {α : Type} {s t : State} {r : Except Fault α} {f : α → Ret}
    (h : s.answers r f = .next t) : ∃ a, r = .ok a ∧ t = s.returns (f a) := by
  cases r with
  | ok a => exact ⟨a, rfl, by simpa [eq_comm] using h⟩
  | error e => cases h

/-! ## Frame buffer -/

theorem State.bufRead_of_lt {s : State} {i : Nat} (op : Site) (h : i < s.buf.length) :
    s.bufRead op i = .ok s.buf[i] := by
  simp [State.bufRead, h]

theorem State.bufRead_of_le {s : State} {i : Nat} (op : Site) (h : s.buf.length ≤ i) :
    s.bufRead op i = .error (.peekRange op i) := by
  simp [State.bufRead, h]

theorem State.bufPush_of_lt {s : State} (b : Byte) (h : s.buf.length < s.cap) :
    s.bufPush b = (true, { s with buf := s.buf ++ [b] }) := by
  simp [State.bufPush, State.hasRoom, h]

theorem State.bufPush_of_le {s : State} (b : Byte) (h : s.cap ≤ s.buf.length) : s.bufPush b = (false, s) := by
  simp [State.bufPush, State.hasRoom, h]

theorem State.bufPopFront_of_cons {s : State} {v : Byte} {rest : List Byte} (h : s.buf = v :: rest) :
    s.bufPopFront = .ok v { s with buf := rest, cur := s.cur - 1 } := by
  unfold State.bufPopFront
  split
  · rename_i h'; simp [h'] at h
  · rename_i v' rest' h'
    obtain ⟨rfl, rfl⟩ := List.cons.inj (h'.symm.trans h)
    congr 2
    split <;> omega

theorem State.bufPopFront_of_nil {s : State} (h : s.buf = []) :
    s.bufPopFront = .fault (.popEmpty .bufPopFront) := by
  unfold State.bufPopFront
  split
  · rfl
  · rename_i h'; simp [h'] at h

/-- `n` pops of a buffer that holds `n` bytes. -/
theorem State.bufPopMany_of_le (n : Nat) (s : State) (h : n ≤ s.buf.length) :
    s.bufPopMany n = .ok () { s with buf := s.buf.drop n, cur := s.cur - n } := by
  induction n generalizing s with
  | zero => rfl
  | succ n ih =>
    obtain ⟨v, rest, hb⟩ : ∃ v rest, s.buf = v :: rest := by
      cases hs : s.buf with
      | nil => simp [hs] at h
      | cons v rest => exact ⟨v, rest, rfl⟩
    rw [State.bufPopMany, State.bufPopFront_of_cons hb, Res.andThen_ok, ih _ (by simp [hb] at h; exact h)]
    simp [hb, Nat.sub_sub, Nat.add_comm 1 n]

/-- Pops that run dry fault. -/
theorem State.bufPopMany_of_lt (n : Nat) (s : State) (h : s.buf.length < n) :
    s.bufPopMany n = .fault (.popEmpty .bufPopFront) := by
  induction n generalizing s with
  | zero => omega
  | succ n ih =>
    cases hb : s.buf with
    | nil => rw [State.bufPopMany, State.bufPopFront_of_nil hb, Res.andThen_fault]
    | cons v rest =>
      rw [State.bufPopMany, State.bufPopFront_of_cons hb, Res.andThen_ok, ih]
      simp [hb] at h
      exact h

theorem State.bufNext_of_lt {s : State} (h : s.cur < s.buf.length) :
    s.bufNext = .ok s.buf[s.cur] { s with cur := s.cur + 1 } := by
  simp [State.bufNext, State.bufRead_of_lt _ h]

theorem State.bufNext_of_le {s : State} (h : s.buf.length ≤ s.cur) :
    s.bufNext = .fault (.peekRange .bufNext s.cur) := by
  simp [State.bufNext, State.bufRead_of_le _ h]

/-! ## Source and sink -/

theorem State.srcNextByte_of_cons {s : State} {v : Byte} {rest : List Byte} (h : s.src = v :: rest) :
    s.srcNextByte = .ok v { s with src := rest } := by
  unfold State.srcNextByte
  split
  · rename_i h'; simp [h'] at h
  · rename_i v' rest' h'
    obtain ⟨rfl, rfl⟩ := List.cons.inj (h'.symm.trans h)
    rfl

theorem State.srcNextByte_of_nil {s : State} (h : s.src = []) : s.srcNextByte = .fault .srcEmptyRead := by
  unfold State.srcNextByte
  split
  · rfl
  · rename_i h'; simp [h'] at h

theorem State.sinkAddAll_eq (s : State) (ms : List Meas) : s.sinkAddAll ms = { s with sink := s.sink ++ ms } := by
  induction ms generalizing s with
  | nil => simp [State.sinkAddAll]
  | cons m ms ih => simp [State.sinkAddAll, ih, State.sinkAdd]

theorem State.refillLoop_eq (n : Nat) (s : State) (h : n ≤ s.cap - s.buf.length) :
    s.refillLoop n = .ok () { s with buf := s.buf ++ s.src.take n, src := s.src.drop n } := by
  induction n generalizing s with
  | zero => simp [State.refillLoop]
  | succ n ih =>
    cases hs : s.src with
    | nil =>
      have : s = { s with src := [] } := by rw [← hs]
      simp [State.refillLoop, State.srcIsEmpty, hs, ← this]
    | cons v rest =>
      have hp : ({ s with src := rest } : State).bufPush v = (true, { s with src := rest, buf := s.buf ++ [v] }) :=
        State.bufPush_of_lt v (show s.buf.length < s.cap by omega)
      simp only [State.refillLoop, State.srcIsEmpty, hs, List.isEmpty_cons, Bool.false_eq_true, if_false,
        State.srcNextByte_of_cons hs, Res.andThen_ok, hp]
      rw [ih _ (by simp; omega)]
      simp

/-- R106: a refill moves as many bytes as there is room for, and as the source holds, in source order; it never
faults. -/
theorem State.refill_eq (s : State) :
    s.refill = .ok () { s with buf := s.buf ++ s.src.take (s.cap - s.buf.length)
                               src := s.src.drop (s.cap - s.buf.length) } :=
  State.refillLoop_eq _ s le_rfl

/-! ## Packet register -/

theorem State.pktAppend_of_lt {s : State} (b : Byte) (h : s.pktLen < 22) :
    s.pktAppend b = .ok () { s with pkt := s.pkt ++ [b] } := by
  simp [State.pktAppend, pktSize, h]

theorem State.pktAppend_of_le {s : State} (b : Byte) (h : 22 ≤ s.pktLen) :
    s.pktAppend b = .fault (.pktOverflow b) := by
  simp [State.pktAppend, pktSize, Nat.not_lt.2 h]

theorem packetOf_toList (p : Packet) : packetOf p.toList = some p := by
  rcases p with ⟨a, h⟩
  simp [packetOf, h]

theorem packetOf_eq_some {l : List Byte} {p : Packet} : packetOf l = some p ↔ l = p.toList := by
  constructor
  · intro h
    unfold packetOf at h
    split at h
    · cases h; simp
    · cases h
  · rintro rfl
    exact packetOf_toList p

theorem packetOf_eq_none {l : List Byte} : packetOf l = none ↔ l.length ≠ 22 := by
  unfold packetOf
  split <;> simp [*]

theorem packetOf_of_length {l : List Byte} (h : l.length = 22) : ∃ p, packetOf l = some p := by
  unfold packetOf
  rw [dif_pos h]
  exact ⟨_, rfl⟩

theorem State.packet_of_toList {s : State} {p : Packet} (op : Site) (h : s.pkt = p.toList) :
    s.packet op = .ok p := by
  simp [State.packet, h, packetOf_toList]

theorem State.packet_of_ne {s : State} (op : Site) (h : s.pktLen ≠ 22) :
    s.packet op = .error (.pktUnwritten op s.pktLen) := by
  simp [State.packet, packetOf_eq_none.2 h]

theorem State.field_of_toList {α : Type} {s : State} {p : Packet} (op : Site) (f : Packet → α)
    (h : s.pkt = p.toList) : s.field op f = .ok (f p) := by
  simp [State.field, State.packet_of_toList op h]

theorem State.field_of_ne {α : Type} {s : State} (op : Site) (f : Packet → α) (h : s.pktLen ≠ 22) :
    s.field op f = .error (.pktUnwritten op s.pktLen) := by
  simp [State.field, State.packet_of_ne op h]

theorem State.decMeasurement_of_valid {s : State} {p : Packet} (k : Fin 4) (h : s.pkt = p.toList)
    (hi : indexOk (packetIndex p) = true) : s.decMeasurement k = .ok (measurementOf p k) := by
  simp [State.decMeasurement, State.decAngle, State.decDist, State.packet_of_toList _ h,
    State.field_of_toList _ _ h, hi, measurementOf]

theorem State.decSlots_of_valid {s : State} {p : Packet} (ks : List (Fin 4)) (h : s.pkt = p.toList)
    (hi : indexOk (packetIndex p) = true) : s.decSlots ks = .ok (ks.map (measurementOf p)) := by
  induction ks with
  | nil => rfl
  | cons k ks ih => simp [State.decSlots, State.decMeasurement_of_valid k h hi, ih]

/-- R176: the decode of a complete packet with a valid index. -/
theorem State.decMeasurements_of_valid {s : State} {p : Packet} (h : s.pkt = p.toList)
    (hi : indexOk (packetIndex p) = true) : s.decMeasurements = .ok (measurementsOf p) :=
  State.decSlots_of_valid slots h hi

theorem State.decMeasurements_of_ne {s : State} (h : s.pktLen ≠ 22) :
    s.decMeasurements = .error (.pktUnwritten .decAngle s.pktLen) := by
  simp [State.decMeasurements, slots, State.decSlots, State.decMeasurement, State.decAngle,
    State.packet_of_ne _ h]

theorem State.decMeasurements_of_index {s : State} {p : Packet} (h : s.pkt = p.toList)
    (hi : indexOk (packetIndex p) = false) : s.decMeasurements = .error (.decodeInvalid (packetIndex p)) := by
  simp [State.decMeasurements, slots, State.decSlots, State.decMeasurement, State.decAngle,
    State.packet_of_toList _ h, hi]

theorem measurementsOf_length (p : Packet) : (measurementsOf p).length = 4 := rfl

/-- A valid packet has a valid index (R192). -/
theorem validPacket_indexOk {p : Packet} (h : validPacket p = true) : indexOk (packetIndex p) = true := by
  simp [validPacket] at h
  exact h.1

/-! ## The start of a call -/

/-- R140: the start of a call never faults. -/
theorem State.enterCall_eq (s : State) :
    s.enterCall = .ok () { s with buf := s.buf ++ s.src.take (s.cap - s.buf.length)
                                  src := s.src.drop (s.cap - s.buf.length)
                                  emitted := 0
                                  cont := true } := by
  simp [State.enterCall, State.refill_eq, State.setCont]

end Sys2Proof.Machine
end

