-- ==== Sys2Proof/Laws/Parser.lean ====
section
/-! SUPPORT. What a micro-step can do, once: the step selector (R81, R82), the effect of each micro-step
(R131 to R139) and the inversion of `microStep`. -/

namespace Sys2Proof.Machine

/-! ## The selector -/

/-- R82 in words: the row of a selector by its state code, exhaustion bit, byte and verdict. -/
def rowInWords (v : Bool) (b : Byte) (e : Bool) (st : BitVec 3) : Option MicroStep :=
  if st = 0#3 then some .resetting
  else if st = 1#3 then (if e then some .startPause else if b = 0xFA#8 then some .startHit else some .startDrop)
  else if st = 2#3 then (if e then some .payloadPause else some .payloadTake)
  else if st = 3#3 then (if v then some .validatePass else some .validateFail)
  else if st = 4#3 then some .emit
  else none

theorem rowInWords_resetting (v : Bool) (b : Byte) (e : Bool) :
    rowInWords v b e stResetting = some .resetting := rfl

theorem rowInWords_scanStart (v : Bool) (b : Byte) (e : Bool) :
    rowInWords v b e stScanStart =
      if e then some .startPause else if b = startMarker then some .startHit else some .startDrop := rfl

theorem rowInWords_scanPayload (v : Bool) (b : Byte) (e : Bool) :
    rowInWords v b e stScanPayload = if e then some .payloadPause else some .payloadTake := rfl

theorem rowInWords_validating (v : Bool) (b : Byte) (e : Bool) :
    rowInWords v b e stValidating = if v then some .validatePass else some .validateFail := rfl

theorem rowInWords_emitting (v : Bool) (b : Byte) (e : Bool) :
    rowInWords v b e stEmitting = some .emit := rfl

set_option maxRecDepth 4000 in
/-- R82: the table's rows are its column "condition in words". -/
theorem decodeSel_selectorWord (v : Bool) (b : Byte) (e : Bool) (st : BitVec 3) :
    decodeSel (selectorWord v b e st) = rowInWords v b e st := by
  have h : ∀ v e : Bool, ∀ st : BitVec 3, ∀ b : Byte,
      decodeSel (selectorWord v b e st) = rowInWords v b e st := by decide +kernel
  exact h v e st b

theorem State.exh_iff {s : State} : s.exh = true ↔ s.cur = s.buf.length := by simp [State.exh]

theorem State.not_exh {s : State} (h : s.cur < s.buf.length) : ¬s.exh = true := by
  rw [State.exh_iff]
  omega

theorem State.selectorByte_of_eq {s : State} (h : s.cur = s.buf.length) : s.selectorByte = .ok 0#8 := by
  simp [State.selectorByte, State.exh_iff.2 h]

theorem State.selectorByte_of_lt {s : State} (h : s.cur < s.buf.length) : s.selectorByte = .ok s.buf[s.cur] := by
  have : s.exh = false := by simp [State.exh]; omega
  simp [State.selectorByte, this, State.bufRead_of_lt _ h]

theorem State.selectorByte_of_gt {s : State} (h : s.buf.length < s.cur) :
    s.selectorByte = .error (.peekRange .stepSelect s.cur) := by
  have : s.exh = false := by simp [State.exh]; omega
  simp [State.selectorByte, this, State.bufRead_of_le _ (Nat.le_of_lt h)]

/-- The selector's byte part exists exactly while the cursor is within the buffer. -/
theorem State.selectorByte_of_le {s : State} (h : s.cur ≤ s.buf.length) : ∃ b, s.selectorByte = .ok b := by
  rcases Nat.lt_or_eq_of_le h with h | h
  · exact ⟨_, s.selectorByte_of_lt h⟩
  · exact ⟨_, s.selectorByte_of_eq h⟩

theorem State.selectorVerdict_of_ne {s : State} (h : s.st ≠ stValidating) : s.selectorVerdict = .ok false := by
  simp [State.selectorVerdict, h]

theorem State.selectorVerdict_of_toList {s : State} {p : Packet} (h : s.st = stValidating)
    (hp : s.pkt = p.toList) : s.selectorVerdict = .ok (validPacket p) := by
  simp [State.selectorVerdict, h, State.valVerdict, State.field_of_toList _ _ hp]

/-- One micro-step, by the parts of its selector. -/
theorem microStep_of_parts {s : State} {b : Byte} {v : Bool} (hb : s.selectorByte = .ok b)
    (hv : s.selectorVerdict = .ok v) :
    microStep s =
      match rowInWords v b s.exh s.st with
      | some m => runMicro m s
      | none => .refused (.badState s.st) := by
  cases h : rowInWords v b s.exh s.st <;>
    simp [microStep, State.selector, hb, hv, decodeSel_selectorWord, selSt_selectorWord, h]

/-- One micro-step, by the row its selector names. -/
theorem microStep_of_row {s : State} {b : Byte} {v : Bool} {m : MicroStep} (hb : s.selectorByte = .ok b)
    (hv : s.selectorVerdict = .ok v) (hr : rowInWords v b s.exh s.st = some m) : microStep s = runMicro m s := by
  rw [microStep_of_parts hb hv, hr]

/-- A cursor beyond the buffer makes the selector read out of range (R51, R81). -/
theorem microStep_of_gt {s : State} (h : s.buf.length < s.cur) :
    microStep s = .fault (.peekRange .stepSelect s.cur) := by
  simp [microStep, State.selector, State.selectorByte_of_gt h]

/-- VALIDATING without a complete packet (R192). -/
theorem microStep_of_unwritten {s : State} (h : s.cur ≤ s.buf.length) (hst : s.st = stValidating)
    (hp : s.pktLen ≠ 22) : microStep s = .fault (.pktUnwritten .valVerdict s.pktLen) := by
  obtain ⟨b, hb⟩ := s.selectorByte_of_le h
  simp [microStep, State.selector, hb, State.selectorVerdict, hst, State.valVerdict, State.field_of_ne _ _ hp]

/-- R87: reserved state codes are refused. -/
theorem microStep_of_reserved {s : State} (h : s.cur ≤ s.buf.length) (hst : 4 < s.st.toNat) :
    microStep s = .refused (.badState s.st) := by
  obtain ⟨b, hb⟩ := s.selectorByte_of_le h
  have h0 : s.st ≠ 0#3 := fun e => by simp [e] at hst
  have h1 : s.st ≠ 1#3 := fun e => by simp [e] at hst
  have h2 : s.st ≠ 2#3 := fun e => by simp [e] at hst
  have h3 : s.st ≠ 3#3 := fun e => by simp [e] at hst
  have h4 : s.st ≠ 4#3 := fun e => by simp [e] at hst
  rw [microStep_of_parts hb (s.selectorVerdict_of_ne h3)]
  simp [rowInWords, h0, h1, h2, h3, h4]

/-! ## The effect of each micro-step, whatever selected it -/

/-- R132: one byte is discarded, and the cursor is where it was. -/
theorem execFsmStartDrop_of_lt {s : State} (h : s.cur < s.buf.length) :
    execFsmStartDrop s = .next { s with buf := s.buf.drop 1 } := by
  obtain ⟨v, rest, hb⟩ : ∃ v rest, s.buf = v :: rest := by
    cases hs : s.buf with
    | nil => simp [hs] at h
    | cons v rest => exact ⟨v, rest, rfl⟩
  rw [execFsmStartDrop, State.bufNext_of_lt h, Res.andThen_ok,
    State.bufPopFront_of_cons (show ({ s with cur := s.cur + 1 } : State).buf = v :: rest from hb)]
  simp [hb]

/-- R134: the marker is taken into the packet and stays in the buffer. -/
theorem execFsmStartHit_of_lt {s : State} (h : s.cur < s.buf.length) (hp : s.pktLen < 22) :
    execFsmStartHit s =
      .next { s with cur := s.cur + 1, pkt := s.pkt ++ [s.buf[s.cur]], st := stScanPayload } := by
  rw [execFsmStartHit, State.bufNext_of_lt h, Res.andThen_ok,
    State.pktAppend_of_lt _ (show ({ s with cur := s.cur + 1 } : State).pktLen < 22 from hp)]
  rfl

/-- R136: one byte is taken into the packet; the last one moves the state on. -/
theorem execFsmPayloadTake_of_lt {s : State} (h : s.cur < s.buf.length) (hp : s.pktLen < 22) :
    execFsmPayloadTake s =
      .next { s with cur := s.cur + 1
                     pkt := s.pkt ++ [s.buf[s.cur]]
                     st := if s.pktLen + 1 = 22 then stValidating else s.st } := by
  rw [execFsmPayloadTake, State.bufNext_of_lt h, Res.andThen_ok,
    State.pktAppend_of_lt _ (show ({ s with cur := s.cur + 1 } : State).pktLen < 22 from hp)]
  simp only [Res.andThen_ok, Res.micro_ok, State.pktLen, List.length_append, List.length_singleton, pktSize]
  by_cases hq : s.pkt.length + 1 = 22 <;> simp [hq, State.goto]

/-- R137: only the head byte is discarded. -/
theorem execFsmValidateFail_of_lt {s : State} (h : 0 < s.buf.length) :
    execFsmValidateFail s = .next { s with buf := s.buf.drop 1, cur := s.cur - 1, st := stResetting } := by
  obtain ⟨v, rest, hb⟩ : ∃ v rest, s.buf = v :: rest := by
    cases hs : s.buf with
    | nil => simp [hs] at h
    | cons v rest => exact ⟨v, rest, rfl⟩
  rw [execFsmValidateFail, State.bufPopFront_of_cons hb, hb]
  rfl

/-- R139: four measurements, 22 bytes popped. -/
theorem execFsmEmit_of_valid {s : State} {p : Packet} (hp : s.pkt = p.toList)
    (hi : indexOk (packetIndex p) = true) (h : 22 ≤ s.buf.length) :
    execFsmEmit s =
      .next { s with sink := s.sink ++ measurementsOf p
                     emitted := s.emitted + 4
                     buf := s.buf.drop 22
                     cur := s.cur - 22
                     st := stResetting } := by
  simp only [execFsmEmit, State.decMeasurements_of_valid hp hi, State.sinkAddAll_eq]
  rw [State.bufPopMany_of_le]
  · rfl
  · exact h

/-! ## One micro-step in each situation -/

theorem microStep_resetting {s : State} (hst : s.st = stResetting) (h : s.cur ≤ s.buf.length) :
    microStep s = .next { s with pkt := [], cur := 0, st := stScanStart } := by
  obtain ⟨b, hb⟩ := s.selectorByte_of_le h
  exact microStep_of_row (m := .resetting) hb (s.selectorVerdict_of_ne (by rw [hst]; decide))
    (by rw [hst, rowInWords_resetting])

theorem microStep_startPause {s : State} (hst : s.st = stScanStart) (h : s.cur = s.buf.length) :
    microStep s = .next { s with cont := false } :=
  microStep_of_row (m := .startPause) (s.selectorByte_of_eq h) (s.selectorVerdict_of_ne (by rw [hst]; decide))
    (by rw [hst, rowInWords_scanStart, if_pos (State.exh_iff.2 h)])

theorem microStep_startHit {s : State} (hst : s.st = stScanStart) (h : s.cur < s.buf.length)
    (hb : s.buf[s.cur] = startMarker) : microStep s = execFsmStartHit s :=
  microStep_of_row (m := .startHit) (s.selectorByte_of_lt h) (s.selectorVerdict_of_ne (by rw [hst]; decide))
    (by rw [hst, rowInWords_scanStart, if_neg (State.not_exh h), if_pos hb])

theorem microStep_startDrop {s : State} (hst : s.st = stScanStart) (h : s.cur < s.buf.length)
    (hb : s.buf[s.cur] ≠ startMarker) : microStep s = .next { s with buf := s.buf.drop 1 } :=
  (microStep_of_row (m := .startDrop) (s.selectorByte_of_lt h) (s.selectorVerdict_of_ne (by rw [hst]; decide))
    (by rw [hst, rowInWords_scanStart, if_neg (State.not_exh h), if_neg hb])).trans (execFsmStartDrop_of_lt h)

theorem microStep_payloadPause {s : State} (hst : s.st = stScanPayload) (h : s.cur = s.buf.length) :
    microStep s = .next { s with cont := false } :=
  microStep_of_row (m := .payloadPause) (s.selectorByte_of_eq h) (s.selectorVerdict_of_ne (by rw [hst]; decide))
    (by rw [hst, rowInWords_scanPayload, if_pos (State.exh_iff.2 h)])

theorem microStep_payloadTake {s : State} (hst : s.st = stScanPayload) (h : s.cur < s.buf.length) :
    microStep s = execFsmPayloadTake s :=
  microStep_of_row (m := .payloadTake) (s.selectorByte_of_lt h) (s.selectorVerdict_of_ne (by rw [hst]; decide))
    (by rw [hst, rowInWords_scanPayload, if_neg (State.not_exh h)])

theorem microStep_validate {s : State} {p : Packet} (hst : s.st = stValidating) (h : s.cur ≤ s.buf.length)
    (hp : s.pkt = p.toList) :
    microStep s = if validPacket p then .next { s with st := stEmitting } else execFsmValidateFail s := by
  obtain ⟨b, hb⟩ := s.selectorByte_of_le h
  have hv := s.selectorVerdict_of_toList hst hp
  cases hp : validPacket p with
  | true =>
    exact microStep_of_row (m := .validatePass) hb hv (by rw [hst, rowInWords_validating, if_pos hp])
  | false =>
    exact microStep_of_row (m := .validateFail) hb hv
      (by rw [hst, rowInWords_validating, if_neg (by rw [hp]; decide)])

theorem microStep_emit {s : State} (hst : s.st = stEmitting) (h : s.cur ≤ s.buf.length) :
    microStep s = execFsmEmit s := by
  obtain ⟨b, hb⟩ := s.selectorByte_of_le h
  exact microStep_of_row (m := .emit) hb (s.selectorVerdict_of_ne (by rw [hst]; decide)) (by rw [hst, rowInWords_emitting])

/-! ## The whole micro-step, in every state -/

theorem execFsmStartHit_of_full {s : State} (h : s.cur < s.buf.length) (hp : 22 ≤ s.pktLen) :
    execFsmStartHit s = .fault (.pktOverflow s.buf[s.cur]) := by
  rw [execFsmStartHit, State.bufNext_of_lt h, Res.andThen_ok,
    State.pktAppend_of_le _ (show 22 ≤ ({ s with cur := s.cur + 1 } : State).pktLen from hp)]
  rfl

theorem execFsmPayloadTake_of_full {s : State} (h : s.cur < s.buf.length) (hp : 22 ≤ s.pktLen) :
    execFsmPayloadTake s = .fault (.pktOverflow s.buf[s.cur]) := by
  rw [execFsmPayloadTake, State.bufNext_of_lt h, Res.andThen_ok,
    State.pktAppend_of_le _ (show 22 ≤ ({ s with cur := s.cur + 1 } : State).pktLen from hp)]
  rfl

theorem execFsmValidateFail_of_nil {s : State} (h : s.buf = []) :
    execFsmValidateFail s = .fault (.popEmpty .bufPopFront) := by
  rw [execFsmValidateFail, State.bufPopFront_of_nil h]
  rfl

theorem execFsmEmit_of_short {s : State} {p : Packet} (hp : s.pkt = p.toList)
    (hi : indexOk (packetIndex p) = true) (h : s.buf.length < 22) :
    execFsmEmit s = .fault (.popEmpty .bufPopFront) := by
  simp only [execFsmEmit, State.decMeasurements_of_valid hp hi, State.sinkAddAll_eq]
  rw [State.bufPopMany_of_lt]
  · rfl
  · exact h

theorem execFsmEmit_of_index {s : State} {p : Packet} (hp : s.pkt = p.toList)
    (hi : indexOk (packetIndex p) = false) : execFsmEmit s = .fault (.decodeInvalid (packetIndex p)) := by
  simp only [execFsmEmit, State.decMeasurements_of_index hp hi]

theorem execFsmEmit_of_ne {s : State} (hp : s.pktLen ≠ 22) :
    execFsmEmit s = .fault (.pktUnwritten .decAngle s.pktLen) := by
  simp only [execFsmEmit, State.decMeasurements_of_ne hp]

/-- What a micro-step does, in every state, reachable or not. -/
theorem microStep_total (s : State) :
    microStep s =
      if s.buf.length < s.cur then .fault (.peekRange .stepSelect s.cur)
      else if s.st = stResetting then .next { s with pkt := [], cur := 0, st := stScanStart }
      else if s.st = stScanStart then
        match s.buf[s.cur]? with
        | none => .next { s with cont := false }
        | some b =>
          if b = startMarker then
            if s.pktLen < 22 then .next { s with cur := s.cur + 1, pkt := s.pkt ++ [b], st := stScanPayload }
            else .fault (.pktOverflow b)
          else .next { s with buf := s.buf.drop 1 }
      else if s.st = stScanPayload then
        match s.buf[s.cur]? with
        | none => .next { s with cont := false }
        | some b =>
          if s.pktLen < 22 then
            .next { s with cur := s.cur + 1
                           pkt := s.pkt ++ [b]
                           st := if s.pktLen + 1 = 22 then stValidating else s.st }
          else .fault (.pktOverflow b)
      else if s.st = stValidating then
        match packetOf s.pkt with
        | none => .fault (.pktUnwritten .valVerdict s.pktLen)
        | some p =>
          if validPacket p = true then .next { s with st := stEmitting }
          else if 0 < s.buf.length then .next { s with buf := s.buf.drop 1, cur := s.cur - 1, st := stResetting }
          else .fault (.popEmpty .bufPopFront)
      else if s.st = stEmitting then
        match packetOf s.pkt with
        | none => .fault (.pktUnwritten .decAngle s.pktLen)
        | some p =>
          if indexOk (packetIndex p) = true then
            if 22 ≤ s.buf.length then
              .next { s with sink := s.sink ++ measurementsOf p
                             emitted := s.emitted + 4
                             buf := s.buf.drop 22
                             cur := s.cur - 22
                             st := stResetting }
            else .fault (.popEmpty .bufPopFront)
          else .fault (.decodeInvalid (packetIndex p))
      else .refused (.badState s.st) := by
  by_cases hgt : s.buf.length < s.cur
  · rw [if_pos hgt, microStep_of_gt hgt]
  rw [if_neg hgt]
  have hle : s.cur ≤ s.buf.length := Nat.not_lt.1 hgt
  by_cases h0 : s.st = stResetting
  · rw [if_pos h0, microStep_resetting h0 hle]
  rw [if_neg h0]
  by_cases h1 : s.st = stScanStart
  · rw [if_pos h1]
    by_cases hlt : s.cur < s.buf.length
    · rw [List.getElem?_eq_getElem hlt]
      dsimp only
      by_cases hb : s.buf[s.cur] = startMarker
      · rw [if_pos hb, microStep_startHit h1 hlt hb]
        by_cases hp : s.pktLen < 22
        · rw [if_pos hp, execFsmStartHit_of_lt hlt hp]
        · rw [if_neg hp, execFsmStartHit_of_full hlt (Nat.not_lt.1 hp)]
      · rw [if_neg hb, microStep_startDrop h1 hlt hb]
    · rw [List.getElem?_eq_none (Nat.not_lt.1 hlt), microStep_startPause h1 (by omega)]
  rw [if_neg h1]
  by_cases h2 : s.st = stScanPayload
  · rw [if_pos h2]
    by_cases hlt : s.cur < s.buf.length
    · rw [List.getElem?_eq_getElem hlt, microStep_payloadTake h2 hlt]
      dsimp only
      by_cases hp : s.pktLen < 22
      · rw [if_pos hp, execFsmPayloadTake_of_lt hlt hp]
      · rw [if_neg hp, execFsmPayloadTake_of_full hlt (Nat.not_lt.1 hp)]
    · rw [List.getElem?_eq_none (Nat.not_lt.1 hlt), microStep_payloadPause h2 (by omega)]
  rw [if_neg h2]
  by_cases h3 : s.st = stValidating
  · rw [if_pos h3]
    cases hp : packetOf s.pkt with
    | none => exact microStep_of_unwritten hle h3 (packetOf_eq_none.1 hp)
    | some p =>
      rw [microStep_validate h3 hle (packetOf_eq_some.1 hp)]
      dsimp only
      by_cases hv : validPacket p = true
      · rw [if_pos hv, if_pos hv]
      · rw [if_neg hv, if_neg hv]
        by_cases hl : 0 < s.buf.length
        · rw [if_pos hl, execFsmValidateFail_of_lt hl]
        · rw [if_neg hl, execFsmValidateFail_of_nil (List.length_eq_zero_iff.1 (by omega))]
  rw [if_neg h3]
  by_cases h4 : s.st = stEmitting
  · rw [if_pos h4, microStep_emit h4 hle]
    cases hp : packetOf s.pkt with
    | none => exact execFsmEmit_of_ne (packetOf_eq_none.1 hp)
    | some p =>
      have hl := packetOf_eq_some.1 hp
      dsimp only
      by_cases hi : indexOk (packetIndex p) = true
      · rw [if_pos hi]
        by_cases hb : 22 ≤ s.buf.length
        · rw [if_pos hb, execFsmEmit_of_valid hl hi hb]
        · rw [if_neg hb, execFsmEmit_of_short hl hi (Nat.not_le.1 hb)]
      · rw [if_neg hi, execFsmEmit_of_index hl (by simpa using hi)]
  rw [if_neg h4]
  refine microStep_of_reserved hle ?_
  have h : ∀ c : BitVec 3, c ≠ stResetting → c ≠ stScanStart → c ≠ stScanPayload → c ≠ stValidating →
      c ≠ stEmitting → 4 < c.toNat := by decide
  exact h s.st h0 h1 h2 h3 h4

end Sys2Proof.Machine
end

