-- ==== Sys2Proof/Laws/MicroStep.lean ====
section
/-! SUPPORT. The inversion of the micro-step: if it answers a next state, one of eight cases holds (R131 to R139).
Every property of micro-steps follows from these cases, with no unfolding. -/

namespace Sys2Proof.Machine

/-- The next states of a micro-step from `s`. -/
inductive MicroNext (s : State) : State → Prop where
  /-- FSM_RESETTING -/
  | resetting (hst : s.st = stResetting) (hc : s.cur ≤ s.buf.length) :
    MicroNext s { s with pkt := [], cur := 0, st := stScanStart }
  /-- FSM_START_PAUSE and FSM_PAYLOAD_PAUSE -/
  | pause (hst : s.st = stScanStart ∨ s.st = stScanPayload) (hc : s.cur = s.buf.length) :
    MicroNext s { s with cont := false }
  /-- FSM_START_HIT -/
  | hit (hst : s.st = stScanStart) (hc : s.cur < s.buf.length) (hb : s.buf[s.cur]? = some startMarker)
    (hp : s.pktLen < 22) :
    MicroNext s { s with cur := s.cur + 1, pkt := s.pkt ++ [startMarker], st := stScanPayload }
  /-- FSM_START_DROP -/
  | drop (b : Byte) (hst : s.st = stScanStart) (hc : s.cur < s.buf.length) (hb : s.buf[s.cur]? = some b)
    (hne : b ≠ startMarker) : MicroNext s { s with buf := s.buf.drop 1 }
  /-- FSM_PAYLOAD_TAKE -/
  | take (b : Byte) (hst : s.st = stScanPayload) (hc : s.cur < s.buf.length) (hb : s.buf[s.cur]? = some b)
    (hp : s.pktLen < 22) :
    MicroNext s { s with cur := s.cur + 1
                         pkt := s.pkt ++ [b]
                         st := if s.pktLen + 1 = 22 then stValidating else s.st }
  /-- FSM_VALIDATE_PASS -/
  | pass (p : Packet) (hst : s.st = stValidating) (hc : s.cur ≤ s.buf.length) (hp : s.pkt = p.toList)
    (hv : validPacket p = true) : MicroNext s { s with st := stEmitting }
  /-- FSM_VALIDATE_FAIL -/
  | fail (p : Packet) (hst : s.st = stValidating) (hc : s.cur ≤ s.buf.length) (hp : s.pkt = p.toList)
    (hv : validPacket p = false) (hb : 0 < s.buf.length) :
    MicroNext s { s with buf := s.buf.drop 1, cur := s.cur - 1, st := stResetting }
  /-- FSM_EMIT -/
  | emit (p : Packet) (hst : s.st = stEmitting) (hc : s.cur ≤ s.buf.length) (hp : s.pkt = p.toList)
    (hi : indexOk (packetIndex p) = true) (hb : 22 ≤ s.buf.length) :
    MicroNext s { s with sink := s.sink ++ measurementsOf p
                         emitted := s.emitted + 4
                         buf := s.buf.drop 22
                         cur := s.cur - 22
                         st := stResetting }

/-- If a micro-step answers a next state, it is one of the eight. -/
theorem microStep_next {s t : State} (h : microStep s = .next t) : MicroNext s t := by
  rw [microStep_total] at h
  split at h
  · cases h
  rename_i hgt
  have hle : s.cur ≤ s.buf.length := Nat.not_lt.1 hgt
  split at h
  · rename_i hst
    cases h
    exact .resetting hst hle
  split at h
  · rename_i hst
    split at h
    · rename_i hb
      cases h
      exact .pause (.inl hst) (Nat.le_antisymm hle (List.getElem?_eq_none_iff.1 hb))
    · rename_i b hb
      have hlt : s.cur < s.buf.length := (List.getElem?_eq_some_iff.1 hb).1
      split at h
      · rename_i hm
        split at h
        · rename_i hp
          cases h
          subst hm
          exact .hit hst hlt hb hp
        · cases h
      · rename_i hm
        cases h
        exact .drop b hst hlt hb hm
  split at h
  · rename_i hst
    split at h
    · rename_i hb
      cases h
      exact .pause (.inr hst) (Nat.le_antisymm hle (List.getElem?_eq_none_iff.1 hb))
    · rename_i b hb
      have hlt : s.cur < s.buf.length := (List.getElem?_eq_some_iff.1 hb).1
      split at h
      · rename_i hp
        cases h
        exact .take b hst hlt hb hp
      · cases h
  split at h
  · rename_i hst
    split at h
    · cases h
    · rename_i p hp
      split at h
      · rename_i hv
        cases h
        exact .pass p hst hle (packetOf_eq_some.1 hp) hv
      · rename_i hv
        split at h
        · rename_i hb
          cases h
          exact .fail p hst hle (packetOf_eq_some.1 hp) (by simpa using hv) hb
        · cases h
  split at h
  · rename_i hst
    split at h
    · cases h
    · rename_i p hp
      split at h
      · rename_i hi
        split at h
        · rename_i hb
          cases h
          exact .emit p hst hle (packetOf_eq_some.1 hp) hi hb
        · cases h
      · cases h
  · cases h

/-- A property that every micro-step keeps holds at the end of the loop of a PARSE. -/
theorem parseLoop_keeps {P : State → Prop} (hP : ∀ s t, P s → microStep s = .next t → P t) (n : Nat) {s t : State}
    (hs : P s) (h : parseLoop n s = .next t) : P t := by
  induction n generalizing s with
  | zero =>
    cases h
    exact hs
  | succ n ih =>
    rw [parseLoop] at h
    split at h
    · split at h
      · rename_i u hu
        exact ih (hP s u hs hu) h
      · cases h
      · cases h
    · cases h
      exact hs

/-- If PARSE answers a next state, it was issued between calls, its micro-steps ran from the state after the
refill, and the call's count was handed back. -/
theorem execParse_next {s t : State} (h : execParse s = .next t) :
    s.cont = false ∧ ∃ u v : State,
      u = { s with buf := s.buf ++ s.src.take (s.cap - s.buf.length)
                   src := s.src.drop (s.cap - s.buf.length)
                   emitted := 0
                   cont := true } ∧
      parseLoop (callBound u) u = .next v ∧ t = v.returnCount := by
  unfold execParse at h
  split at h
  · cases h
  · rename_i hc
    rw [State.enterCall_eq] at h
    dsimp only at h
    split at h
    · rename_i v hv
      cases h
      exact ⟨by simpa using hc, _, v, rfl, hv, rfl⟩
    · cases h
    · cases h

end Sys2Proof.Machine
end

