-- ==== Sys2Proof/Laws/Exec.lean ====
section
/-! SUPPORT. The inversion of `exec`: if an instruction answers a next state, one of the cases below holds. What an
instruction changes, and on which states it completes, is read off its case. -/

namespace Sys2Proof.Machine

/-- The instructions that only hand a value back (R102, R104, R105, R177, R195, R210, R213). -/
def readsOnly : Instr → Bool
  | .srcIsEmpty | .sinkSize | .bufPeekAt _ | .bufLen | .bufIsScanExhausted => true
  | .pktIndexByte | .pktSpeed | .decAngle _ | .decDist _ | .decMeasurements => true
  | .valIndex | .valChecksum | .valVerdict => true
  | _ => false

/-- The next states of an instruction from `s`. -/
inductive ExecNext (s : State) : Instr → State → Prop where
  /-- the value handed back, and nothing else -/
  | reads (i : Instr) (v : Ret) (hi : readsOnly i = true) : ExecNext s i { s with ret := v }
  | reset (hc : s.cont = false) :
    ExecNext s .reset { s with st := stResetting, cont := false, buf := [], cur := 0, pkt := [], emitted := 0
                               ret := .none }
  | parse (t : State) (h : execParse s = .next t) : ExecNext s .parse t
  | srcNextByte (v : Byte) (rest : List Byte) (h : s.src = v :: rest) :
    ExecNext s .srcNextByte { s with src := rest, ret := .byte v }
  | sinkAdd (a d : U16) : ExecNext s (.sinkAdd a d) { s with sink := s.sink ++ [(a, d)], ret := .none }
  | pushed (b : Byte) (h : s.buf.length < s.cap) :
    ExecNext s (.bufPush b) { s with buf := s.buf ++ [b], ret := .bool true }
  | unpushed (b : Byte) (h : s.cap ≤ s.buf.length) : ExecNext s (.bufPush b) { s with ret := .bool false }
  | bufPopFront (v : Byte) (rest : List Byte) (h : s.buf = v :: rest) :
    ExecNext s .bufPopFront { s with buf := rest, cur := s.cur - 1, ret := .byte v }
  | bufNext (v : Byte) (h : s.buf[s.cur]? = some v) : ExecNext s .bufNext { s with cur := s.cur + 1, ret := .byte v }
  | bufRefill :
    ExecNext s .bufRefill { s with buf := s.buf ++ s.src.take (s.cap - s.buf.length)
                                   src := s.src.drop (s.cap - s.buf.length)
                                   ret := .none }
  | pktClear : ExecNext s .pktClear { s with pkt := [], ret := .none }
  | pktAppend (b : Byte) (h : s.pktLen < 22) : ExecNext s (.pktAppend b) { s with pkt := s.pkt ++ [b], ret := .none }
  | hostFeed (bytes : List Byte) : ExecNext s (.hostFeed bytes) { s with src := s.src ++ bytes, ret := .none }
  | fsmResetting : ExecNext s .fsmResetting { s with pkt := [], cur := 0, st := stScanStart }
  | fsmPause (i : Instr) (hi : i = .fsmStartPause ∨ i = .fsmPayloadPause) : ExecNext s i { s with cont := false }
  | fsmStartHit (b : Byte) (h : s.buf[s.cur]? = some b) (hp : s.pktLen < 22) :
    ExecNext s .fsmStartHit { s with cur := s.cur + 1, pkt := s.pkt ++ [b], st := stScanPayload }
  | fsmStartDrop (h : s.cur < s.buf.length) : ExecNext s .fsmStartDrop { s with buf := s.buf.drop 1 }
  | fsmPayloadTake (b : Byte) (h : s.buf[s.cur]? = some b) (hp : s.pktLen < 22) :
    ExecNext s .fsmPayloadTake { s with cur := s.cur + 1
                                        pkt := s.pkt ++ [b]
                                        st := if s.pktLen + 1 = 22 then stValidating else s.st }
  | fsmValidateFail (h : 0 < s.buf.length) :
    ExecNext s .fsmValidateFail { s with buf := s.buf.drop 1, cur := s.cur - 1, st := stResetting }
  | fsmValidatePass : ExecNext s .fsmValidatePass { s with st := stEmitting }
  | fsmEmit (p : Packet) (hp : s.pkt = p.toList) (hi : indexOk (packetIndex p) = true) (hb : 22 ≤ s.buf.length) :
    ExecNext s .fsmEmit { s with sink := s.sink ++ measurementsOf p
                                 emitted := s.emitted + 4
                                 buf := s.buf.drop 22
                                 cur := s.cur - 22
                                 st := stResetting }

/-- An operation that only reads, if it completes, hands back a value. -/
theorem answers_next {α : Type} {s t : State} {i : Instr} {r : Except Fault α} {f : α → Ret}
    (hi : readsOnly i = true) (h : s.answers r f = .next t) : ExecNext s i t := by
  obtain ⟨a, -, rfl⟩ := State.answers_eq_next h
  exact .reads i (f a) hi

theorem execBufPush_next {s t : State} (b : Byte) (h : execBufPush b s = .next t) : ExecNext s (.bufPush b) t := by
  by_cases hl : s.buf.length < s.cap
  · rw [execBufPush, State.bufPush_of_lt b hl] at h
    cases h
    exact .pushed b hl
  · rw [execBufPush, State.bufPush_of_le b (Nat.not_lt.1 hl)] at h
    cases h
    exact .unpushed b (Nat.not_lt.1 hl)

theorem execBufPopFront_next {s t : State} (h : execBufPopFront s = .next t) : ExecNext s .bufPopFront t := by
  cases hb : s.buf with
  | nil =>
    rw [execBufPopFront, State.bufPopFront_of_nil hb] at h
    cases h
  | cons v rest =>
    rw [execBufPopFront, State.bufPopFront_of_cons hb] at h
    cases h
    exact .bufPopFront v rest hb

theorem execBufNext_next {s t : State} (h : execBufNext s = .next t) : ExecNext s .bufNext t := by
  by_cases hc : s.cur < s.buf.length
  · rw [execBufNext, State.bufNext_of_lt hc] at h
    cases h
    exact .bufNext _ (List.getElem?_eq_getElem hc)
  · rw [execBufNext, State.bufNext_of_le (Nat.not_lt.1 hc)] at h
    cases h

theorem execSrcNextByte_next {s t : State} (h : execSrcNextByte s = .next t) : ExecNext s .srcNextByte t := by
  cases hb : s.src with
  | nil =>
    rw [execSrcNextByte, State.srcNextByte_of_nil hb] at h
    cases h
  | cons v rest =>
    rw [execSrcNextByte, State.srcNextByte_of_cons hb] at h
    cases h
    exact .srcNextByte v rest hb

theorem execPktAppend_next {s t : State} (b : Byte) (h : execPktAppend b s = .next t) :
    ExecNext s (.pktAppend b) t := by
  by_cases hp : s.pktLen < 22
  · rw [execPktAppend, State.pktAppend_of_lt b hp] at h
    cases h
    exact .pktAppend b hp
  · rw [execPktAppend, State.pktAppend_of_le b (Nat.not_lt.1 hp)] at h
    cases h

theorem execFsmStartDrop_of_le {s : State} (h : s.buf.length ≤ s.cur) :
    execFsmStartDrop s = .fault (.peekRange .bufNext s.cur) := by
  rw [execFsmStartDrop, State.bufNext_of_le h]
  rfl

theorem execFsmStartHit_of_le {s : State} (h : s.buf.length ≤ s.cur) :
    execFsmStartHit s = .fault (.peekRange .bufNext s.cur) := by
  rw [execFsmStartHit, State.bufNext_of_le h]
  rfl

theorem execFsmPayloadTake_of_le {s : State} (h : s.buf.length ≤ s.cur) :
    execFsmPayloadTake s = .fault (.peekRange .bufNext s.cur) := by
  rw [execFsmPayloadTake, State.bufNext_of_le h]
  rfl

theorem execFsmStartDrop_next {s t : State} (h : execFsmStartDrop s = .next t) : ExecNext s .fsmStartDrop t := by
  by_cases hc : s.cur < s.buf.length
  · rw [execFsmStartDrop_of_lt hc] at h
    cases h
    exact .fsmStartDrop hc
  · rw [execFsmStartDrop_of_le (Nat.not_lt.1 hc)] at h
    cases h

theorem execFsmStartHit_next {s t : State} (h : execFsmStartHit s = .next t) : ExecNext s .fsmStartHit t := by
  by_cases hc : s.cur < s.buf.length
  · by_cases hp : s.pktLen < 22
    · rw [execFsmStartHit_of_lt hc hp] at h
      cases h
      exact .fsmStartHit _ (List.getElem?_eq_getElem hc) hp
    · rw [execFsmStartHit_of_full hc (Nat.not_lt.1 hp)] at h
      cases h
  · rw [execFsmStartHit_of_le (Nat.not_lt.1 hc)] at h
    cases h

theorem execFsmPayloadTake_next {s t : State} (h : execFsmPayloadTake s = .next t) :
    ExecNext s .fsmPayloadTake t := by
  by_cases hc : s.cur < s.buf.length
  · by_cases hp : s.pktLen < 22
    · rw [execFsmPayloadTake_of_lt hc hp] at h
      cases h
      exact .fsmPayloadTake _ (List.getElem?_eq_getElem hc) hp
    · rw [execFsmPayloadTake_of_full hc (Nat.not_lt.1 hp)] at h
      cases h
  · rw [execFsmPayloadTake_of_le (Nat.not_lt.1 hc)] at h
    cases h

theorem execFsmValidateFail_next {s t : State} (h : execFsmValidateFail s = .next t) :
    ExecNext s .fsmValidateFail t := by
  by_cases hb : 0 < s.buf.length
  · rw [execFsmValidateFail_of_lt hb] at h
    cases h
    exact .fsmValidateFail hb
  · rw [execFsmValidateFail_of_nil (List.length_eq_zero_iff.1 (by omega))] at h
    cases h

theorem execFsmEmit_next {s t : State} (h : execFsmEmit s = .next t) : ExecNext s .fsmEmit t := by
  cases hp : packetOf s.pkt with
  | none =>
    rw [execFsmEmit_of_ne (packetOf_eq_none.1 hp)] at h
    cases h
  | some p =>
    have hl := packetOf_eq_some.1 hp
    cases hi : indexOk (packetIndex p) with
    | false =>
      rw [execFsmEmit_of_index hl hi] at h
      cases h
    | true =>
      by_cases hb : 22 ≤ s.buf.length
      · rw [execFsmEmit_of_valid hl hi hb] at h
        cases h
        exact .fsmEmit p hl hi hb
      · rw [execFsmEmit_of_short hl hi (Nat.not_le.1 hb)] at h
        cases h

theorem execReset_next {s t : State} (h : execReset s = .next t) : ExecNext s .reset t := by
  cases hc : s.cont with
  | true =>
    rw [execReset, hc] at h
    cases h
  | false =>
    rw [execReset, hc] at h
    cases h
    exact .reset hc

theorem execBufRefill_next {s t : State} (h : execBufRefill s = .next t) : ExecNext s .bufRefill t := by
  rw [execBufRefill, State.refill_eq] at h
  cases h
  exact .bufRefill

/-- If an instruction answers a next state, it is the one of its case. -/
theorem exec_next {i : Instr} {s t : State} (h : exec i s = .next t) : ExecNext s i t := by
  cases i with
  | reset => exact execReset_next h
  | parse => exact .parse t h
  | srcIsEmpty => cases h; exact .reads _ _ rfl
  | srcNextByte => exact execSrcNextByte_next h
  | sinkAdd a d => cases h; exact .sinkAdd a d
  | sinkSize => cases h; exact .reads _ _ rfl
  | bufPush b => exact execBufPush_next b h
  | bufPopFront => exact execBufPopFront_next h
  | bufPeekAt o => exact answers_next rfl h
  | bufNext => exact execBufNext_next h
  | bufLen => cases h; exact .reads _ _ rfl
  | bufIsScanExhausted => cases h; exact .reads _ _ rfl
  | bufRefill => exact execBufRefill_next h
  | pktClear => cases h; exact .pktClear
  | pktAppend b => exact execPktAppend_next b h
  | pktIndexByte => exact answers_next rfl h
  | pktSpeed => exact answers_next rfl h
  | decAngle k => exact answers_next rfl h
  | decDist k => exact answers_next rfl h
  | decMeasurements => exact answers_next rfl h
  | valIndex => exact answers_next rfl h
  | valChecksum => exact answers_next rfl h
  | valVerdict => exact answers_next rfl h
  | hostFeed bytes => cases h; exact .hostFeed bytes
  | fsmResetting => cases h; exact .fsmResetting
  | fsmStartPause => cases h; exact .fsmPause _ (.inl rfl)
  | fsmStartHit => exact execFsmStartHit_next h
  | fsmStartDrop => exact execFsmStartDrop_next h
  | fsmPayloadPause => cases h; exact .fsmPause _ (.inr rfl)
  | fsmPayloadTake => exact execFsmPayloadTake_next h
  | fsmValidateFail => exact execFsmValidateFail_next h
  | fsmValidatePass => cases h; exact .fsmValidatePass
  | fsmEmit => exact execFsmEmit_next h

end Sys2Proof.Machine
end

