-- ==== Sys2Proof/Laws/Memory.lean ====
section
/-! SUPPORT. Every storage operation keeps the canonical form `Memory.wf` (R20, R29 INV1), and the reset state has
it. -/

namespace Sys2Proof.Machine

theorem Memory.wf_iff {s : State} :
    Memory.wf s = true ↔ s.cur ≤ s.buf.length ∧ s.buf.length ≤ s.cap ∧ s.pktLen ≤ 22 := by
  simp only [Memory.wf, Bool.and_eq_true, decide_eq_true_eq, and_assoc]
  exact Iff.rfl

/-- The reset state has the canonical form, whatever the capacity. -/
theorem Memory.wf_reset : Memory.wf State.reset = true := by
  simp [Memory.wf, State.reset, State.pktLen]

theorem Memory.wf_built (cap : Nat) : Memory.wf (State.built cap) = true := by
  simp [Memory.wf, State.built, State.reset, State.pktLen]

theorem Memory.wf_returns {s : State} (v : Ret) (h : Memory.wf s = true) : Memory.wf (s.returns v) = true := h

theorem Memory.wf_goto {s : State} (c : BitVec 3) (h : Memory.wf s = true) : Memory.wf (s.goto c) = true := h

theorem Memory.wf_srcFeed {s : State} (bytes : List Byte) (h : Memory.wf s = true) :
    Memory.wf (s.srcFeed bytes) = true := h

theorem Memory.wf_sinkAddAll {s : State} (ms : List Meas) (h : Memory.wf s = true) :
    Memory.wf (s.sinkAddAll ms) = true := by
  rw [State.sinkAddAll_eq]
  exact h

theorem Memory.wf_srcNextByte {s t : State} {b : Byte} (h : Memory.wf s = true) (hr : s.srcNextByte = .ok b t) :
    Memory.wf t = true := by
  cases hs : s.src with
  | nil =>
    rw [State.srcNextByte_of_nil hs] at hr
    cases hr
  | cons v rest =>
    rw [State.srcNextByte_of_cons hs] at hr
    cases hr
    exact h

theorem Memory.wf_bufPush {s : State} (b : Byte) (h : Memory.wf s = true) : Memory.wf (s.bufPush b).2 = true := by
  by_cases hl : s.buf.length < s.cap
  · rw [State.bufPush_of_lt b hl]
    simp only [Memory.wf_iff, State.pktLen, List.length_append, List.length_singleton] at h ⊢
    omega
  · rw [State.bufPush_of_le b (Nat.not_lt.1 hl)]
    exact h

theorem Memory.wf_bufPopFront {s t : State} {b : Byte} (h : Memory.wf s = true) (hr : s.bufPopFront = .ok b t) :
    Memory.wf t = true := by
  cases hs : s.buf with
  | nil =>
    rw [State.bufPopFront_of_nil hs] at hr
    cases hr
  | cons v rest =>
    rw [State.bufPopFront_of_cons hs] at hr
    cases hr
    simp only [Memory.wf_iff, State.pktLen, hs, List.length_cons] at h ⊢
    omega

theorem Memory.wf_bufPopMany {s t : State} (n : Nat) (h : Memory.wf s = true) (hr : s.bufPopMany n = .ok () t) :
    Memory.wf t = true := by
  by_cases hn : n ≤ s.buf.length
  · rw [State.bufPopMany_of_le n s hn] at hr
    cases hr
    simp only [Memory.wf_iff, State.pktLen, List.length_drop] at h ⊢
    omega
  · rw [State.bufPopMany_of_lt n s (Nat.not_le.1 hn)] at hr
    cases hr

theorem Memory.wf_bufNext {s t : State} {b : Byte} (h : Memory.wf s = true) (hr : s.bufNext = .ok b t) :
    Memory.wf t = true := by
  by_cases hc : s.cur < s.buf.length
  · rw [State.bufNext_of_lt hc] at hr
    cases hr
    simp only [Memory.wf_iff, State.pktLen] at h ⊢
    omega
  · rw [State.bufNext_of_le (Nat.not_lt.1 hc)] at hr
    cases hr

theorem Memory.wf_refill {s t : State} (h : Memory.wf s = true) (hr : s.refill = .ok () t) :
    Memory.wf t = true := by
  rw [State.refill_eq] at hr
  cases hr
  simp only [Memory.wf_iff, State.pktLen, List.length_append, List.length_take] at h ⊢
  omega

theorem Memory.wf_enterCall {s t : State} (h : Memory.wf s = true) (hr : s.enterCall = .ok () t) :
    Memory.wf t = true := by
  rw [State.enterCall_eq] at hr
  cases hr
  simp only [Memory.wf_iff, State.pktLen, List.length_append, List.length_take] at h ⊢
  omega

theorem Memory.wf_pktClear {s : State} (h : Memory.wf s = true) : Memory.wf s.pktClear = true := by
  rw [Memory.wf_iff] at h ⊢
  exact ⟨h.1, h.2.1, Nat.zero_le _⟩

theorem Memory.wf_pktAppend {s t : State} (b : Byte) (h : Memory.wf s = true) (hr : s.pktAppend b = .ok () t) :
    Memory.wf t = true := by
  by_cases hp : s.pktLen < 22
  · rw [State.pktAppend_of_lt b hp] at hr
    cases hr
    simp only [Memory.wf_iff, State.pktLen, List.length_append, List.length_singleton] at h hp ⊢
    omega
  · rw [State.pktAppend_of_le b (Nat.not_lt.1 hp)] at hr
    cases hr

theorem Memory.wf_resetBlock (s : State) : Memory.wf s.resetBlock = true := by
  rw [Memory.wf_iff]
  exact ⟨Nat.le_refl _, Nat.zero_le _, Nat.zero_le _⟩

end Sys2Proof.Machine
end

