-- ==== Sys2Proof/Laws/Operands.lean ====
section
/-! SUPPORT. The value of each assembled operand, as numbers (R54, R76, R77, R191). -/

namespace Sys2Proof.Machine

/-- R54: the lower-addressed byte is the less significant. -/
theorem le16_eq_append (lo hi : Byte) : le16 lo hi = hi ++ lo := by
  have h : ∀ i : Fin 16, (le16 lo hi).getLsbD i = if (i : Nat) < 8 then lo.getLsbD i else hi.getLsbD (i - 8) := by
    intro i
    fin_cases i <;> simp [le16]
  refine BitVec.eq_of_getLsbD_eq fun i hi' => ?_
  rw [BitVec.getLsbD_append]
  exact h ⟨i, hi'⟩

theorem le16_toNat (lo hi : Byte) : (le16 lo hi).toNat = lo.toNat + 256 * hi.toNat := by
  have h := lo.isLt
  rw [le16_eq_append, BitVec.toNat_append, ← Nat.shiftLeft_add_eq_or_of_lt h, Nat.shiftLeft_eq]
  omega

/-- R190: the index range, on numbers. -/
theorem indexOk_iff (b : Byte) : indexOk b = true ↔ 160 ≤ b.toNat ∧ b.toNat ≤ 249 := by
  simp only [indexOk, Bool.and_eq_true, decide_eq_true_eq, BitVec.le_def]
  exact Iff.rfl

/-- R77: the angular index of a valid index byte. -/
theorem angleOf_toNat {b : Byte} (k : Fin 4) (h : b.toNat ≤ 249) :
    (angleOf b k).toNat = 4 * (b.toNat - 160) + k.val := by
  have hk := k.isLt
  simp only [angleOf, indexMin, Nat.shiftLeft_eq, BitVec.toNat_ofNat]
  omega

/-- R76: the 14-bit distance. -/
theorem distanceOf_toNat (p : Packet) (k : Fin 4) :
    (distanceOf p k).toNat = (p[4 + 4 * k.val].toNat + 256 * p[5 + 4 * k.val].toNat) % 16384 := by
  rw [distanceOf, distWord, BitVec.toNat_and, le16_toNat]
  exact Nat.and_two_pow_sub_one_eq_mod _ 14

/-- R191: a turn of the loop does not wrap while the accumulator is below `2^26` (R193). -/
theorem chkTurn_toNat (acc : BitVec 32) (w : U16) (h : acc.toNat < 2 ^ 26) :
    (chkTurn acc w).toNat = acc.toNat * 2 + w.toNat := by
  have hw := w.isLt
  rw [chkTurn, BitVec.toNat_add, BitVec.toNat_shiftLeft, BitVec.toNat_setWidth, Nat.shiftLeft_eq]
  omega

/-- R191: the fold, on numbers. -/
theorem chkFold_toNat (acc : BitVec 32) (h : acc.toNat < 2 ^ 31) :
    (chkFold acc).toNat = acc.toNat % 2 ^ 15 + acc.toNat / 2 ^ 15 := by
  have h1 : (acc &&& chkMask).toNat = acc.toNat % 2 ^ 15 := by
    rw [BitVec.toNat_and]
    exact Nat.and_two_pow_sub_one_eq_mod _ 15
  have h2 : (acc >>> chkFoldShift).toNat = acc.toNat / 2 ^ 15 := by
    rw [BitVec.toNat_ushiftRight, Nat.shiftRight_eq_div_pow]
    rfl
  rw [chkFold, BitVec.toNat_add, h1, h2]
  omega

/-- R191: the mask, on numbers. -/
theorem checksumOf_toNat (p : Packet) : (checksumOf p).toNat = (chkFold (chkAcc p)).toNat % 2 ^ 15 := by
  rw [checksumOf, BitVec.toNat_setWidth, BitVec.toNat_and]
  have h := Nat.and_two_pow_sub_one_eq_mod (chkFold (chkAcc p)).toNat 15
  rw [show chkMask.toNat = 2 ^ 15 - 1 from rfl, h]
  omega

end Sys2Proof.Machine
end

