-- ==== Sys2Proof/Laws/PerInstr.lean ====
section
/-! SUPPORT. The per-instruction families of LAWS.json: one Statement and one lemma per constructor of Instr. -/

namespace Sys2Proof.Laws.RoundTrip

/-- Decoding the encoding of an instruction gives the instruction back (R79, R82). -/
def Statement (i : Instr) : Prop := decode (encode i) = .ok i

theorem reset : Statement .reset := rfl
theorem parse : Statement .parse := rfl
theorem srcIsEmpty : Statement .srcIsEmpty := rfl
theorem srcNextByte : Statement .srcNextByte := rfl
theorem sinkAdd (a d : U16) : Statement (.sinkAdd a d) :=
  decodeOp_of_reader (w := ⟨0x04#5, [a.toNat, d.toNat]⟩) (rd := argsU16Pair .sinkAdd) rfl (argsU16Pair_toNat _ a d)
theorem sinkSize : Statement .sinkSize := rfl
theorem bufPush (b : Byte) : Statement (.bufPush b) :=
  decodeOp_of_reader (w := ⟨0x08#5, [b.toNat]⟩) (rd := argsByte .bufPush) rfl (argsByte_toNat _ b)
theorem bufPopFront : Statement .bufPopFront := rfl
theorem bufPeekAt (o : Nat) : Statement (.bufPeekAt o) := rfl
theorem bufNext : Statement .bufNext := rfl
theorem bufLen : Statement .bufLen := rfl
theorem bufIsScanExhausted : Statement .bufIsScanExhausted := rfl
theorem bufRefill : Statement .bufRefill := rfl
theorem pktClear : Statement .pktClear := rfl
theorem pktAppend (b : Byte) : Statement (.pktAppend b) :=
  decodeOp_of_reader (w := ⟨0x11#5, [b.toNat]⟩) (rd := argsByte .pktAppend) rfl (argsByte_toNat _ b)
theorem pktIndexByte : Statement .pktIndexByte := rfl
theorem pktSpeed : Statement .pktSpeed := rfl
theorem decAngle (k : Fin 4) : Statement (.decAngle k) :=
  decodeOp_of_reader (w := ⟨0x14#5, [k.val]⟩) (rd := argsSlot .decAngle) rfl (argsSlot_val _ k)
theorem decDist (k : Fin 4) : Statement (.decDist k) :=
  decodeOp_of_reader (w := ⟨0x15#5, [k.val]⟩) (rd := argsSlot .decDist) rfl (argsSlot_val _ k)
theorem decMeasurements : Statement .decMeasurements := rfl
theorem valIndex : Statement .valIndex := rfl
theorem valChecksum : Statement .valChecksum := rfl
theorem valVerdict : Statement .valVerdict := rfl
theorem hostFeed (bytes : List Byte) : Statement (.hostFeed bytes) :=
  decodeOp_of_reader (w := ⟨0x1F#5, bytes.map BitVec.toNat⟩) (rd := argsBytes .hostFeed) rfl (argsBytes_toNat _ bytes)
theorem fsmResetting : Statement .fsmResetting := rfl
theorem fsmStartPause : Statement .fsmStartPause := rfl
theorem fsmStartHit : Statement .fsmStartHit := rfl
theorem fsmStartDrop : Statement .fsmStartDrop := rfl
theorem fsmPayloadPause : Statement .fsmPayloadPause := rfl
theorem fsmPayloadTake : Statement .fsmPayloadTake := rfl
theorem fsmValidateFail : Statement .fsmValidateFail := rfl
theorem fsmValidatePass : Statement .fsmValidatePass := rfl
theorem fsmEmit : Statement .fsmEmit := rfl

end Sys2Proof.Laws.RoundTrip
end

