-- ==== Sys2Proof/Laws/Step.lean ====
section
/-! SUPPORT. The step in terms of `exec` and `microStep`, once (R130, log entry 4). -/

namespace Sys2Proof.Machine

/-- The meaning of a micro-step's instruction is the micro-step. -/
theorem exec_instr (m : MicroStep) (s : State) : exec m.instr s = runMicro m s := by cases m <;> rfl

/-- While a PARSE runs, the block's turn is the micro-step of R130, which returns the count when it ends the
call. -/
theorem blockTurn_run_of_cont {s : State} (h : s.cont = true) :
    s.blockTurn.run exec = finishMicro (microStep s) := by
  rw [State.blockTurn, if_pos h, microStep]
  cases s.selector with
  | error f => rfl
  | ok sel =>
    cases hd : decodeSel sel with
    | none => simp [decode, hd, Turn.run, finishMicro, refusalOf]
    | some m => simp [decode, hd, Turn.run, exec_instr]

/-- Between calls the block's turn is to do nothing (R247). -/
theorem blockTurn_run_of_idle {s : State} (h : s.cont = false) : s.blockTurn.run exec = .next s := by
  simp [State.blockTurn, h, Turn.run]

/-- The turn of an issued operation is its meaning. -/
theorem opTurn_run_of_ok {s : State} {w : OpWord} {i : Instr} (h : decode (.op5 w) = .ok i) :
    (s.opTurn w).run exec = exec i s := by
  simp [State.opTurn, h, Turn.run]

/-- The turn of a word that is no operation is its refusal. -/
theorem opTurn_run_of_error {s : State} {w : OpWord} {e : DecodeError} (h : decode (.op5 w) = .error e) :
    (s.opTurn w).run exec = .refused (refusalOf e) := by
  simp [State.opTurn, h, Turn.run]

/-- With no act held, no handler issues anything, and a step is its turn. -/
theorem step_of_unheld {s : State} (h : nestedPorts s.script = []) : step s = (fetch s).run exec := by
  simp [step, Turn.runWith, h]

/-- A step that answers a next state is its turn: no handler issued a PARSE or RESET (R216). -/
theorem step_next {s t : State} (h : step s = .next t) : (fetch s).run exec = .next t := by
  rw [step, Turn.runWith] at h
  split at h
  · cases h
  · exact h

/-- What a step does, by the host's next act. -/
theorem step_eq (s : State) :
    step s =
      if s.cap < 22 then .refused .config
      else
        match s.script with
        | [] => s.blockTurn.run exec
        | .pass :: rest => { s with script := rest }.blockTurn.run exec
        | .inside w :: rest => ({ s with script := rest }.opTurn w).run exec
        | .call w :: rest =>
          if s.cont then s.blockTurn.run exec else ({ s with script := rest }.opTurn w).run exec
        | .enter :: rest =>
          if s.cont then s.blockTurn.run exec else { s with script := rest }.enterCall.micro
        | .nested p c :: rest => (s.turnFrom [.nested p c] rest).runWith exec (.nested p c :: rest) := by
  by_cases hc : s.cap < 22
  · simp [step, fetch, pktSize, hc, Turn.runWith, Turn.ports, Turn.run]
  · have hf : fetch s = s.turnFrom [] s.script := by simp [fetch, pktSize, hc]
    rw [if_neg hc]
    cases hs : s.script with
    | nil => rw [step_of_unheld (by rw [hs]; rfl), hf, hs]; rfl
    | cons e rest =>
      cases e with
      | nested p c => rw [step, hf, hs]; rfl
      | pass => rw [step_of_unheld (by rw [hs]; rfl), hf, hs]; rfl
      | inside w => rw [step_of_unheld (by rw [hs]; rfl), hf, hs]; rfl
      | call w => rw [step_of_unheld (by rw [hs]; rfl), hf, hs]; cases h : s.cont <;> simp [State.turnFrom, h]
      | enter => rw [step_of_unheld (by rw [hs]; rfl), hf, hs]; cases h : s.cont <;> simp [State.turnFrom, h, Turn.run]

/-- Whatever acts are pending, a turn is the block's, an issued operation, or the start of a call between calls, in the
state with some acts left. -/
theorem turnFrom_cases (s : State) (acts held : List Event) : ∃ rest : List Event,
    s.turnFrom held acts = { s with script := rest }.blockTurn ∨
    (∃ w, s.turnFrom held acts = ({ s with script := rest }.opTurn w)) ∨
    (s.cont = false ∧ s.turnFrom held acts = .enter { s with script := rest }) := by
  induction acts generalizing held with
  | nil => exact ⟨s.script, .inl rfl⟩
  | cons e rest ih =>
    cases e with
    | nested p c => exact ih (held ++ [.nested p c])
    | pass => exact ⟨held ++ rest, .inl rfl⟩
    | inside w => exact ⟨held ++ rest, .inr (.inl ⟨w, rfl⟩)⟩
    | call w =>
      by_cases hc : s.cont = true
      · exact ⟨s.script, .inl (by rw [State.turnFrom, if_pos hc])⟩
      · exact ⟨held ++ rest, .inr (.inl ⟨w, by rw [State.turnFrom, if_neg hc]⟩)⟩
    | enter =>
      by_cases hc : s.cont = true
      · exact ⟨s.script, .inl (by rw [State.turnFrom, if_pos hc])⟩
      · exact ⟨held ++ rest, .inr (.inr ⟨Bool.not_eq_true _ ▸ hc, by rw [State.turnFrom, if_neg hc]⟩)⟩

/-- The machine's step is `step`. -/
theorem core_step (s : State) : Sys2Proof.core.step s = step s := rfl

/-- A run whose first step answers a next state goes on from there. -/
theorem core_run_next (n : Nat) {s t : State} (h : step s = .next t) :
    Sys2Proof.core.run (n + 1) s = Sys2Proof.core.run n t := by
  rw [← core_step] at h
  simp only [Host.Core.run, h]

end Sys2Proof.Machine
end

