-- ==== Sys2Proof/Laws/Reentry.lean ====
section
/-! SUPPORT. Which ports the micro-steps of a call use, and what a held act does to a step (R216, log entry 14). -/

namespace Sys2Proof.Machine

/-- Outside EMITTING a micro-step calls no port. -/
theorem microPorts_of_ne {s : State} (h : s.st ≠ stEmitting) : s.microPorts = [] := by
  unfold State.microPorts State.selector
  cases s.selectorByte with
  | error f => rfl
  | ok b =>
    cases s.selectorVerdict with
    | error f => rfl
    | ok v =>
      simp only [decodeSel_selectorWord, rowInWords]
      repeat' split
      all_goals simp_all

/-- In EMITTING, with a packet that decodes, a micro-step calls the sink. -/
theorem microPorts_emitting {s : State} {ms : List Meas} (hst : s.st = stEmitting) (hcur : s.cur ≤ s.buf.length)
    (hm : s.decMeasurements = .ok ms) : s.microPorts = [.sinkAdd] := by
  obtain ⟨b, hb⟩ := s.selectorByte_of_le hcur
  have hv := s.selectorVerdict_of_ne (by rw [hst]; decide)
  simp [State.microPorts, State.selector, hb, hv, decodeSel_selectorWord, hst, rowInWords_emitting, State.emitPorts, hm]

/-- The turn of a running PARSE calls what its micro-step calls. -/
theorem blockTurn_ports_of_cont {s : State} (h : s.cont = true) : s.blockTurn.ports = s.microPorts := by
  rw [State.blockTurn, if_pos h, State.microPorts]
  cases s.selector with
  | error f => rfl
  | ok sel =>
    cases hd : decodeSel sel with
    | none => simp [decode, hd, Turn.ports]
    | some m => cases m <;> simp [decode, hd, Turn.ports, MicroStep.instr, State.portsOf]

/-- Between calls the block's turn calls no port. -/
theorem blockTurn_ports_of_idle {s : State} (h : s.cont = false) : s.blockTurn.ports = [] := by
  simp [State.blockTurn, h, Turn.ports]

/-- The refill of a call uses the source only. -/
theorem sinkAdd_not_mem_refillPorts (s : State) : Port.sinkAdd ∉ s.refillPorts := by
  unfold State.refillPorts
  repeat' split
  all_goals simp

/-- A micro-step calls the sink exactly if it delivers something. -/
theorem sinkAdd_mem_microPorts {s t : State} (h : microStep s = .next t) :
    Port.sinkAdd ∈ s.microPorts ↔ s.sink.length < t.sink.length := by
  cases microStep_next h with
  | emit p hst hc hp hi hb =>
    have hm := State.decMeasurements_of_valid hp hi
    simp [microPorts_emitting hst hc hm, measurementsOf_length]
  | resetting hst => simp [microPorts_of_ne (s := s) (by rw [hst]; decide)]
  | pause hst => rcases hst with hst | hst <;> simp [microPorts_of_ne (s := s) (by rw [hst]; decide)]
  | hit hst => simp [microPorts_of_ne (s := s) (by rw [hst]; decide)]
  | drop b hst => simp [microPorts_of_ne (s := s) (by rw [hst]; decide)]
  | take b hst => simp [microPorts_of_ne (s := s) (by rw [hst]; decide)]
  | fail p hst => simp [microPorts_of_ne (s := s) (by rw [hst]; decide)]
  | pass p hst => simp [microPorts_of_ne (s := s) (by rw [hst]; decide)]

/-- No micro-step takes a delivered measurement back (R58). -/
theorem sink_length_le_micro {s t : State} (h : microStep s = .next t) : s.sink.length ≤ t.sink.length := by
  cases microStep_next h <;> simp

theorem sink_length_le_loop (n : Nat) {s t : State} (h : parseLoop n s = .next t) : s.sink.length ≤ t.sink.length :=
  parseLoop_keeps (P := fun u => s.sink.length ≤ u.sink.length)
    (fun _ _ hu hm => Nat.le_trans hu (sink_length_le_micro hm)) n (Nat.le_refl _) h

/-- The micro-steps of a call use the sink exactly if they deliver something (R216, log entry 14). -/
theorem sinkAdd_mem_loopPorts (n : Nat) {s t : State} (h : parseLoop n s = .next t) :
    Port.sinkAdd ∈ loopPorts n s ↔ s.sink.length < t.sink.length := by
  induction n generalizing s with
  | zero =>
    cases h
    simp [loopPorts]
  | succ n ih =>
    rw [parseLoop] at h
    split at h
    · rename_i hc
      split at h
      · rename_i u hu
        have hle := sink_length_le_micro hu
        have hle' := sink_length_le_loop n h
        simp only [loopPorts, if_pos hc, hu, List.mem_append, sinkAdd_mem_microPorts hu, ih h]
        omega
      · cases h
      · cases h
    · rename_i hc
      cases h
      simp [loopPorts, hc]

/-! ## The pending acts play no part in a meaning -/

/-- Apply a function to the next state of an outcome, if it has one. -/
def mapNext (f : State → State) : Out → Out
  | .next t => .next (f t)
  | .fault e => .fault e
  | .refused r => .refused r

theorem microStep_withScript (s : State) (r : List Event) :
    microStep { s with script := r } = mapNext (fun t => { t with script := r }) (microStep s) := by
  rw [microStep_total, microStep_total]
  simp only [State.pktLen]
  repeat' (first | rfl | split)
  all_goals by_cases hp : s.pkt.length < 22 <;> simp only [hp, if_true, if_false] <;> rfl

theorem parseLoop_withScript (n : Nat) (s : State) (r : List Event) :
    parseLoop n { s with script := r } = mapNext (fun t => { t with script := r }) (parseLoop n s) := by
  induction n generalizing s with
  | zero => rfl
  | succ n ih =>
    simp only [parseLoop, microStep_withScript]
    split
    · cases microStep s with
      | next t => exact ih t
      | fault f => rfl
      | refused q => rfl
    · rfl

/-- The state in which the micro-steps of a call begin (R140). -/
def State.callStart (s : State) : State :=
  { s with buf := s.buf ++ s.src.take (s.cap - s.buf.length)
           src := s.src.drop (s.cap - s.buf.length)
           emitted := 0
           cont := true }

/-- PARSE between calls is its micro-steps from there, ended by the count (R140). -/
theorem execParse_of_idle {s : State} (h : s.cont = false) :
    execParse s = finishMicro (parseLoop (callBound s.callStart) s.callStart) := by
  simp only [execParse, h, State.enterCall_eq, State.callStart]
  generalize parseLoop _ _ = o
  cases o <;> rfl

theorem finishMicro_withScript (o : Out) (r : List Event) :
    finishMicro (mapNext (fun t => { t with script := r }) o) =
      mapNext (fun t => { t with script := r }) (finishMicro o) := by
  cases o with
  | next t => cases h : t.cont <;> simp [mapNext, finishMicro, State.returnCount, State.returns, h]
  | fault f => rfl
  | refused q => rfl

theorem execParse_withScript (s : State) (r : List Event) :
    execParse { s with script := r } = mapNext (fun t => { t with script := r }) (execParse s) := by
  by_cases h : s.cont = true
  · simp [execParse, h, mapNext]
  · have hc : s.cont = false := by simpa using h
    rw [execParse_of_idle hc, execParse_of_idle (s := { s with script := r }) hc, ← finishMicro_withScript,
      ← parseLoop_withScript]
    rfl

theorem loopPorts_withScript (n : Nat) (s : State) (r : List Event) :
    loopPorts n { s with script := r } = loopPorts n s := by
  induction n generalizing s with
  | zero => rfl
  | succ n ih =>
    simp only [loopPorts, microStep_withScript]
    split
    · refine congrArg (s.microPorts ++ ·) ?_
      cases microStep s with
      | next t => exact ih t
      | fault f => rfl
      | refused q => rfl
    · rfl

/-- What a PARSE calls: the ports of its refill, then those of its micro-steps. -/
theorem parsePorts_eq (s : State) :
    s.parsePorts = s.refillPorts ++ loopPorts (callBound s.callStart) s.callStart := by
  rw [State.parsePorts, State.enterCall_eq]
  rfl

theorem parsePorts_withScript (s : State) (r : List Event) : { s with script := r }.parsePorts = s.parsePorts := by
  rw [parsePorts_eq, parsePorts_eq]
  exact congrArg (s.refillPorts ++ ·) (loopPorts_withScript _ s.callStart r)

/-- A PARSE that completes calls the sink exactly if it delivers something (R216). -/
theorem sinkAdd_mem_parsePorts {s t : State} (h : execParse s = .next t) :
    Port.sinkAdd ∈ s.parsePorts ↔ s.sink.length < t.sink.length := by
  obtain ⟨_, u, v, rfl, hv, rfl⟩ := execParse_next h
  have hl := sinkAdd_mem_loopPorts _ hv
  have hs : v.returnCount.sink = v.sink := by unfold State.returnCount; split <;> rfl
  rw [parsePorts_eq, List.mem_append, hs]
  exact ⟨fun h => h.elim (fun h => absurd h (sinkAdd_not_mem_refillPorts s)) hl.1, fun h => .inr (hl.2 h)⟩

/-- A micro-step calls the sink or nothing. -/
theorem mem_microPorts {s : State} {p : Port} (h : p ∈ s.microPorts) : p = .sinkAdd ∧ s.st = stEmitting := by
  by_cases hst : s.st = stEmitting
  · refine ⟨?_, hst⟩
    revert h
    unfold State.microPorts State.emitPorts
    repeat' split
    all_goals simp
  · simp [microPorts_of_ne hst] at h

/-- The micro-steps of a call use the sink or nothing. -/
theorem mem_loopPorts (n : Nat) {s : State} {p : Port} (h : p ∈ loopPorts n s) : p = .sinkAdd := by
  induction n generalizing s with
  | zero => simp [loopPorts] at h
  | succ n ih =>
    rw [loopPorts] at h
    split at h
    · rcases List.mem_append.1 h with h | h
      · exact (mem_microPorts h).1
      · split at h
        · exact ih h
        · simp at h
        · simp at h
    · simp at h

/-- A port of a refill is called if there is room, and a byte is taken only from a source that holds one (R106). -/
theorem mem_refillPorts {s : State} {p : Port} :
    p ∈ s.refillPorts ↔ s.buf.length < s.cap ∧ (p = .srcIsEmpty ∨ (p = .srcNextByte ∧ s.src ≠ [])) := by
  unfold State.refillPorts State.hasRoom State.srcIsEmpty
  by_cases hr : s.buf.length < s.cap <;> cases hs : s.src <;> simp [hr]

/-! ## A step with one act held -/

/-- A handler issues a PARSE or RESET from inside the call that the turn makes: refused. -/
theorem runWith_of_mem {ex : Instr → State → Out} {p : Port} {c : Command} {rest : List Event} {t : Turn}
    (h : p ∈ t.ports) : t.runWith ex (.nested p c :: rest) = .refused .reentrant := by
  rw [Turn.runWith, if_pos]
  exact List.any_eq_true.2 ⟨p, h, by simp [nestedPorts]⟩

/-- The turn does not call the port, and no other act is held: it is taken. -/
theorem runWith_of_not_mem {ex : Instr → State → Out} {p : Port} {c : Command} {rest : List Event} {t : Turn}
    (hr : nestedPorts rest = []) (h : p ∉ t.ports) : t.runWith ex (.nested p c :: rest) = t.run ex := by
  rw [Turn.runWith, if_neg]
  intro hany
  obtain ⟨q, hq, hc⟩ := List.any_eq_true.1 hany
  simp only [nestedPorts, hr, List.contains_cons, List.contains_nil, Bool.or_false, beq_iff_eq] at hc
  exact h (hc ▸ hq)

end Sys2Proof.Machine
end

