-- ==== Sys2Proof/Tests/Slice0.lean ====
section
/-! SUPPORT. The model's own tests, their expected values from `95_test_vectors.md` (named in each comment) or by
hand from the rule cited, and for every statement with hypotheses a witness that meets them. -/

namespace Sys2Proof.Tests

open Sys2Proof.Machine

/-! ## Well-formedness: one ill-formed term for each check -/

/-- R88: code 0x06 has no row. -/
theorem test_wf_unassigned : (Code.op5 ⟨0x06#5, []⟩).wf = false := by decide

/-- R79: RESET takes no operand. -/
theorem test_wf_nothing : (Code.op5 ⟨0x00#5, [0]⟩).wf = false := by decide

/-- R79: BUF_PUSH takes one byte, and needs it. -/
theorem test_wf_arity : (Code.op5 ⟨0x08#5, []⟩).wf = false := by decide

/-- R8: a byte is below 256. -/
theorem test_wf_byte : (Code.op5 ⟨0x08#5, [256]⟩).wf = false := by decide

/-- R79: BUF_PEEK_AT takes one offset only. -/
theorem test_wf_natural : (Code.op5 ⟨0x0A#5, [0, 0]⟩).wf = false := by decide

/-- R79: a slot number is 0 to 3. -/
theorem test_wf_slot : (Code.op5 ⟨0x14#5, [4]⟩).wf = false := by decide

/-- R55: SINK_ADD's angular index is a u16. -/
theorem test_wf_angle : (Code.op5 ⟨0x04#5, [65536, 0]⟩).wf = false := by decide

/-- R55: SINK_ADD's distance is a u16. -/
theorem test_wf_distance : (Code.op5 ⟨0x04#5, [0, 65536]⟩).wf = false := by decide

/-- R8: every byte of HOST_FEED's sequence is below 256. -/
theorem test_wf_bytes : (Code.op5 ⟨0x1F#5, [0, 255, 256]⟩).wf = false := by decide

/-- R87: state code 5 is reserved. -/
theorem test_wf_selector_state : (Code.sel13 0b0000000000101#13).wf = false := by decide

/-- R81: the byte part is 0 where the scan is exhausted. -/
theorem test_wf_selector_byte : (Code.sel13 0b0000000011001#13).wf = false := by decide

/-- R81: the verdict is 1 only in VALIDATING. -/
theorem test_wf_selector_verdict : (Code.sel13 0b1000000000001#13).wf = false := by decide

/-! ## Decoding: a word written out from the encoding, for every constructor (R79, R82) -/

theorem test_decode_RESET : decode (.op5 ⟨0b00000#5, []⟩) = .ok .reset := by decide
theorem test_decode_PARSE : decode (.op5 ⟨0b00001#5, []⟩) = .ok .parse := by decide
theorem test_decode_SRC_IS_EMPTY : decode (.op5 ⟨0b00010#5, []⟩) = .ok .srcIsEmpty := by decide
theorem test_decode_SRC_NEXT_BYTE : decode (.op5 ⟨0b00011#5, []⟩) = .ok .srcNextByte := by decide
theorem test_decode_SINK_ADD : decode (.op5 ⟨0b00100#5, [6, 16383]⟩) = .ok (.sinkAdd 6#16 0x3FFF#16) := by decide
theorem test_decode_SINK_SIZE : decode (.op5 ⟨0b00101#5, []⟩) = .ok .sinkSize := by decide
theorem test_decode_BUF_PUSH : decode (.op5 ⟨0b01000#5, [0xA0]⟩) = .ok (.bufPush 0xA0#8) := by decide
theorem test_decode_BUF_POP_FRONT : decode (.op5 ⟨0b01001#5, []⟩) = .ok .bufPopFront := by decide
theorem test_decode_BUF_PEEK_AT : decode (.op5 ⟨0b01010#5, [300]⟩) = .ok (.bufPeekAt 300) := by decide
theorem test_decode_BUF_NEXT : decode (.op5 ⟨0b01011#5, []⟩) = .ok .bufNext := by decide
theorem test_decode_BUF_LEN : decode (.op5 ⟨0b01100#5, []⟩) = .ok .bufLen := by decide
theorem test_decode_BUF_IS_SCAN_EXHAUSTED : decode (.op5 ⟨0b01101#5, []⟩) = .ok .bufIsScanExhausted := by decide
theorem test_decode_BUF_REFILL : decode (.op5 ⟨0b01110#5, []⟩) = .ok .bufRefill := by decide
theorem test_decode_PKT_CLEAR : decode (.op5 ⟨0b10000#5, []⟩) = .ok .pktClear := by decide
theorem test_decode_PKT_APPEND : decode (.op5 ⟨0b10001#5, [255]⟩) = .ok (.pktAppend 0xFF#8) := by decide
theorem test_decode_PKT_INDEX_BYTE : decode (.op5 ⟨0b10010#5, []⟩) = .ok .pktIndexByte := by decide
theorem test_decode_PKT_SPEED : decode (.op5 ⟨0b10011#5, []⟩) = .ok .pktSpeed := by decide
theorem test_decode_DEC_ANGLE : decode (.op5 ⟨0b10100#5, [3]⟩) = .ok (.decAngle 3) := by decide
theorem test_decode_DEC_DIST : decode (.op5 ⟨0b10101#5, [2]⟩) = .ok (.decDist 2) := by decide
theorem test_decode_DEC_MEASUREMENTS : decode (.op5 ⟨0b10110#5, []⟩) = .ok .decMeasurements := by decide
theorem test_decode_VAL_INDEX : decode (.op5 ⟨0b11000#5, []⟩) = .ok .valIndex := by decide
theorem test_decode_VAL_CHECKSUM : decode (.op5 ⟨0b11001#5, []⟩) = .ok .valChecksum := by decide
theorem test_decode_VAL_VERDICT : decode (.op5 ⟨0b11010#5, []⟩) = .ok .valVerdict := by decide
theorem test_decode_HOST_FEED :
    decode (.op5 ⟨0b11111#5, [0x11, 0x22]⟩) = .ok (.hostFeed [0x11#8, 0x22#8]) := by decide

/-- V-ENC-1: verdict 0, byte 0x55, exh 0, st 0. -/
theorem test_decode_FSM_RESETTING : decode (.sel13 0b0010101010000#13) = .ok .fsmResetting := by decide

/-- V-ENC-2. -/
theorem test_decode_FSM_START_PAUSE : decode (.sel13 0b0000000001001#13) = .ok .fsmStartPause := by decide

/-- V-ENC-3: byte 0xFA. -/
theorem test_decode_FSM_START_HIT : decode (.sel13 0b0111110100001#13) = .ok .fsmStartHit := by decide

/-- V-ENC-4: byte 0xFB, one bit from the marker, fails row 3 and matches row 4. -/
theorem test_decode_FSM_START_DROP : decode (.sel13 0b0111110110001#13) = .ok .fsmStartDrop := by decide

/-- V-ENC-6. -/
theorem test_decode_FSM_PAYLOAD_PAUSE : decode (.sel13 0b0000000001010#13) = .ok .fsmPayloadPause := by decide

/-- V-ENC-7. -/
theorem test_decode_FSM_PAYLOAD_TAKE : decode (.sel13 0b0111110100010#13) = .ok .fsmPayloadTake := by decide

/-- V-ENC-8. -/
theorem test_decode_FSM_VALIDATE_FAIL : decode (.sel13 0b0000000001011#13) = .ok .fsmValidateFail := by decide

/-- V-ENC-10. -/
theorem test_decode_FSM_VALIDATE_PASS : decode (.sel13 0b1111110100011#13) = .ok .fsmValidatePass := by decide

/-- V-ENC-11. -/
theorem test_decode_FSM_EMIT : decode (.sel13 0b0111110100100#13) = .ok .fsmEmit := by decide

/-- V-ENC-12: a reserved state code. -/
theorem test_decode_reserved_state : decode (.sel13 0b0000000000101#13) = .error (.badState 5#3) := by decide

/-- R88: an unassigned identifier. -/
theorem test_decode_unassigned : decode (.op5 ⟨0b00110#5, []⟩) = .error (.unassignedOp 0x06#5) := by decide

/-- R79: a slot number of 4 is no operand of DEC_ANGLE. -/
theorem test_decode_bad_slot : decode (.op5 ⟨0b10100#5, [4]⟩) = .error (.badOperands 0x14#5) := by decide

/-! ## Sample packets and states -/

/-- EX of `95_test_vectors.md`, V-SRC-1. -/
def EX : List Byte := sampleValid

/-- EX as a packet. -/
def packetEX : Packet :=
  #v[0xFA#8, 0xA0#8, 0x27#8, 0x4B#8, 0x97#8, 0x01#8, 0xBB#8, 0x01#8, 0x97#8, 0x01#8, 0xB4#8, 0x00#8,
     0x98#8, 0x01#8, 0x53#8, 0x00#8, 0x99#8, 0x01#8, 0x93#8, 0x00#8, 0x4E#8, 0x28#8]

/-- B9 of V-VAL-2: index 0x9F, right checksum. -/
def B9 : List Byte := [0xFA#8, 0x9F#8] ++ (EX.drop 2).take 18 ++ [0x4A#8, 0x28#8]

/-- BAD of V-VAL-7: EX with byte 10 changed to 0xFA. -/
def BAD : List Byte := EX.take 10 ++ [0xFA#8] ++ EX.drop 11

/-- BAD as a packet. -/
def packetBAD : Packet :=
  #v[0xFA#8, 0xA0#8, 0x27#8, 0x4B#8, 0x97#8, 0x01#8, 0xBB#8, 0x01#8, 0x97#8, 0x01#8, 0xFA#8, 0x00#8,
     0x98#8, 0x01#8, 0x53#8, 0x00#8, 0x99#8, 0x01#8, 0x93#8, 0x00#8, 0x4E#8, 0x28#8]

/-- P2PKT of `95_test_vectors.md` section 2.4. -/
def P2PKT : List Byte :=
  [0xFA#8, 0xA1#8, 0x27#8, 0x4B#8, 0x64#8, 0x00#8, 0x01#8, 0x00#8, 0xC8#8, 0x40#8, 0x02#8, 0x00#8,
   0xFF#8, 0xBF#8, 0x03#8, 0x00#8, 0x00#8, 0xC0#8, 0x04#8, 0x00#8, 0xA5#8, 0x69#8]

/-- MSK of V-MASK-C1. -/
def MSK : List Byte :=
  [0xFA#8, 0xA0#8, 0xFF#8, 0xFF#8, 0x15#8, 0x00#8, 0xFF#8, 0xFF#8, 0x00#8, 0x00#8, 0xFF#8, 0xFF#8,
   0x00#8, 0x00#8, 0xFF#8, 0xFF#8, 0x00#8, 0x00#8, 0xFF#8, 0xFF#8, 0x58#8, 0x82#8]

/-- A valid packet with the largest index (V-VAL-11). -/
def MAX : List Byte := [0xFA#8, 0xF9#8] ++ List.replicate 18 0xFF#8 ++ [0xE6#8, 0x79#8]

/-- An instance of capacity 64 with a state code, a buffer, a cursor and a packet. -/
def bench (st : BitVec 3) (buf : List Byte) (cur : Nat) (pkt : List Byte) : State :=
  { State.built 64 with st := st, buf := buf, cur := cur, pkt := pkt }

/-- The same inside a running PARSE. -/
def running (st : BitVec 3) (buf : List Byte) (cur : Nat) (pkt : List Byte) : State :=
  { bench st buf cur pkt with cont := true }

/-- The instance with a packet only. -/
def holding (pkt : List Byte) : State := bench 0#3 [] 0 pkt

/-! ## Frame buffer (V-BUF) -/

/-- V-BUF-1. -/
theorem test_push_appends :
    (nextOf (exec (.bufPush 0xA0#8) { bench 0#3 [0xFA#8] 0 [] with cap := 22 })).map (fun t => (t.buf, t.ret))
      = some ([0xFA#8, 0xA0#8], .bool true) := by decide

/-- V-BUF-2. -/
theorem test_push_full :
    (nextOf (exec (.bufPush 0x11#8) { bench 0#3 EX 0 [] with cap := 22 })).map (fun t => (t.buf, t.ret))
      = some (EX, .bool false) := by decide

/-- V-BUF-3. -/
theorem test_pop_moves_cursor :
    (nextOf (exec .bufPopFront (bench 0#3 [0x00#8, 0xFA#8] 1 []))).map (fun t => (t.buf, t.cur, t.ret))
      = some ([0xFA#8], 0, .byte 0x00#8) := by decide

/-- V-BUF-5. -/
theorem test_pop_empty : faultOf (exec .bufPopFront (bench 0#3 [] 0 [])) = some (.popEmpty .bufPopFront) := by decide

/-- V-BUF-6. -/
theorem test_peek :
    (nextOf (exec (.bufPeekAt 1) (bench 0#3 [0xFA#8, 0xA0#8] 0 []))).map (fun t => (t.buf, t.cur, t.ret))
      = some ([0xFA#8, 0xA0#8], 0, .byte 0xA0#8) := by decide

/-- V-BUF-7. -/
theorem test_peek_range :
    faultOf (exec (.bufPeekAt 2) (bench 0#3 [0xFA#8, 0xA0#8] 0 [])) = some (.peekRange .bufPeekAt 2) := by decide

/-- V-BUF-8. -/
theorem test_next_advances :
    (nextOf (exec .bufNext (bench 0#3 [0xFA#8, 0xA0#8] 1 []))).map (fun t => (t.buf, t.cur, t.ret))
      = some ([0xFA#8, 0xA0#8], 2, .byte 0xA0#8) := by decide

/-- V-BUF-9. -/
theorem test_next_exhausted :
    faultOf (exec .bufNext (bench 0#3 [0xFA#8] 1 [])) = some (.peekRange .bufNext 1) := by decide

/-- V-BUF-10. -/
theorem test_len_after_reset : (nextOf (exec .bufLen (State.built 64))).map State.ret = some (.nat 0) := by decide

/-- V-BUF-11. -/
theorem test_exhausted :
    (nextOf (exec .bufIsScanExhausted (bench 0#3 [] 0 []))).map State.ret = some (.bool true) := by decide

/-- V-BUF-12. -/
theorem test_not_exhausted :
    (nextOf (exec .bufIsScanExhausted (bench 0#3 [0xFA#8, 0xA0#8] 1 []))).map State.ret = some (.bool false) := by
  decide

/-- V-BUF-13: 44 bytes in the source, room for 22. -/
theorem test_refill_stops_at_capacity :
    (nextOf (exec .bufRefill { State.built 22 with src := EX ++ P2PKT })).map (fun t => (t.buf, t.src))
      = some (EX, P2PKT) := by decide

/-- V-BUF-15. -/
theorem test_refill_appends :
    (nextOf (exec .bufRefill { bench 0#3 [0x01#8] 1 [] with src := [0x02#8, 0x03#8] })).map
        (fun t => (t.buf, t.src, t.cur)) = some ([0x01#8, 0x02#8, 0x03#8], [], 1) := by decide

/-! ## Packet register and field decoding (V-DEC) -/

/-- V-DEC-1. -/
theorem test_clear : (nextOf (exec .pktClear (holding EX))).map State.pktLen = some 0 := by decide

/-- V-DEC-2. -/
theorem test_append : (nextOf (exec (.pktAppend 0xA0#8) (holding [0xFA#8]))).map State.pkt
    = some [0xFA#8, 0xA0#8] := by decide

/-- V-DEC-13. -/
theorem test_append_full : faultOf (exec (.pktAppend 0x00#8) (holding EX)) = some (.pktOverflow 0x00#8) := by decide

/-- V-DEC-9. -/
theorem test_index_byte : (nextOf (exec .pktIndexByte (holding EX))).map State.ret = some (.byte 0xA0#8) := by decide

/-- V-DEC-8. -/
theorem test_speed : (nextOf (exec .pktSpeed (holding EX))).map State.ret = some (.u16 0x4B27#16) := by decide

/-- V-DEC-14. -/
theorem test_speed_unwritten :
    faultOf (exec .pktSpeed (holding (EX.take 5))) = some (.pktUnwritten .pktSpeed 5) := by decide

/-- V-DEC-3: index 0xF9, slot 3. -/
theorem test_angle_largest : (nextOf (exec (.decAngle 3) (holding MAX))).map State.ret = some (.u16 359#16) := by
  decide

/-- V-DEC-15. -/
theorem test_angle_invalid : faultOf (exec (.decAngle 0) (holding B9)) = some (.decodeInvalid 0x9F#8) := by decide

/-- V-DEC-6: word 0xBFFF in group 2. -/
theorem test_dist_masks : (nextOf (exec (.decDist 2) (holding P2PKT))).map State.ret = some (.u16 16383#16) := by
  decide

/-- V-DEC-5: word 0xC000 in group 3. -/
theorem test_dist_flags_only : (nextOf (exec (.decDist 3) (holding P2PKT))).map State.ret = some (.u16 0#16) := by
  decide

/-- V-DEC-11. -/
theorem test_measurements :
    (nextOf (exec .decMeasurements (holding P2PKT))).map State.ret
      = some (.pairs [(4#16, 100#16), (5#16, 200#16), (6#16, 16383#16), (7#16, 0#16)]) := by decide

/-! ## Validator (V-VAL) -/

/-- V-VAL-3: the largest valid index. -/
theorem test_index_ok : (nextOf (exec .valIndex (holding MAX))).map State.ret = some (.bool true) := by decide

/-- V-VAL-2. -/
theorem test_index_low : (nextOf (exec .valIndex (holding B9))).map State.ret = some (.bool false) := by decide

/-- V-VAL-1, the trace of V-SRC-1. -/
theorem test_checksum : (nextOf (exec .valChecksum (holding EX))).map State.ret = some (.u16 0x284E#16) := by decide

/-- V-VAL-12: the 15-bit mask of `90_conflicts.md` C1. -/
theorem test_checksum_mask :
    (nextOf (exec .valChecksum (holding MSK))).map State.ret = some (.u16 0x0258#16) := by decide

/-- V-VAL-1. -/
theorem test_verdict : (nextOf (exec .valVerdict (holding EX))).map State.ret = some (.bool true) := by decide

/-- V-VAL-7. -/
theorem test_verdict_checksum : (nextOf (exec .valVerdict (holding BAD))).map State.ret = some (.bool false) := by
  decide

/-! ## Interfaces (V-IF) -/

/-- V-IF-1. -/
theorem test_src_is_empty : (nextOf (exec .srcIsEmpty (State.built 64))).map State.ret = some (.bool true) := by
  decide

/-- V-IF-3. -/
theorem test_src_next_byte :
    (nextOf (exec .srcNextByte { State.built 64 with src := [0x01#8, 0x02#8] })).map (fun t => (t.src, t.ret))
      = some ([0x02#8], .byte 0x01#8) := by decide

/-- V-IF-4. -/
theorem test_src_empty_read : faultOf (exec .srcNextByte (State.built 64)) = some .srcEmptyRead := by decide

/-- V-IF-5. -/
theorem test_sink_add :
    (nextOf (exec (.sinkAdd 6#16 16383#16) (State.built 64))).map State.sink = some [(6#16, 16383#16)] := by decide

/-- R213. -/
theorem test_sink_size :
    (nextOf (exec .sinkSize { State.built 64 with sink := [(0#16, 407#16)] })).map State.ret = some (.nat 1) := by
  decide

/-- V-IF-7. -/
theorem test_host_feed :
    (nextOf (exec (.hostFeed [0x11#8, 0x22#8]) { State.built 64 with src := [0x01#8] })).map State.src
      = some [0x01#8, 0x11#8, 0x22#8] := by decide

/-! ## Micro-steps (V-FSM), as the step the selector names -/

/-- V-FSM-1. -/
theorem test_fsm_resetting :
    (nextOf (microStep (running 0#3 (B9.drop 1) 21 B9))).map (fun t => (t.st, t.buf, t.cur, t.pkt))
      = some (1#3, B9.drop 1, 0, []) := by decide

/-- V-FSM-2. -/
theorem test_fsm_start_drop :
    (nextOf (microStep (running 1#3 [0x00#8, 0xFA#8] 0 []))).map (fun t => (t.st, t.buf, t.cur))
      = some (1#3, [0xFA#8], 0) := by decide

/-- V-FSM-3. -/
theorem test_fsm_start_pause : nextOf (microStep (running 1#3 [] 0 [])) = some (bench 1#3 [] 0 []) := by decide

/-- V-FSM-4. -/
theorem test_fsm_start_hit :
    nextOf (microStep (running 1#3 [0xFA#8, 0xA0#8] 0 [])) = some (running 2#3 [0xFA#8, 0xA0#8] 1 [0xFA#8]) := by
  decide

/-- V-FSM-5. -/
theorem test_fsm_payload_pause :
    nextOf (microStep (running 2#3 [0xFA#8] 1 [0xFA#8])) = some (bench 2#3 [0xFA#8] 1 [0xFA#8]) := by decide

/-- V-FSM-8: a marker inside a candidate is data. -/
theorem test_fsm_payload_take :
    nextOf (microStep (running 2#3 [0xFA#8, 0xFA#8] 1 [0xFA#8]))
      = some (running 2#3 [0xFA#8, 0xFA#8] 2 [0xFA#8, 0xFA#8]) := by decide

/-- V-FSM-7: the last byte. -/
theorem test_fsm_payload_last :
    nextOf (microStep (running 2#3 EX 21 (EX.take 21))) = some (running 3#3 EX 22 EX) := by decide

/-- V-FSM-9. -/
theorem test_fsm_validate_pass : nextOf (microStep (running 3#3 EX 22 EX)) = some (running 4#3 EX 22 EX) := by decide

/-- V-FSM-10. -/
theorem test_fsm_validate_fail :
    nextOf (microStep (running 3#3 B9 22 B9)) = some (running 0#3 (B9.drop 1) 21 B9) := by decide

/-- V-FSM-11. -/
theorem test_fsm_emit :
    (nextOf (microStep (running 4#3 (EX ++ [0x11#8]) 22 EX))).map
        (fun t => (t.buf, t.emitted, t.sink))
      = some ([0x11#8], 4, [(0#16, 407#16), (1#16, 407#16), (2#16, 408#16), (3#16, 409#16)]) := by decide

/-! ## Reset, PARSE, refusals -/

/-- V-RST-1. -/
theorem test_reset :
    nextOf (exec .reset { bench 2#3 (EX.take 11) 11 (EX.take 11) with src := [0x01#8], sink := [(0#16, 407#16)] })
      = some { State.built 64 with src := [0x01#8], sink := [(0#16, 407#16)] } := by decide

/-- V-RST-2, P13. -/
theorem test_parse_empty :
    nextOf (exec .parse (State.built 22)) = some { State.built 22 with st := 1#3, ret := .nat 0 } := by decide

/-- P2: the first call of a packet in pieces. -/
theorem test_parse_partial :
    nextOf (exec .parse { State.built 64 with src := [0xFA#8] })
      = some { bench 2#3 [0xFA#8] 1 [0xFA#8] with ret := .nat 0 } := by decide

/-- V-IF-8: PARSE issued from inside a PARSE. -/
theorem test_reentrant : refusedOf (exec .parse (running 4#3 EX 22 EX)) = some .reentrant := by decide

/-- R216, R106: RESET from inside SRC_IS_EMPTY, in the refill of a PARSE that begins with an empty source. -/
theorem test_reentrant_source : refusedOf (step { State.built 22 with
    script := [.nested .srcIsEmpty .reset, .enter] }) = some .reentrant := by decide

/-- R216, R139: PARSE from inside SINK_ADD, in a PARSE taken as one step. -/
theorem test_reentrant_sink : refusedOf (step { State.built 22 with
    src := EX, script := [.nested .sinkAdd .parse, .call ⟨0x01#5, []⟩] }) = some .reentrant := by decide

/-- R216, R106 (c): the empty source is not asked for a byte, so its handler issues nothing and the act stays. -/
theorem test_nested_waits : (nextOf (step { State.built 22 with
    script := [.nested .srcNextByte .parse, .enter] })).map (fun t => (t.cont, t.script)) =
      some (true, [.nested .srcNextByte .parse]) := by decide

/-- R262: a capacity of 16. -/
theorem test_config : refusedOf (step (State.built 16)) = some .config := by decide

/-- V-ENC-12 in a run. -/
theorem test_bad_state : refusedOf (step (running 5#3 [] 0 [])) = some (.badState 5#3) := by decide

/-- V-EXC-5: a wrong index and a wrong checksum are a field error. -/
theorem test_condition_priority :
    (running 3#3 sampleInvalid 22 sampleInvalid).condition = some .field := by decide

/-- The table word of PARSE is decoded, and placed it is the operation of the next step. -/
theorem test_place_parse : decodeTableWord 8 0x01 = some .parse ∧
    (nextOf (step (State.reset.withFetchWord 8 0x01))).map State.ret = some (.nat 0) := by decide

/-- The table word of FSM_START_HIT is decoded, and placed it is the micro-step of the next step. -/
theorem test_place_start_hit : decodeTableWord 16 0x0FA1 = some .fsmStartHit ∧
    (nextOf (step (State.reset.withFetchWord 16 0x0FA1))).map State.st = some 2#3 := by decide

/-! ## Witnesses: for every statement with hypotheses, values that meet all of them together, one theorem per
clause, at a boundary of its range -/

theorem witness_OperationWordsHaveOneReading :
    ∃ w i, decode (.op5 w) = .ok i ∧ w.args = [0, 255] := ⟨⟨0x1F#5, [0, 255]⟩, .hostFeed [0#8, 255#8], by decide⟩

theorem witness_UnassignedIdentifiersRefused_inside : ∀ op ∈ [0x06#5, 0x07#5, 0x0F#5, 0x17#5, 0x1B#5, 0x1C#5, 0x1D#5,
    0x1E#5], ∃ (s : State) (w : OpWord) (rest : List Event), w.op = op ∧ 22 ≤ s.cap ∧ s.script = .inside w :: rest ∧
      w.op.toNat ∈ [0x06, 0x07, 0x0F, 0x17, 0x1B, 0x1C, 0x1D, 0x1E] := by
  intro op h
  refine ⟨{ State.built 22 with script := [.inside ⟨op, []⟩] }, ⟨op, []⟩, [], rfl, Nat.le_refl 22, rfl, ?_⟩
  revert op
  decide

theorem witness_UnassignedIdentifiersRefused_call : ∀ op ∈ [0x06#5, 0x07#5, 0x0F#5, 0x17#5, 0x1B#5, 0x1C#5, 0x1D#5,
    0x1E#5], ∃ (s : State) (w : OpWord) (rest : List Event), w.op = op ∧ 22 ≤ s.cap ∧ s.script = .call w :: rest ∧
      s.cont = false ∧ w.op.toNat ∈ [0x06, 0x07, 0x0F, 0x17, 0x1B, 0x1C, 0x1D, 0x1E] := by
  intro op h
  refine ⟨{ State.built 22 with script := [.call ⟨op, []⟩] }, ⟨op, []⟩, [], rfl, Nat.le_refl 22, rfl, rfl, ?_⟩
  revert op
  decide

theorem witness_SelectorIsFormed_validating :
    ∃ s : State, s.cur = s.buf.length ∧ s.st = stValidating ∧ s.pktLen = 22 := ⟨bench 3#3 EX 22 EX, by decide⟩

theorem witness_SelectorIsFormed_elsewhere :
    ∃ s : State, s.cur = s.buf.length ∧ s.st ≠ stValidating ∧ s.pktLen = 0 := ⟨State.built 22, by decide⟩

theorem witness_StepRunsTheIssuedOperation_inside : ∃ (s : State) (w : OpWord) (rest : List Event) (i : Instr),
    s.cap = 22 ∧ s.script = .inside w :: rest ∧ decode (.op5 w) = .ok i :=
  ⟨{ State.built 22 with cont := true, script := [.inside ⟨0x05#5, []⟩] }, ⟨0x05#5, []⟩, [], .sinkSize, by decide⟩

theorem witness_StepRunsTheIssuedOperation_call : ∃ (s : State) (w : OpWord) (rest : List Event) (i : Instr),
    s.cap = 22 ∧ s.script = .call w :: rest ∧ s.cont = false ∧ decode (.op5 w) = .ok i :=
  ⟨{ State.built 22 with script := [.call ⟨0x01#5, []⟩] }, ⟨0x01#5, []⟩, [], .parse, by decide⟩

theorem witness_StepRunsTheSelectedMicroStep_goesOn : ∃ (s t : State) (sel : BitVec 13) (i : Instr), 22 ≤ s.cap ∧
    s.script = [] ∧ s.cont = true ∧ s.selector = .ok sel ∧ decode (.sel13 sel) = .ok i ∧ exec i s = .next t ∧
    t.cont = true := ⟨running 0#3 [] 0 [], _, 0x0008#13, .fsmResetting, by decide, rfl, rfl, rfl, rfl, rfl, rfl⟩

theorem witness_StepRunsTheSelectedMicroStep_ends : ∃ (s t : State) (sel : BitVec 13) (i : Instr), 22 ≤ s.cap ∧
    s.script = [] ∧ s.cont = true ∧ s.selector = .ok sel ∧ decode (.sel13 sel) = .ok i ∧ exec i s = .next t ∧
    t.cont = false := ⟨running 1#3 [] 0 [], _, 0x0009#13, .fsmStartPause, by decide, rfl, rfl, rfl, rfl, rfl, rfl⟩

theorem witness_StepRunsTheSelectedMicroStep_faults : ∃ (s : State) (f : Fault) (sel : BitVec 13) (i : Instr),
    22 ≤ s.cap ∧ s.script = [] ∧ s.cont = true ∧ s.selector = .ok sel ∧ decode (.sel13 sel) = .ok i ∧
    exec i s = .fault f :=
  ⟨running 2#3 [0x00#8] 0 EX, .pktOverflow 0x00#8, 0x0002#13, .fsmPayloadTake, by decide, rfl, rfl, rfl, rfl, rfl⟩

theorem witness_StepRunsTheSelectedMicroStep_idle : ∃ s : State, s.cap = 22 ∧ s.script = [] ∧ s.cont = false :=
  ⟨State.built 22, by decide⟩

theorem witness_ReservedState_refused : ∃ s : State, 22 ≤ s.cap ∧ s.script = [] ∧ s.cont = true ∧ s.st.toNat = 5 ∧
    s.cur = s.buf.length := ⟨running 5#3 [] 0 [], by decide⟩

theorem witness_ReservedState_outside : ∃ s : State, 22 ≤ s.cap ∧ s.script = [] ∧ s.cont = true ∧ s.st.toNat = 7 ∧
    s.cur = s.buf.length + 1 := ⟨running 7#3 [] 1 [], by decide⟩

theorem witness_SmallCapacityRefused : ∃ s : State, s.cap = 21 := ⟨State.built 21, rfl⟩

theorem witness_ResetRebuildsTheBlock_idle : ∃ s : State, s.cont = false ∧ s.buf ≠ [] := ⟨bench 2#3 EX 22 EX, by decide⟩

theorem witness_ResetRebuildsTheBlock_running : ∃ s : State, s.cont = true := ⟨running 0#3 [] 0 [], rfl⟩

theorem witness_ResetStateValues : ∃ s t : State, exec .reset s = .next t ∧ s.src ≠ [] ∧ s.sink ≠ [] :=
  ⟨{ State.built 22 with src := [0x01#8], sink := [(0#16, 407#16)] }, _, rfl, by decide, by decide⟩

theorem witness_PushAppendsAtTheTail_room : ∃ s : State, s.buf.length < s.cap ∧ s.cap ≤ s.buf.length + 1 :=
  ⟨{ bench 0#3 (EX.take 21) 0 [] with cap := 22 }, by decide⟩

theorem witness_PushAppendsAtTheTail_full : ∃ s : State, s.cap = s.buf.length :=
  ⟨{ bench 0#3 EX 0 [] with cap := 22 }, by decide⟩

theorem witness_PopRemovesTheOldestByte_moves : ∃ (s : State) (v : Byte) (rest : List Byte), s.buf = v :: rest ∧
    s.cur = 1 := ⟨bench 0#3 [0xFA#8] 1 [], 0xFA#8, [], by decide⟩

theorem witness_PopRemovesTheOldestByte_saturates : ∃ (s : State) (v : Byte) (rest : List Byte), s.buf = v :: rest ∧
    s.cur = 0 := ⟨bench 0#3 [0xFA#8] 0 [], 0xFA#8, [], by decide⟩

theorem witness_PopRemovesTheOldestByte_empty : ∃ s : State, s.buf = [] := ⟨State.built 22, rfl⟩

theorem witness_BufferReads_inside : ∃ (s : State) (o : Nat), o < s.buf.length ∧ o + 1 = s.buf.length ∧
    s.cur ≠ s.buf.length := ⟨bench 0#3 EX 0 [], 21, by decide⟩

theorem witness_BufferReads_outside : ∃ (s : State) (o : Nat), s.buf.length = o ∧ s.cur = s.buf.length :=
  ⟨bench 0#3 EX 22 [], 22, by decide⟩

theorem witness_NextReadsAndAdvances_last : ∃ s : State, s.cur < s.buf.length ∧ s.cur + 1 = s.buf.length :=
  ⟨bench 0#3 EX 21 [], by decide⟩

theorem witness_NextReadsAndAdvances_exhausted : ∃ s : State, s.buf.length = s.cur := ⟨bench 0#3 EX 22 [], by decide⟩

theorem witness_BufferIsFirstInFirstOut_none : ∃ (i : Instr) (s t : State), exec i s = .next t ∧ t.buf ≠ s.buf ∧
    bytesAdded s i = [] := ⟨.fsmEmit, running 4#3 EX 22 EX, _, rfl, by decide, rfl⟩

theorem witness_BufferIsFirstInFirstOut_push : ∃ (b : Byte) (s t : State), exec (.bufPush b) s = .next t ∧
    bytesAdded s (.bufPush b) = [b] := ⟨0x01#8, State.built 22, _, rfl, rfl⟩

theorem witness_BufferIsFirstInFirstOut_refill : ∀ i ∈ [Instr.bufRefill, .parse],
    (nextOf (exec i { State.built 22 with src := [0xFA#8] })).isSome = true ∧
      bytesAdded { State.built 22 with src := [0xFA#8] } i = [0xFA#8] := by decide

theorem witness_PacketFillsInOrder_room : ∃ s : State, s.pktLen < 22 ∧ s.pktLen = 21 := ⟨holding (EX.take 21), by decide⟩

theorem witness_PacketFillsInOrder_full : ∃ s : State, s.pktLen = 22 := ⟨holding EX, by decide⟩

theorem witness_PacketFillsInOrder_written : ∃ (s : State) (i : Nat), i < s.pkt.length ∧ i + 1 = s.pktLen :=
  ⟨holding EX, 21, by decide⟩

theorem witness_PacketFillsInOrder_unwritten : ∃ (s : State) (i : Nat), s.pktLen = i ∧ i = 0 := ⟨holding [], 0, by decide⟩

theorem witness_complete_packet_lowest : ∃ (s : State) (h : s.pkt.length = 22), 0xA0#8 ≤ s.pkt[1] ∧
    s.pkt[1] ≤ 0xF9#8 ∧ s.pkt[1] = 0xA0#8 := ⟨holding EX, by decide, by decide⟩

theorem witness_complete_packet_highest : ∃ (s : State) (h : s.pkt.length = 22), 0xA0#8 ≤ s.pkt[1] ∧
    s.pkt[1] ≤ 0xF9#8 ∧ s.pkt[1] = 0xF9#8 := ⟨holding MAX, by decide, by decide⟩

theorem witness_complete_packet_below : ∃ (s : State) (h : s.pkt.length = 22),
    ¬(0xA0#8 ≤ s.pkt[1] ∧ s.pkt[1] ≤ 0xF9#8) ∧ s.pkt[1] = 0x9F#8 := ⟨holding B9, by decide, by decide⟩

theorem witness_complete_packet_above : ∃ (s : State) (h : s.pkt.length = 22),
    ¬(0xA0#8 ≤ s.pkt[1] ∧ s.pkt[1] ≤ 0xF9#8) ∧ s.pkt[1] = 0xFA#8 :=
  ⟨holding (List.replicate 22 0xFA#8), by decide, by decide⟩

theorem witness_incomplete_packet : ∃ s : State, s.pktLen < 22 ∧ s.pktLen = 21 := ⟨holding (EX.take 21), by decide⟩

theorem witness_AccessorsChangeNothing : ∀ i ∈ [Instr.pktIndexByte, .pktSpeed, .decAngle 3, .decDist 3,
    .decMeasurements, .valIndex, .valChecksum, .valVerdict], (nextOf (exec i (holding EX))).isSome = true := by decide

theorem witness_StoredTopBitNeverMatches : ∃ (s : State) (h : s.pkt.length = 22), 0x80#8 ≤ s.pkt[21] ∧
    s.pkt[21] = 0x80#8 := ⟨holding (EX.take 21 ++ [0x80#8]), by decide, by decide⟩

theorem witness_SourceAndSinkCalls_empty : ∃ s : State, s.src = [] := ⟨State.built 22, rfl⟩

theorem witness_SourceAndSinkCalls_holds : ∃ (s : State) (v : Byte) (rest : List Byte), s.src = v :: rest ∧ rest = [] :=
  ⟨{ State.built 22 with src := [0x01#8] }, 0x01#8, [], by decide⟩

theorem witness_FeedDuringACallIsUnseen_next : ∃ s t : State, microStep s = .next t :=
  ⟨running 3#3 EX 22 EX, running 4#3 EX 22 EX, rfl⟩

theorem witness_FeedDuringACallIsUnseen_fault : ∃ (s : State) (f : Fault), microStep s = .fault f :=
  ⟨running 2#3 [] 1 [], .peekRange .stepSelect 1, rfl⟩

theorem witness_FeedDuringACallIsUnseen_refused : ∃ (s : State) (r : Refusal), microStep s = .refused r :=
  ⟨running 6#3 [] 0 [], .badState 6#3, rfl⟩

theorem witness_ResettingClearsPacketAndCursor : ∃ s : State, s.cur = s.buf.length ∧ s.st = 0#3 ∧ s.pktLen = 22 :=
  ⟨running 0#3 (B9.drop 1) 21 B9, by decide⟩

theorem witness_StartDrop_runs : ∃ (s : State) (h : s.cur < s.buf.length), s.st = 1#3 ∧ s.buf[s.cur] ≠ 0xFA#8 ∧
    s.cur + 1 = s.buf.length := ⟨running 1#3 [0xFB#8] 0 [], by decide, by decide⟩

theorem witness_StartDrop_exhausted : ∃ s : State, s.buf.length = s.cur := ⟨running 1#3 [] 0 [], by decide⟩

theorem witness_PausesOnlyClearCont_start : ∃ s : State, s.cur = s.buf.length ∧ s.st = 1#3 :=
  ⟨running 1#3 [] 0 [], by decide⟩

theorem witness_PausesOnlyClearCont_payload : ∃ s : State, s.cur = s.buf.length ∧ s.st = 2#3 :=
  ⟨running 2#3 [0xFA#8] 1 [0xFA#8], by decide⟩

theorem witness_StartHitTakesTheMarker_room : ∃ (s : State) (_ : s.cur < s.buf.length), s.pktLen < 22 ∧
    s.pktLen = 21 := ⟨running 1#3 [0xFA#8] 0 (EX.take 21), by decide, by decide⟩

theorem witness_StartHitTakesTheMarker_selected : ∃ (s : State) (h : s.cur < s.buf.length), s.st = 1#3 ∧
    s.buf[s.cur] = 0xFA#8 := ⟨running 1#3 [0xFA#8] 0 [], by decide, by decide⟩

theorem witness_PayloadTake_goesOn : ∃ (s : State) (_ : s.cur < s.buf.length), s.pktLen < 21 ∧ s.pktLen = 20 ∧
    s.st = 2#3 := ⟨running 2#3 EX 20 (EX.take 20), by decide, by decide⟩

theorem witness_PayloadTake_completes : ∃ (s : State) (_ : s.cur < s.buf.length), s.pktLen = 21 ∧ s.st = 2#3 :=
  ⟨running 2#3 EX 21 (EX.take 21), by decide, by decide⟩

theorem witness_ValidateFail_runs : ∃ s : State, 0 < s.buf.length ∧ s.buf.length = 1 := ⟨bench 3#3 [0xFA#8] 1 [], by decide⟩

theorem witness_ValidateFail_selected : ∃ s : State, s.cur = s.buf.length ∧ s.st = 3#3 ∧
    (packetOf s.pkt).map validPacket = some false := ⟨running 3#3 B9 22 B9, by decide⟩

theorem witness_ValidatePass_selected : ∃ s : State, s.cur = s.buf.length ∧ s.st = 3#3 ∧
    (packetOf s.pkt).map validPacket = some true := ⟨running 3#3 EX 22 EX, by decide⟩

theorem witness_Emit_runs : ∃ (s : State) (h : s.pkt.length = 22), 0xA0#8 ≤ s.pkt[1] ∧ s.pkt[1] ≤ 0xF9#8 ∧
    s.buf.length = 22 := ⟨running 4#3 EX 22 EX, by decide, by decide⟩

theorem witness_Emit_selected : ∃ s : State, s.cur = s.buf.length ∧ s.st = 4#3 := ⟨running 4#3 EX 22 EX, by decide⟩

theorem witness_MicroStepFaults_range : ∃ s : State, s.buf.length = s.cur := ⟨running 2#3 EX 22 EX, by decide⟩

theorem witness_MicroStepFaults_overflow : ∃ (s : State) (_ : s.cur < s.buf.length), 22 ≤ s.pktLen ∧ s.pktLen = 22 :=
  ⟨running 2#3 EX 21 EX, by decide, by decide⟩

theorem witness_MicroStepFaults_empty : ∃ s : State, s.buf = [] := ⟨running 3#3 [] 0 EX, rfl⟩

theorem witness_MicroStepFaults_unwritten : ∃ s : State, s.pktLen < 22 ∧ s.pktLen = 21 :=
  ⟨running 4#3 EX 22 (EX.take 21), by decide⟩

theorem witness_MicroStepFaults_index : ∃ (s : State) (h : s.pkt.length = 22),
    ¬(0xA0#8 ≤ s.pkt[1] ∧ s.pkt[1] ≤ 0xF9#8) := ⟨running 4#3 B9 22 B9, by decide, by decide⟩

theorem witness_MicroStepFaults_short : ∃ (s : State) (h : s.pkt.length = 22), 0xA0#8 ≤ s.pkt[1] ∧
    s.pkt[1] ≤ 0xF9#8 ∧ s.buf.length < 22 ∧ s.buf.length = 21 := ⟨running 4#3 (EX.take 21) 21 EX, by decide, by decide⟩

theorem witness_Conditions_marker : ∃ (s : State) (h : s.cur < s.buf.length), s.st = 1#3 ∧ s.buf[s.cur] = 0xFA#8 :=
  ⟨running 1#3 [0xFA#8] 0 [], by decide, by decide⟩

theorem witness_Conditions_framing : ∃ (s : State) (h : s.cur < s.buf.length), s.st = 1#3 ∧ s.buf[s.cur] = 0x55#8 :=
  ⟨running 1#3 [0x55#8] 0 [], by decide, by decide⟩

theorem witness_Conditions_starvation : ∀ st ∈ [1#3, 2#3], ∃ s : State, s.cur = s.buf.length ∧ s.st = st ∧
    (s.st = 1#3 ∨ s.st = 2#3) := by
  intro st h
  refine ⟨running st [] 0 [], rfl, rfl, ?_⟩
  revert st
  decide

theorem witness_Conditions_candidate : ∃ (s : State) (p : Packet), s.cur = s.buf.length ∧ s.st = 3#3 ∧
    s.pkt = p.toList ∧ validPacket p = false ∧ 0xA0#8 ≤ p[1] ∧ p[1] ≤ 0xF9#8 :=
  ⟨running 3#3 BAD 22 BAD, packetBAD, by decide⟩

theorem witness_Conditions_others : ∀ st ∈ [0#3, 2#3, 4#3], ∃ s : State, s.cur ≤ s.buf.length ∧ s.st = st ∧
    (s.st = 0#3 ∨ s.st = 4#3 ∨ (s.st = 2#3 ∧ s.cur < s.buf.length)) := by
  intro st h
  refine ⟨running st [0xA0#8] 0 [], Nat.zero_le 1, rfl, ?_⟩
  revert st
  decide

theorem witness_Conditions_noStep_cursor : ∃ s : State, s.buf.length < s.cur := ⟨running 1#3 [] 1 [], by decide⟩

theorem witness_Conditions_noStep_reserved : ∃ s : State, s.st.toNat = 5 ∧ s.cur = s.buf.length :=
  ⟨running 5#3 [] 0 [], by decide⟩

theorem witness_Conditions_noStep_incomplete : ∃ s : State, s.st = 3#3 ∧ s.pktLen ≠ 22 ∧ s.pktLen = 21 ∧
    s.cur = s.buf.length := ⟨running 3#3 EX 22 (EX.take 21), by decide⟩

theorem witness_OnlyPauseParseAndResetWriteCont : ∀ i ∈ [Instr.parse, .reset, .fsmStartPause, .fsmPayloadPause, .bufLen],
    (nextOf (exec i (State.built 22))).isSome = true := by decide

theorem witness_CapacityIsFixed_exec : ∃ (i : Instr) (s t : State), exec i s = .next t :=
  ⟨.fsmEmit, running 4#3 EX 22 EX, _, rfl⟩

theorem witness_CapacityIsFixed_step : ∃ s t : State, step s = .next t ∧ s.cont = true :=
  ⟨running 3#3 EX 22 EX, running 4#3 EX 22 EX, rfl, rfl⟩

theorem witness_SourceAndSinkMoveOneWay : ∃ (i : Instr) (s t : State), exec i s = .next t ∧
    (∀ a d, i ≠ .sinkAdd a d) ∧ i ≠ .fsmEmit ∧ i ≠ .parse ∧ (∀ bytes, i ≠ .hostFeed bytes) ∧ i ≠ .srcNextByte ∧
    i ≠ .bufRefill := ⟨.bufLen, State.built 22, _, rfl, by simp⟩

theorem witness_StorageFormIsKept_exec : ∃ (i : Instr) (s t : State), Memory.wf s = true ∧ s.buf.length = s.cap ∧
    exec i s = .next t := ⟨.bufPush 0x00#8, { bench 0#3 EX 22 EX with cap := 22 }, _, by decide, by decide, rfl⟩

theorem witness_StorageFormIsKept_step : ∃ s t : State, Memory.wf s = true ∧ s.cur = s.buf.length ∧
    step s = .next t := ⟨running 3#3 EX 22 EX, running 4#3 EX 22 EX, by decide, by decide, rfl⟩

/-- A state inside a call that meets the invariants: EX validated, nothing else buffered. -/
theorem invariants_running : Invariants (running 4#3 EX 22 EX) where
  cap_ok := by decide
  storage := by decide
  code := by decide
  scanStart := by decide
  scanPayload := by decide
  complete := by decide
  candidate := by decide
  marker := by decide
  emitting := by decide
  idle := by decide

/-- A state between calls that meets the invariants: a candidate of one byte. -/
theorem invariants_paused : Invariants (bench 2#3 [0xFA#8] 1 [0xFA#8]) where
  cap_ok := by decide
  storage := by decide
  code := by decide
  scanStart := by decide
  scanPayload := by decide
  complete := by decide
  candidate := by decide
  marker := by decide
  emitting := by decide
  idle := by decide

theorem witness_InvariantsAreKept : ∃ s : State, Invariants s ∧ s.dutiful = true ∧ s.cont = true :=
  ⟨running 4#3 EX 22 EX, invariants_running, by decide⟩

theorem witness_InvariantsHoldAtReset : ∃ cap : Nat, 22 ≤ cap ∧ cap = 22 := ⟨22, by decide⟩

theorem witness_ReentrantCallsRefused_exec : ∃ s : State, s.cont = true := ⟨running 0#3 [] 0 [], rfl⟩

theorem witness_ReentrantCallsRefused_step : ∀ op ∈ [0x00#5, 0x01#5], ∃ (s : State) (rest : List Event), 22 ≤ s.cap ∧
    s.cont = true ∧ s.script = .inside ⟨op, []⟩ :: rest :=
  fun op _ => ⟨{ State.built 22 with cont := true, script := [.inside ⟨op, []⟩] }, [], Nat.le_refl 22, rfl, rfl⟩

theorem witness_ReentrantCallsRefused_source : ∀ e ∈ [Event.enter, .call ⟨0x01#5, []⟩], ∃ s : State, s.cap = 22 ∧
    s.cont = false ∧ s.script = [.nested .srcNextByte .reset, e] ∧ s.buf.length + 1 = s.cap ∧ s.src ≠ [] :=
  fun e _ => ⟨{ State.built 22 with buf := EX.take 21, src := [0xFA#8], script := [.nested .srcNextByte .reset, e] },
    rfl, rfl, rfl, rfl, by simp⟩

theorem witness_ReentrantCallsRefused_emit : ∃ (s : State) (h : s.pkt.length = 22), 22 ≤ s.cap ∧ s.cont = true ∧
    s.script = [.nested .sinkAdd .parse] ∧ s.st = 4#3 ∧ s.cur ≤ s.buf.length ∧ 0xA0#8 ≤ s.pkt[1] ∧ s.pkt[1] ≤ 0xF9#8 :=
  ⟨{ running 4#3 EX 22 EX with script := [.nested .sinkAdd .parse] }, by decide, by decide⟩

theorem witness_ReentrantCallsRefused_delivers : ∃ s t : State, s.cap = 22 ∧ s.cont = false ∧
    s.script = [.nested .sinkAdd .reset, .call ⟨0x01#5, []⟩] ∧ exec .parse s = .next t ∧ t.sink ≠ s.sink :=
  ⟨{ State.built 22 with src := EX, script := [.nested .sinkAdd .reset, .call ⟨0x01#5, []⟩] }, _, rfl, rfl, rfl, rfl,
    by decide⟩

/-- A running PARSE about to take FSM_RESETTING, with a handler's act held. -/
def handlerWaits (p : Port) : State := { running 0#3 EX 0 [] with script := [.nested p .parse] }

theorem witness_ReentrantCallsRefused_goes_on : ∀ p ∈ [Port.srcIsEmpty, .srcNextByte, .sinkAdd],
    (handlerWaits p).cont = true ∧ (handlerWaits p).script = [.nested p .parse] ∧ (handlerWaits p).st ≠ 4#3 ∧
      (nextOf (step { handlerWaits p with script := [] })).isSome = true := by decide

theorem witness_ReentrantCallsRefused_not_called : ∃ s t u : State, s.cap = 22 ∧ s.cont = false ∧ s.buf.length = s.cap ∧
    s.script = [.nested .srcIsEmpty .parse, .call ⟨0x01#5, []⟩] ∧ exec .bufRefill s = .next t ∧
    exec .parse s = .next u :=
  ⟨{ State.built 22 with buf := EX, script := [.nested .srcIsEmpty .parse, .call ⟨0x01#5, []⟩] }, _, _, rfl, rfl, rfl,
    rfl, rfl, rfl⟩

theorem witness_ReentrantCallsRefused_nothing_delivered : ∃ s t : State, s.cap = 22 ∧ s.cont = false ∧
    s.script = [.nested .sinkAdd .parse, .call ⟨0x01#5, []⟩] ∧ exec .parse s = .next t ∧ t.sink = s.sink :=
  ⟨{ State.built 22 with script := [.nested .sinkAdd .parse, .call ⟨0x01#5, []⟩] }, _, rfl, rfl, rfl, rfl, rfl⟩

theorem witness_CallIsBounded : ∃ s : State, Invariants s ∧ s.cont = true ∧ s.emitted = 0 :=
  ⟨running 4#3 EX 22 EX, invariants_running, by decide⟩

theorem witness_ParseIsRefillThenMicroSteps_idle : ∃ s : State, s.cont = false ∧ s.src ≠ [] :=
  ⟨{ State.built 22 with src := EX }, by decide⟩

theorem witness_ParseIsRefillThenMicroSteps_running : ∃ s : State, s.cont = true := ⟨running 2#3 EX 1 [0xFA#8], rfl⟩

theorem witness_CountIsWhatWasDelivered : (nextOf (exec .parse { State.built 22 with src := EX })).isSome = true := by
  decide

theorem witness_ParseFollowsTheStream : ∃ s : State, Invariants s ∧ s.cont = false :=
  ⟨bench 2#3 [0xFA#8] 1 [0xFA#8], invariants_paused, rfl⟩

theorem witness_StreamDeterminism_program : ∃ (cap : Nat) (p : List Stmt) (r : HostRun), cap = 22 ∧
    Stmt.reset ∉ p.tail ∧ (HostRun.start cap).program p = some r ∧ r.state.src = [] :=
  ⟨22, [.reset, .feed [0x00#8, 0xFA#8], .parse 0, .expectSink []], _, rfl, by decide, rfl, rfl⟩

/-- The acts: feed a byte, begin a stepwise PARSE, feed a second byte after its first micro-step, parse again. -/
def someActs : List Event :=
  [.call ⟨0x1F#5, [0xFA]⟩, .enter, .pass, .inside ⟨0x1F#5, [0xA0]⟩, .call ⟨0x01#5, []⟩]

theorem witness_StreamDeterminism_acts : ∃ t : State, (∀ e ∈ someActs, e.dutiful = true ∧ e.resets = false) ∧
    Sys2Proof.core.run 7 { State.built 22 with script := someActs } = .next t ∧ t.script = [] ∧ t.cont = false ∧
    t.src = [] ∧ t.buf = [0xFA#8, 0xA0#8] := ⟨_, by decide, rfl, rfl, rfl, rfl, rfl⟩

theorem witness_EmptyInputReturnsZero : ∀ st ∈ [0#3, 1#3], ∃ s : State, s.cont = false ∧ s.src = [] ∧ s.buf = [] ∧
    s.cur = 0 ∧ s.st = st := fun st _ => ⟨bench st [] 0 [], by simp [bench, State.built, State.reset]⟩

theorem witness_OnePacketDeliversFour : ∀ st ∈ [0#3, 1#3], ∃ (s : State) (p : Packet), s.cap = 22 ∧ s.cont = false ∧
    s.buf = [] ∧ s.cur = 0 ∧ s.st = st ∧ s.pkt = [] ∧ s.src = p.toList ∧ p[0] = 0xFA#8 ∧ validPacket p = true :=
  fun st _ => ⟨{ State.built 22 with st := st, src := packetEX.toList }, packetEX, rfl, rfl, rfl, rfl, rfl, rfl, rfl,
    by decide, by decide⟩

theorem witness_ConcatenatedPacketsAllDelivered : ∃ ps : List Packet, ps.length = 2 ∧
    ∀ p ∈ ps, p[0] = 0xFA#8 ∧ validPacket p = true := by
  refine ⟨[packetEX, packetEX], rfl, fun p hp => ?_⟩
  obtain rfl : p = packetEX := by simpa using hp
  decide

/-- P6: one stray marker right before the packet; the precondition has a window to speak of, and it is not valid. -/
theorem witness_ResyncUnderThePrecondition : ∃ (before : List Byte) (p : Packet), p[0] = 0xFA#8 ∧
    validPacket p = true ∧ (∃ i, i < before.length ∧ before.length < i + 22 ∧ before[i]? = some 0xFA#8) ∧
    ∀ i, i < before.length → before.length < i + 22 → before[i]? = some 0xFA#8 →
      windowValid (before ++ p.toList) i = false :=
  ⟨[0xFA#8], packetEX, by decide, by decide, ⟨0, by decide⟩, fun i hi _ _ => by
    obtain rfl : i = 0 := Nat.lt_one_iff.1 hi
    decide⟩

/-- V-CONF-C4: eight bytes of garbage whose window overlaps EX and is valid, so that the precondition fails. -/
theorem test_resync_window : windowValid
    ([0xFA#8, 0xA0#8, 0xA0#8, 0xD6#8, 0x00#8, 0x00#8, 0x00#8, 0x00#8] ++ EX) 0 = true := by decide

theorem witness_CapacityHazard : ∃ s : State, s.cap = 21 ∧ s.st = 2#3 ∧ s.cont = false ∧ s.buf.length = s.cap ∧
    s.cur = s.cap := ⟨{ bench 2#3 (EX.take 21) 21 (EX.take 21) with cap := 21 }, by decide⟩

theorem witness_StepwiseParseIsParse : ∃ s t : State, s.cap = 22 ∧ s.cont = false ∧ s.script = [] ∧
    exec .parse s = .next t :=
  ⟨State.built 22, { State.built 22 with st := 1#3, ret := .nat 0 }, rfl, rfl, rfl, rfl⟩

end Sys2Proof.Tests
end

section
/-! PROOFS. Properties of states that every instruction keeps, and what keeps them in a step: the capacity, the pending
acts and the canonical form of the storage (R20, R26, R29 INV1). -/

namespace Sys2Proof.Machine

/-- A micro-step that answers a next state is the instruction of its row. -/
theorem microStep_eq_exec {s t : State} (h : microStep s = .next t) : ∃ m : MicroStep, exec m.instr s = .next t := by
  unfold microStep at h
  split at h
  · cases h
  · split at h
    · rename_i m _
      exact ⟨m, (exec_instr m s).trans h⟩
    · cases h

theorem instr_ne_parse (m : MicroStep) : m.instr ≠ .parse := by cases m <;> decide

/-- The end of a micro-step's turn has a next state exactly where the micro-step has. -/
theorem finishMicro_eq_next {o : Out} {t : State} (h : finishMicro o = .next t) :
    ∃ u, o = .next u ∧ t = u.returnCount := by
  cases o with
  | next u => cases h; exact ⟨u, rfl, rfl⟩
  | fault f => cases h
  | refused r => cases h

/-! ## Kept properties -/

/-- A property of states that does not look at the value handed back, and that the start of a call and every
instruction but PARSE keep. PARSE, being made of these, then keeps it too. -/
structure Kept (P : State → Prop) : Prop where
  returns : ∀ (s : State) (v : Ret), P s → P (s.returns v)
  callStart : ∀ s : State, P s → P s.callStart
  instr : ∀ {i : Instr} {s t : State}, i ≠ .parse → ExecNext s i t → P s → P t

namespace Kept

variable {P : State → Prop} {s t : State} (hk : Kept P)
include hk

theorem of_microStep (h : microStep s = .next t) (hs : P s) : P t := by
  obtain ⟨m, hm⟩ := microStep_eq_exec h
  exact hk.instr (instr_ne_parse m) (exec_next hm) hs

theorem of_returnCount (hs : P s) : P s.returnCount := by
  unfold State.returnCount
  split
  · exact hs
  · exact hk.returns s _ hs

theorem of_execParse (h : execParse s = .next t) (hs : P s) : P t := by
  obtain ⟨-, u, v, rfl, hv, rfl⟩ := execParse_next h
  exact hk.of_returnCount (parseLoop_keeps (fun _ _ hu hm => hk.of_microStep hm hu) _ (hk.callStart s hs) hv)

theorem of_exec {i : Instr} (h : exec i s = .next t) (hs : P s) : P t := by
  by_cases hi : i = .parse
  · subst hi
    exact hk.of_execParse h hs
  · exact hk.instr hi (exec_next h) hs

theorem of_blockTurn (h : s.blockTurn.run exec = .next t) (hs : P s) : P t := by
  cases hc : s.cont with
  | false =>
    rw [blockTurn_run_of_idle hc] at h
    cases h
    exact hs
  | true =>
    rw [blockTurn_run_of_cont hc] at h
    obtain ⟨u, hu, rfl⟩ := finishMicro_eq_next h
    exact hk.of_returnCount (hk.of_microStep hu hs)

theorem of_opTurn {w : OpWord} (h : (s.opTurn w).run exec = .next t) (hs : P s) : P t := by
  cases hd : decode (.op5 w) with
  | ok i =>
    rw [opTurn_run_of_ok hd] at h
    exact hk.of_exec h hs
  | error e =>
    rw [opTurn_run_of_error hd] at h
    cases h

/-- A kept property that does not look at the pending acts either is kept by every step of the machine. -/
theorem of_step (hscript : ∀ (s : State) (acts : List Event), P s → P { s with script := acts })
    (h : step s = .next t) (hs : P s) : P t := by
  replace h := step_next h
  unfold fetch at h
  split at h
  · cases h
  obtain ⟨rest, hb | ⟨w, ho⟩ | ⟨-, he⟩⟩ := turnFrom_cases s s.script []
  · rw [hb] at h
    exact hk.of_blockTurn h (hscript s rest hs)
  · rw [ho] at h
    exact hk.of_opTurn h (hscript s rest hs)
  · rw [he, Turn.run, State.enterCall_eq] at h
    cases h
    exact hk.callStart _ (hscript s rest hs)

end Kept

/-! ## The capacity and the pending acts -/

theorem kept_cap_script (c : Nat) (acts : List Event) : Kept fun s => s.cap = c ∧ s.script = acts where
  returns _ _ hs := hs
  callStart _ hs := hs
  instr hi h hs := by
    cases h with
    | parse t h => exact absurd rfl hi
    | _ => exact hs

theorem kept_cap (c : Nat) : Kept fun s => s.cap = c where
  returns _ _ hs := hs
  callStart _ hs := hs
  instr {_ s _} hi h hs := ((kept_cap_script c s.script).instr hi h ⟨hs, rfl⟩).1

theorem exec_cap_script {i : Instr} {s t : State} (h : exec i s = .next t) : t.cap = s.cap ∧ t.script = s.script :=
  (kept_cap_script s.cap s.script).of_exec h ⟨rfl, rfl⟩

theorem step_cap {s t : State} (h : step s = .next t) : t.cap = s.cap :=
  (kept_cap s.cap).of_step (fun _ _ hs => hs) h rfl

/-! ## The canonical form of the storage -/

theorem Memory.wf_callStart {s : State} (h : Memory.wf s = true) : Memory.wf s.callStart = true :=
  Memory.wf_enterCall h s.enterCall_eq

/-- Every instruction but PARSE keeps the canonical form: of those that write the storage, some empty a part of it,
some take bytes from the head of the buffer, and the others append or advance only where there is room. -/
theorem Memory.wf_execNext {s t : State} {i : Instr} (hi : i ≠ .parse) (h : ExecNext s i t)
    (hs : Memory.wf s = true) : Memory.wf t = true := by
  have hwf := hs
  rw [Memory.wf_iff, State.pktLen] at hwf
  obtain ⟨hcur, hbuf, hpkt⟩ := hwf
  have hnext {b : Byte} (hb : s.buf[s.cur]? = some b) : s.cur + 1 ≤ s.buf.length :=
    (List.getElem?_eq_some_iff.1 hb).1
  rw [Memory.wf_iff, State.pktLen]
  cases h with
  | parse t h => exact absurd rfl hi
  | reads | srcNextByte | sinkAdd | unpushed | hostFeed | fsmPause | fsmValidatePass => exact ⟨hcur, hbuf, hpkt⟩
  | reset => exact ⟨Nat.le_refl _, Nat.zero_le _, Nat.zero_le _⟩
  | pktClear => exact ⟨hcur, hbuf, Nat.zero_le _⟩
  | fsmResetting => exact ⟨Nat.zero_le _, hbuf, Nat.zero_le _⟩
  | pushed b hroom => simp only [List.length_append, List.length_singleton]; omega
  | bufRefill => simp only [List.length_append, List.length_take]; omega
  | bufPopFront v rest hb =>
    rw [hb, List.length_cons] at hcur hbuf
    dsimp only
    omega
  | fsmStartDrop | fsmValidateFail | fsmEmit => simp only [List.length_drop]; omega
  | bufNext v hb => exact ⟨hnext hb, hbuf, hpkt⟩
  | pktAppend b hp =>
    rw [State.pktLen] at hp
    simp only [List.length_append, List.length_singleton]
    omega
  | fsmStartHit b hb hp | fsmPayloadTake b hb hp =>
    rw [State.pktLen] at hp
    have := hnext hb
    simp only [List.length_append, List.length_singleton]
    omega

theorem kept_wf : Kept fun s => Memory.wf s = true where
  returns _ v hs := Memory.wf_returns v hs
  callStart _ hs := Memory.wf_callStart hs
  instr := Memory.wf_execNext

/-- Settles O44: the form of the storage is kept by every instruction but PARSE and by the start of a call, and PARSE
and every step are made of these. -/
theorem storageFormIsKept : Obligations.StorageFormIsKept := by
  unfold Obligations.StorageFormIsKept
  exact ⟨fun _ _ _ hs h => kept_wf.of_exec h hs, fun _ _ hs h => kept_wf.of_step (fun _ _ hs => hs) h hs⟩

/-- Settles O42: the capacity is kept by every instruction and every step, the pending acts by every instruction. -/
theorem capacityIsFixed : Obligations.CapacityIsFixed := by
  unfold Obligations.CapacityIsFixed
  exact ⟨fun _ _ _ h => exec_cap_script h, fun _ _ h => step_cap h⟩

end Sys2Proof.Machine
end

section
/-! PROOFS. Who writes the continue flag (R24), and why a PARSE ends with it clear: every micro-step that does not end
the call makes a measure smaller that starts within the bound of R143 (a). -/

namespace Sys2Proof.Machine

/-- A bound on the micro-steps that a call can still take, in every state, reachable or not. A byte at the head of the
buffer costs at most 24 of them: FSM_RESETTING, FSM_START_HIT, 21 of FSM_PAYLOAD_TAKE and FSM_VALIDATE_FAIL. What of these
the head byte has already paid is subtracted. -/
def State.callMeasure (s : State) : Nat :=
  if s.st = stResetting then 24 * s.buf.length + 2
  else if s.st = stScanStart then 24 * s.buf.length + 1
  else if s.st = stScanPayload then 24 * s.buf.length - s.pktLen + 1
  else if s.st = stValidating then 24 * s.buf.length - 23 + 2
  else 24 * s.buf.length - 23 + 1

section
variable {s : State}

theorem callMeasure_resetting (h : s.st = stResetting) : s.callMeasure = 24 * s.buf.length + 2 := by
  rw [State.callMeasure, h]; rfl

theorem callMeasure_scanStart (h : s.st = stScanStart) : s.callMeasure = 24 * s.buf.length + 1 := by
  rw [State.callMeasure, h]; rfl

theorem callMeasure_scanPayload (h : s.st = stScanPayload) :
    s.callMeasure = 24 * s.buf.length - s.pktLen + 1 := by
  rw [State.callMeasure, h]; rfl

theorem callMeasure_validating (h : s.st = stValidating) : s.callMeasure = 24 * s.buf.length - 23 + 2 := by
  rw [State.callMeasure, h]; rfl

theorem callMeasure_emitting (h : s.st = stEmitting) : s.callMeasure = 24 * s.buf.length - 23 + 1 := by
  rw [State.callMeasure, h]; rfl

end

theorem callMeasure_pos (s : State) : 0 < s.callMeasure := by
  unfold State.callMeasure
  repeat' split
  all_goals omega

theorem callMeasure_le_callBound (s : State) : s.callMeasure ≤ callBound s := by
  unfold State.callMeasure callBound
  repeat' split
  all_goals omega

/-- A micro-step that does not end the call makes the measure smaller. -/
theorem callMeasure_lt {s t : State} (h : microStep s = .next t) (ht : t.cont = true) :
    t.callMeasure < s.callMeasure := by
  cases microStep_next h with
  | resetting hst hc =>
    rw [callMeasure_resetting hst, callMeasure_scanStart rfl]
    exact Nat.lt_succ_self _
  | pause hst hc => exact absurd ht Bool.false_ne_true
  | hit hst hc hb hp =>
    rw [callMeasure_scanStart hst, callMeasure_scanPayload rfl, State.pktLen, List.length_append,
      List.length_singleton]
    dsimp only
    omega
  | drop b hst hc hb hne =>
    rw [callMeasure_scanStart hst, callMeasure_scanStart (s := { s with buf := s.buf.drop 1 }) hst, List.length_drop]
    omega
  | take b hst hc hb hp =>
    rw [callMeasure_scanPayload hst]
    by_cases hfull : s.pktLen + 1 = 22
    · rw [callMeasure_validating (if_pos hfull)]
      dsimp only
      omega
    · rw [callMeasure_scanPayload ((if_neg hfull).trans hst)]
      simp only [State.pktLen, List.length_append, List.length_singleton] at hp ⊢
      omega
  | pass p hst hc hp hv =>
    rw [callMeasure_validating hst, callMeasure_emitting rfl]
    exact Nat.lt_succ_self _
  | fail p hst hc hp hv hb =>
    rw [callMeasure_validating hst, callMeasure_resetting rfl, List.length_drop]
    omega
  | emit p hst hc hp hi hb =>
    rw [callMeasure_emitting hst, callMeasure_resetting rfl, List.length_drop]
    omega

/-- Between calls the loop of a PARSE takes no micro-step (R140). -/
theorem parseLoop_of_idle (n : Nat) {s : State} (h : s.cont = false) : parseLoop n s = .next s := by
  cases n with
  | zero => rfl
  | succ n => rw [parseLoop, if_neg (by rw [h]; exact Bool.false_ne_true)]

/-- With as many turns as the measure allows, the loop of a PARSE ends by a pause and not by its bound (R143 (a)). -/
theorem parseLoop_cont (n : Nat) {s t : State} (hn : s.callMeasure ≤ n) (h : parseLoop n s = .next t) :
    t.cont = false := by
  induction n generalizing s with
  | zero => exact absurd (callMeasure_pos s) (Nat.not_lt.2 hn)
  | succ n ih =>
    rw [parseLoop] at h
    split at h
    · split at h
      · rename_i u hu
        cases hc : u.cont with
        | true =>
          have := callMeasure_lt hu hc
          exact ih (by omega) h
        | false =>
          rw [parseLoop_of_idle n hc] at h
          cases h
          exact hc
      · cases h
      · cases h
    · rename_i hc
      cases h
      simpa using hc

theorem returnCount_cont (s : State) : s.returnCount.cont = s.cont := by
  unfold State.returnCount
  split <;> rfl

/-- A PARSE that completes begins and ends with `cont` clear (R24, R140). -/
theorem execParse_cont {s t : State} (h : execParse s = .next t) : s.cont = false ∧ t.cont = false := by
  obtain ⟨hc, u, v, -, hv, rfl⟩ := execParse_next h
  exact ⟨hc, (returnCount_cont v).trans (parseLoop_cont _ (callMeasure_le_callBound u) hv)⟩

/-- R24: an instruction that completes leaves `cont` as it was, or it is one of the four that write it. -/
theorem execNext_cont {i : Instr} {s t : State} (h : ExecNext s i t) :
    t.cont = s.cont ∨ i = .parse ∨ i = .reset ∨ i = .fsmStartPause ∨ i = .fsmPayloadPause := by
  cases h with
  | parse t h => exact .inr (.inl rfl)
  | reset hc => exact .inr (.inr (.inl rfl))
  | fsmPause i hi => exact .inr (.inr (.inr hi))
  | _ => exact .inl rfl

theorem execReset_cont {s t : State} (h : execReset s = .next t) : s.cont = false ∧ t.cont = false := by
  cases execReset_next h with
  | reset hc => exact ⟨hc, rfl⟩
  | reads _ v hi => cases hi
  | fsmPause _ hi => simp at hi

/-- Settles O41: PARSE by the measure of its micro-steps, every other instruction by its next states. -/
theorem onlyPauseParseAndResetWriteCont : Obligations.OnlyPauseParseAndResetWriteCont := by
  unfold Obligations.OnlyPauseParseAndResetWriteCont
  intro i s t h
  refine ⟨?_, ?_, fun hp hr hs hl => ?_⟩
  · rintro (rfl | rfl)
    · exact execParse_cont h
    · exact execReset_cont h
  · rintro (rfl | rfl) <;> cases h <;> rfl
  · rcases execNext_cont (exec_next h) with hc | hi | hi | hi | hi
    · exact hc
    · exact absurd hi hp
    · exact absurd hi hr
    · exact absurd hi hs
    · exact absurd hi hl

end Sys2Proof.Machine
end

section
/-! PROOFS. The reset values, and the invariants INV1 to INV8 of R29: they hold at reset, and from every state that
meets them the step of a dutiful host completes and keeps them. -/

namespace Sys2Proof.Machine

/-! ## Reset -/

/-- A RESET that completes leaves a freshly built block, and the capacity and the host's side as they were (R260). -/
theorem execReset_eq_reset {s t : State} (h : execReset s = .next t) :
    t = { State.reset with cap := s.cap, src := s.src, sink := s.sink, script := s.script } := by
  unfold execReset at h
  split at h
  · cases h
  · cases h
    rfl

/-- Settles O11: the values are those of the record `State.reset`, and RESET writes them. -/
theorem resetStateValues : Obligations.ResetStateValues := by
  unfold Obligations.ResetStateValues
  exact ⟨rfl, rfl, rfl, rfl, rfl, fun _ _ => rfl, rfl, fun _ _ h => execReset_eq_reset h⟩

/-! ## The invariants, by state code -/

/-- R80: the defined state codes. -/
theorem stateCode_cases : ∀ c : BitVec 3, c.toNat ≤ 4 →
    c = stResetting ∨ c = stScanStart ∨ c = stScanPayload ∨ c = stValidating ∨ c = stEmitting := by decide

namespace Invariants

variable {s t : State}

/-- In RESETTING only the storage and, between calls, INV8 are to show. -/
theorem of_resetting (hcap : 22 ≤ t.cap) (hwf : Memory.wf t = true) (hst : t.st = stResetting)
    (hidle : t.cont = false → t.buf = [] ∧ t.cur = 0) : Invariants t where
  cap_ok := hcap
  storage := hwf
  code := by simp +decide [hst]
  scanStart := by simp +decide [hst]
  scanPayload := by simp +decide [hst]
  complete := by simp +decide [hst]
  candidate := by simp +decide [hst]
  marker := by simp +decide [hst]
  emitting := by simp +decide [hst]
  idle hc := .inl ⟨hst, hidle hc⟩

/-- In SCAN_START: INV2, and between calls INV7. -/
theorem of_scanStart (hcap : 22 ≤ t.cap) (hwf : Memory.wf t = true) (hst : t.st = stScanStart)
    (hcur : t.cur = 0) (hpkt : t.pktLen = 0) (hidle : t.cont = false → t.cur = t.buf.length) : Invariants t where
  cap_ok := hcap
  storage := hwf
  code := by simp +decide [hst]
  scanStart _ := ⟨hcur, hpkt⟩
  scanPayload := by simp +decide [hst]
  complete := by simp +decide [hst]
  candidate := by simp +decide [hst]
  marker := by simp +decide [hst]
  emitting := by simp +decide [hst]
  idle hc := .inr ⟨.inl hst, hidle hc⟩

/-- In SCAN_PAYLOAD: INV3, INV5, and between calls INV7. -/
theorem of_scanPayload (hcap : 22 ≤ t.cap) (hwf : Memory.wf t = true) (hst : t.st = stScanPayload)
    (hlen : 1 ≤ t.pktLen ∧ t.pktLen = t.cur ∧ t.cur ≤ 21) (hpkt : t.pkt = t.buf.take t.pktLen)
    (hmark : t.pkt[0]? = some startMarker) (hidle : t.cont = false → t.cur = t.buf.length) : Invariants t where
  cap_ok := hcap
  storage := hwf
  code := by simp +decide [hst]
  scanStart := by simp +decide [hst]
  scanPayload _ := hlen
  complete := by simp +decide [hst]
  candidate _ := hpkt
  marker _ := hmark
  emitting := by simp +decide [hst]
  idle hc := .inr ⟨.inr hst, hidle hc⟩

/-- In VALIDATING and EMITTING, which only a running call is in: INV4, INV5 and INV6. -/
theorem of_complete (hcap : 22 ≤ t.cap) (hwf : Memory.wf t = true) (hst : t.st = stValidating ∨ t.st = stEmitting)
    (hlen : t.pktLen = 22 ∧ t.cur = 22 ∧ 22 ≤ t.buf.length) (hpkt : t.pkt = t.buf.take t.pktLen)
    (hmark : t.pkt[0]? = some startMarker)
    (hvalid : t.st = stEmitting → (packetOf t.pkt).map validPacket = some true) (hc : t.cont = true) :
    Invariants t where
  cap_ok := hcap
  storage := hwf
  code := by rcases hst with hst | hst <;> simp +decide [hst]
  scanStart := by rcases hst with hst | hst <;> simp +decide [hst]
  scanPayload := by rcases hst with hst | hst <;> simp +decide [hst]
  complete _ := hlen
  candidate _ := hpkt
  marker _ := hmark
  emitting := hvalid
  idle hc' := absurd (hc'.symm.trans hc) Bool.false_ne_true

/-- INV8: a freshly built block. -/
theorem of_fresh (hcap : 22 ≤ t.cap) (hst : t.st = stResetting) (hbuf : t.buf = []) (hcur : t.cur = 0)
    (hpkt : t.pktLen = 0) : Invariants t :=
  of_resetting hcap (Memory.wf_iff.2 (by simp [hbuf, hcur, hpkt])) hst fun _ => ⟨hbuf, hcur⟩

/-! ## What the invariants do not look at -/

theorem returns (h : Invariants s) (v : Ret) : Invariants (s.returns v) := { h with }

theorem withScript (h : Invariants s) (acts : List Event) : Invariants { s with script := acts } := { h with }

theorem srcFeed (h : Invariants s) (bytes : List Byte) : Invariants (s.srcFeed bytes) := { h with }

theorem returnCount (h : Invariants s) : Invariants s.returnCount := by
  unfold State.returnCount
  split
  · exact h
  · exact h.returns _

/-! ## The facts of a state code, in one piece -/

section
variable (h : Invariants s)
include h

theorem storage_le : s.cur ≤ s.buf.length ∧ s.buf.length ≤ s.cap ∧ s.pktLen ≤ 22 := Memory.wf_iff.1 h.storage

/-- A complete candidate is a packet (R89). -/
theorem packet_of_complete (hst : s.st = stValidating ∨ s.st = stEmitting) : ∃ p : Packet, s.pkt = p.toList := by
  obtain ⟨p, hp⟩ := packetOf_of_length (h.complete hst).1
  exact ⟨p, packetOf_eq_some.1 hp⟩

/-- INV6: what is emitted has passed the validator. -/
theorem validPacket_of_emitting (hst : s.st = stEmitting) :
    ∃ p : Packet, s.pkt = p.toList ∧ validPacket p = true := by
  obtain ⟨p, hp, hv⟩ := Option.map_eq_some_iff.1 (h.emitting hst)
  exact ⟨p, packetOf_eq_some.1 hp, hv⟩

/-- A candidate stays the head of the buffer when bytes are added at the tail. -/
theorem candidate_append (hst : s.st = stScanPayload ∨ s.st = stValidating ∨ s.st = stEmitting) (l : List Byte) :
    s.pkt = (s.buf ++ l).take s.pktLen := by
  have hcand := h.candidate hst
  have hle : s.pktLen ≤ s.buf.length := by
    have := congrArg List.length hcand
    rw [List.length_take] at this
    unfold State.pktLen
    omega
  rw [List.take_append_of_le_length hle]
  exact hcand

/-- The refill and the flag at the start of a call keep the invariants (R140). -/
theorem callStart : Invariants s.callStart where
  cap_ok := h.cap_ok
  storage := Memory.wf_callStart h.storage
  code := h.code
  scanStart := h.scanStart
  scanPayload := h.scanPayload
  complete hst := by
    obtain ⟨hpkt, hcur, hbuf⟩ := h.complete hst
    exact ⟨hpkt, hcur, hbuf.trans (by simp [State.callStart])⟩
  candidate hst := h.candidate_append hst _
  marker := h.marker
  emitting := h.emitting
  idle hc := absurd hc.symm Bool.false_ne_true

/-! ## Micro-steps -/

/-- R237: from a state that meets the invariants no micro-step faults or is refused. -/
theorem microStep_completes : ∃ t, microStep s = .next t := by
  obtain ⟨hcur, -, -⟩ := h.storage_le
  rcases stateCode_cases s.st h.code with hst | hst | hst | hst | hst
  · exact ⟨_, microStep_resetting hst hcur⟩
  · obtain ⟨-, hpkt⟩ := h.scanStart hst
    rcases Nat.lt_or_eq_of_le hcur with hlt | heq
    · by_cases hb : s.buf[s.cur] = startMarker
      · exact ⟨_, (microStep_startHit hst hlt hb).trans (execFsmStartHit_of_lt hlt (by omega))⟩
      · exact ⟨_, microStep_startDrop hst hlt hb⟩
    · exact ⟨_, microStep_startPause hst heq⟩
  · obtain ⟨-, hpkt, hle⟩ := h.scanPayload hst
    rcases Nat.lt_or_eq_of_le hcur with hlt | heq
    · exact ⟨_, (microStep_payloadTake hst hlt).trans (execFsmPayloadTake_of_lt hlt (by omega))⟩
    · exact ⟨_, microStep_payloadPause hst heq⟩
  · obtain ⟨p, hp⟩ := h.packet_of_complete (.inl hst)
    obtain ⟨-, -, hbuf⟩ := h.complete (.inl hst)
    rw [microStep_validate hst hcur hp]
    split
    · exact ⟨_, rfl⟩
    · exact ⟨_, execFsmValidateFail_of_lt (by omega)⟩
  · obtain ⟨p, hp, hv⟩ := h.validPacket_of_emitting hst
    obtain ⟨-, -, hbuf⟩ := h.complete (.inr hst)
    exact ⟨_, (microStep_emit hst hcur).trans (execFsmEmit_of_valid hp (validPacket_indexOk hv) hbuf)⟩

/-- The byte at the cursor extends a candidate that ends there. -/
theorem candidate_take (hst : s.st = stScanPayload) {b : Byte} (hb : s.buf[s.cur]? = some b) :
    s.pkt ++ [b] = s.buf.take (s.pkt ++ [b]).length := by
  obtain ⟨-, hlen, -⟩ := h.scanPayload hst
  have hcand := h.candidate (.inl hst)
  rw [State.pktLen] at hlen hcand
  rw [List.length_append, List.length_singleton, List.take_add_one, ← hcand, hlen, hb]
  rfl

/-- Every micro-step of a call keeps the invariants. -/
theorem of_microStep (hc : s.cont = true) (hm : microStep s = .next t) : Invariants t := by
  have hwf : Memory.wf t = true := kept_wf.of_microStep hm h.storage
  have hcap : 22 ≤ s.cap := h.cap_ok
  have hrun {p : Prop} (hc' : s.cont = false) : p := absurd (hc'.symm.trans hc) Bool.false_ne_true
  cases microStep_next hm with
  | resetting hst hcur => exact of_scanStart hcap hwf rfl rfl rfl hrun
  | pause hst hcur => exact { h with storage := hwf, idle := fun _ => .inr ⟨hst, hcur⟩ }
  | hit hst hcur hb hp =>
    obtain ⟨hcur0, hpkt0⟩ := h.scanStart hst
    have hpkt : s.pkt = [] := List.length_eq_zero_iff.1 hpkt0
    rw [hcur0] at hb
    refine of_scanPayload hcap hwf rfl ?_ ?_ ?_ hrun
    · simp [State.pktLen, hpkt, hcur0]
    · simp [State.pktLen, hpkt, List.take_one, List.head?_eq_getElem?, hb]
    · simp [hpkt]
  | drop b hst hcur hb hne =>
    obtain ⟨hcur0, hpkt0⟩ := h.scanStart hst
    exact of_scanStart hcap hwf hst hcur0 hpkt0 hrun
  | take b hst hcur hb hp =>
    obtain ⟨hpos, hlen, hle⟩ := h.scanPayload hst
    have hcand := h.candidate_take hst hb
    have hmark : (s.pkt ++ [b])[0]? = some startMarker :=
      (List.getElem?_append_left hpos).trans (h.marker (.inl hst))
    have hlen' : (s.pkt ++ [b]).length = s.pktLen + 1 := by simp [State.pktLen]
    by_cases hfull : s.pktLen + 1 = 22
    · refine of_complete hcap hwf (.inl (if_pos hfull)) ?_ hcand hmark ?_ hc
      · refine ⟨hlen'.trans hfull, ?_, ?_⟩ <;> dsimp only <;> omega
      · simp +decide [hfull]
    · refine of_scanPayload hcap hwf ((if_neg hfull).trans hst) ?_ hcand hmark hrun
      rw [State.pktLen, hlen']
      dsimp only
      omega
  | pass p hst hcur hp hv =>
    have hst' : s.st = stValidating ∨ s.st = stEmitting := .inl hst
    exact of_complete hcap hwf (.inr rfl) (h.complete hst') (h.candidate (.inr hst')) (h.marker (.inr hst'))
      (fun _ => by simp [packetOf_eq_some.2 hp, hv]) hc
  | fail p hst hcur hp hv hb => exact of_resetting hcap hwf rfl hrun
  | emit p hst hcur hp hi hb => exact of_resetting hcap hwf rfl hrun

end

end Invariants

/-- Settles O46: a built block is a fresh one, and the configured capacity is a legal one. -/
theorem invariantsHoldAtReset : Obligations.InvariantsHoldAtReset := by
  unfold Obligations.InvariantsHoldAtReset
  exact ⟨fun cap hcap => .of_fresh hcap rfl rfl rfl rfl,
    .of_fresh (Nat.le_add_left 22 Config.bufCapExtra) rfl rfl rfl rfl, rfl⟩

/-! ## The turns of a dutiful host -/

/-- An outcome that is a next state which meets the invariants and has the given acts pending. -/
def CompletesWith (acts : List Event) (o : Out) : Prop := ∃ t, o = .next t ∧ Invariants t ∧ t.script = acts

namespace Invariants

variable {s : State} (h : Invariants s)
include h

/-- The micro-steps of a call, however many, complete and keep the invariants. -/
theorem parseLoop_completes (n : Nat) : ∃ t, parseLoop n s = .next t ∧ Invariants t := by
  induction n generalizing s with
  | zero => exact ⟨s, rfl, h⟩
  | succ n ih =>
    rw [parseLoop]
    split
    · rename_i hc
      obtain ⟨u, hu⟩ := h.microStep_completes
      rw [hu]
      exact ih (h.of_microStep hc hu)
    · exact ⟨s, rfl, h⟩

theorem parse_completes (hc : s.cont = false) : ∃ t, exec .parse s = .next t ∧ Invariants t := by
  obtain ⟨v, hv, hinv⟩ := h.callStart.parseLoop_completes (callBound s.callStart)
  have hp : exec .parse s = .next v.returnCount := by
    rw [exec, execParse_of_idle hc, hv]
    rfl
  exact ⟨_, hp, hinv.returnCount⟩

theorem reset_completes (hc : s.cont = false) : ∃ t, exec .reset s = .next t ∧ Invariants t := by
  refine ⟨s.resetBlock.returns .none, ?_, of_fresh h.cap_ok rfl rfl rfl rfl⟩
  rw [exec, execReset, hc]
  rfl

/-- R215: the operations a host may issue at any time complete and keep the invariants. -/
theorem hostAnytime_completes {i : Instr} (hi : Instr.hostAnytime i = true) :
    ∃ t, exec i s = .next t ∧ Invariants t := by
  cases i with
  | sinkSize => exact ⟨_, rfl, h.returns _⟩
  | hostFeed bytes => exact ⟨_, rfl, (h.srcFeed bytes).returns _⟩
  | _ => cases hi

/-- R215: the operations a host may issue between calls complete there and keep the invariants. -/
theorem hostPort_completes {i : Instr} (hi : Instr.hostPort i = true) (hc : s.cont = false) :
    ∃ t, exec i s = .next t ∧ Invariants t := by
  cases i with
  | reset => exact h.reset_completes hc
  | parse => exact h.parse_completes hc
  | sinkSize => exact h.hostAnytime_completes rfl
  | hostFeed bytes => exact h.hostAnytime_completes rfl
  | _ => cases hi

theorem blockTurn_completes : CompletesWith s.script (s.blockTurn.run exec) := by
  cases hc : s.cont with
  | false => exact ⟨s, blockTurn_run_of_idle hc, h, rfl⟩
  | true =>
    obtain ⟨u, hu⟩ := h.microStep_completes
    have hs : u.returnCount.script = s.script :=
      ((kept_cap_script s.cap s.script).of_returnCount ((kept_cap_script _ _).of_microStep hu ⟨rfl, rfl⟩)).2
    refine ⟨u.returnCount, ?_, (h.of_microStep hc hu).returnCount, hs⟩
    rw [blockTurn_run_of_cont hc, hu]
    rfl

theorem enterCall_completes : CompletesWith s.script s.enterCall.micro :=
  ⟨s.callStart, congrArg Res.micro s.enterCall_eq, h.callStart, rfl⟩

end Invariants

/-- An issued operation that completes and keeps the invariants leaves the pending acts alone. -/
theorem opTurn_completes {s : State} {w : OpWord} {i : Instr} (hd : decode (.op5 w) = .ok i)
    (hi : ∃ t, exec i s = .next t ∧ Invariants t) : CompletesWith s.script ((s.opTurn w).run exec) := by
  obtain ⟨t, ht, hinv⟩ := hi
  exact ⟨t, (opTurn_run_of_ok hd).trans ht, hinv, (exec_cap_script ht).2⟩

theorem Event.dutiful_call {w : OpWord} (h : (Event.call w).dutiful = true) :
    ∃ i, decode (.op5 w) = .ok i ∧ Instr.hostPort i = true := by
  cases hd : decode (.op5 w) with
  | ok i => exact ⟨i, rfl, by simpa [Event.dutiful, hd] using h⟩
  | error e => simp [Event.dutiful, hd] at h

theorem Event.dutiful_inside {w : OpWord} (h : (Event.inside w).dutiful = true) :
    ∃ i, decode (.op5 w) = .ok i ∧ Instr.hostAnytime i = true := by
  cases hd : decode (.op5 w) with
  | ok i => exact ⟨i, rfl, by simpa [Event.dutiful, hd] using h⟩
  | error e => simp [Event.dutiful, hd] at h

/-- R237: with a dutiful host every step completes, keeps the invariants, and leaves the acts it did not take. -/
theorem step_completes {s : State} (h : Invariants s) (hd : s.dutiful = true) :
    ∃ acts : List Event, acts.all Event.dutiful = true ∧ CompletesWith acts (step s) := by
  rw [step_eq, if_neg (Nat.not_lt.2 h.cap_ok)]
  cases hs : s.script with
  | nil => exact ⟨s.script, hd, h.blockTurn_completes⟩
  | cons e rest =>
    obtain ⟨he, hrest⟩ : e.dutiful = true ∧ rest.all Event.dutiful = true := by
      rwa [State.dutiful, hs, List.all_cons, Bool.and_eq_true] at hd
    have h' := h.withScript rest
    cases e with
    | nested p c => cases he
    | pass => exact ⟨rest, hrest, h'.blockTurn_completes⟩
    | inside w =>
      obtain ⟨i, hdec, hi⟩ := Event.dutiful_inside he
      exact ⟨rest, hrest, opTurn_completes hdec (h'.hostAnytime_completes hi)⟩
    | call w =>
      obtain ⟨i, hdec, hi⟩ := Event.dutiful_call he
      dsimp only
      split
      · exact ⟨s.script, hd, h.blockTurn_completes⟩
      · rename_i hc
        exact ⟨rest, hrest, opTurn_completes hdec (h'.hostPort_completes hi (Bool.eq_false_iff.2 hc))⟩
    | enter =>
      dsimp only
      split
      · exact ⟨s.script, hd, h.blockTurn_completes⟩
      · exact ⟨rest, hrest, h'.enterCall_completes⟩

/-- Settles O45: by the host's next act; in a running call the step is a micro-step, which by the invariants neither
faults nor is refused. -/
theorem invariantsAreKept : Obligations.InvariantsAreKept := by
  unfold Obligations.InvariantsAreKept
  intro s h hd
  obtain ⟨acts, hacts, t, ht, hinv, rfl⟩ := step_completes h hd
  exact ⟨t, ht, hinv, hacts⟩

end Sys2Proof.Machine
end

section
/-! PROOFS. What the instructions do to the buffer, the source and the sink (R52, R58, R212, R236), and that a
micro-step does not see the source (R65). -/

namespace Sys2Proof.Machine

/-! ## The buffer -/

/-- A micro-step takes bytes from the head of the buffer only, and adds none (R52). -/
theorem microStep_buf_suffix {s t : State} (h : microStep s = .next t) : t.buf <:+ s.buf := by
  cases microStep_next h with
  | drop | fail | emit => exact List.drop_suffix _ _
  | _ => exact List.suffix_rfl

@[simp] theorem returnCount_buf (s : State) : s.returnCount.buf = s.buf := by
  unfold State.returnCount
  split <;> rfl

/-- What a PARSE leaves in the buffer is the end of what its refill made of it (R140). -/
theorem execParse_buf_suffix {s t : State} (h : execParse s = .next t) :
    t.buf <:+ s.buf ++ bytesAdded s .parse := by
  obtain ⟨-, u, v, rfl, hv, rfl⟩ := execParse_next h
  rw [returnCount_buf]
  exact parseLoop_keeps (P := fun u => u.buf <:+ s.buf ++ bytesAdded s .parse)
    (fun _ _ hu hm => (microStep_buf_suffix hm).trans hu) _ List.suffix_rfl hv

theorem bytesAdded_of_readsOnly {i : Instr} (s : State) (hi : readsOnly i = true) : bytesAdded s i = [] := by
  cases i with
  | bufPush | bufRefill | parse => cases hi
  | _ => rfl

theorem bytesAdded_of_pause {i : Instr} (s : State) (hi : i = .fsmStartPause ∨ i = .fsmPayloadPause) :
    bytesAdded s i = [] := by
  rcases hi with rfl | rfl <;> rfl

/-- The buffer after an instruction is the end of the buffer before it with the instruction's own bytes (R52). -/
theorem execNext_buf_suffix {i : Instr} {s t : State} (h : ExecNext s i t) : t.buf <:+ s.buf ++ bytesAdded s i := by
  cases h with
  | parse t h => exact execParse_buf_suffix h
  | reads i v hi => simp [bytesAdded_of_readsOnly s hi]
  | fsmPause i hi => simp [bytesAdded_of_pause s hi]
  | pushed b hroom => simp [bytesAdded, hroom]
  | unpushed b hfull => simp [bytesAdded, Nat.not_lt.2 hfull]
  | bufRefill => exact List.suffix_rfl
  | reset => exact List.nil_suffix
  | bufPopFront v rest hb => simp [bytesAdded, hb]
  | fsmStartDrop | fsmValidateFail | fsmEmit =>
    rw [bytesAdded, List.append_nil]
    exact List.drop_suffix _ _
  | _ => simp [bytesAdded]

/-- Settles O17: the buffer after is a suffix, and a suffix is what is left after dropping from the head. -/
theorem bufferIsFirstInFirstOut : Obligations.BufferIsFirstInFirstOut := by
  unfold Obligations.BufferIsFirstInFirstOut
  intro i s t h
  exact ⟨_, Nat.sub_le _ _, List.suffix_iff_eq_drop.1 (execNext_buf_suffix (exec_next h))⟩

/-! ## The source and the sink -/

/-- Whatever instruction runs, delivered measurements stay (R58, R212). -/
theorem kept_sink_prefix (delivered : List Meas) : Kept fun s => delivered <+: s.sink where
  returns _ _ hs := hs
  callStart _ hs := hs
  instr hi h hs := by
    cases h with
    | parse t h => exact absurd rfl hi
    | sinkAdd | fsmEmit => exact hs.trans (List.prefix_append _ _)
    | _ => exact hs

/-- R212, R139, R140: an instruction that completes leaves the sink as it was, or it is one of the three that
deliver. -/
theorem execNext_sink {i : Instr} {s t : State} (h : ExecNext s i t) :
    t.sink = s.sink ∨ (∃ a d, i = .sinkAdd a d) ∨ i = .fsmEmit ∨ i = .parse := by
  cases h with
  | sinkAdd a d => exact .inr (.inl ⟨a, d, rfl⟩)
  | fsmEmit => exact .inr (.inr (.inl rfl))
  | parse => exact .inr (.inr (.inr rfl))
  | _ => exact .inl rfl

/-- No micro-step touches the source: the refill is PARSE's own (R140). -/
theorem microStep_src {s t : State} (h : microStep s = .next t) : t.src = s.src := by
  cases microStep_next h <;> rfl

@[simp] theorem returnCount_src (s : State) : s.returnCount.src = s.src := by
  unfold State.returnCount
  split <;> rfl

/-- A PARSE takes from the source what its refill takes (R106, R140). -/
theorem execParse_src {s t : State} (h : execParse s = .next t) : t.src = s.src.drop (s.cap - s.buf.length) := by
  obtain ⟨-, u, v, rfl, hv, rfl⟩ := execParse_next h
  rw [returnCount_src]
  exact parseLoop_keeps (P := fun u => u.src = s.src.drop (s.cap - s.buf.length))
    (fun _ _ hu hm => (microStep_src hm).trans hu) _ rfl hv

/-- R106, R211, R214: an instruction that completes leaves the source as it was, or it is one of the three that take
bytes from its head, or HOST_FEED. -/
theorem execNext_src {i : Instr} {s t : State} (h : ExecNext s i t) :
    t.src = s.src ∨ ((i = .srcNextByte ∨ i = .bufRefill ∨ i = .parse) ∧ ∃ k, t.src = s.src.drop k) ∨
      ∃ bytes, i = .hostFeed bytes := by
  cases h with
  | srcNextByte v rest hs => exact .inr (.inl ⟨.inl rfl, 1, by rw [hs]; rfl⟩)
  | bufRefill => exact .inr (.inl ⟨.inr (.inl rfl), _, rfl⟩)
  | parse t h => exact .inr (.inl ⟨.inr (.inr rfl), _, execParse_src h⟩)
  | hostFeed bytes => exact .inr (.inr ⟨bytes, rfl⟩)
  | _ => exact .inl rfl

/-- Settles O43: no delivered measurement is lost by any instruction, and the rest is what an instruction leaves of sink and source. -/
theorem sourceAndSinkMoveOneWay : Obligations.SourceAndSinkMoveOneWay := by
  unfold Obligations.SourceAndSinkMoveOneWay
  intro i s t h
  have hsink := execNext_sink (exec_next h)
  have hsrc := execNext_src (exec_next h)
  refine ⟨?_, fun hadd hemit hparse => ?_, fun hfeed => ?_, fun hfeed hnext hrefill hparse => ?_⟩
  · obtain ⟨ms, hms⟩ := (kept_sink_prefix s.sink).of_exec h List.prefix_rfl
    exact ⟨ms, hms.symm⟩
  · obtain hs | ⟨a, d, hi⟩ | hi | hi := hsink
    · exact hs
    · exact absurd hi (hadd a d)
    · exact absurd hi hemit
    · exact absurd hi hparse
  · obtain hs | ⟨-, hk⟩ | ⟨bytes, hi⟩ := hsrc
    · exact ⟨0, hs⟩
    · exact hk
    · exact absurd hi (hfeed bytes)
  · obtain hs | ⟨hi | hi | hi, -⟩ | ⟨bytes, hi⟩ := hsrc
    · exact hs
    · exact absurd hi hnext
    · exact absurd hi hrefill
    · exact absurd hi hparse
    · exact absurd hi (hfeed bytes)

/-- R65: a micro-step commutes with HOST_FEED: no branch of it reads the source or writes it. -/
theorem microStep_srcFeed (s : State) (bytes : List Byte) :
    microStep (s.srcFeed bytes) = mapNext (·.srcFeed bytes) (microStep s) := by
  rw [microStep_total, microStep_total]
  simp only [State.srcFeed_st, State.srcFeed_buf, State.srcFeed_cur, State.srcFeed_pkt, State.srcFeed_pktLen]
  cases s.buf[s.cur]? <;> cases packetOf s.pkt <;> simp only [apply_ite (mapNext _)] <;> rfl

/-- Settles O30: feeding commutes with a micro-step, whatever its outcome. -/
theorem feedDuringACallIsUnseen : Obligations.FeedDuringACallIsUnseen := by
  unfold Obligations.FeedDuringACallIsUnseen
  intro s bytes
  rw [microStep_srcFeed]
  exact ⟨fun t h => by rw [h]; rfl, fun f h => by rw [h]; rfl, fun r h => by rw [h]; rfl⟩

end Sys2Proof.Machine
end

section
/-! PROOFS. Steps of the machine: the operation that the host issues (R57, R79, R215), and a PARSE whose micro-steps
are steps (R130, R140). -/

namespace Sys2Proof.Machine

/-- Settles O7: with a legal capacity the turn of the act is the operation, and its meaning is `exec`. -/
theorem stepRunsTheIssuedOperation : Obligations.StepRunsTheIssuedOperation := by
  unfold Obligations.StepRunsTheIssuedOperation
  refine ⟨fun s w rest i hcap hs hd => ?_, fun s w rest i hcap hs hc hd => ?_⟩
  · rw [step_eq, if_neg (Nat.not_lt.2 hcap), hs]
    exact opTurn_run_of_ok hd
  · rw [step_eq, if_neg (Nat.not_lt.2 hcap), hs]
    simp only [hc, Bool.false_eq_true, if_false]
    exact opTurn_run_of_ok hd

/-- The act that begins a stepwise PARSE leaves the state in which the micro-steps of the call begin (R140). -/
theorem step_enter {s : State} (hcap : 22 ≤ s.cap) (hc : s.cont = false) (hs : s.script = []) :
    step { s with script := [.enter] } = .next s.callStart := by
  rw [step_eq, if_neg (Nat.not_lt.2 hcap)]
  simp only [hc, Bool.false_eq_true, if_false, State.enterCall_eq, Res.micro_ok]
  rw [State.callStart, hs]

/-- In a running call with no act pending a step is a micro-step, which returns the count when it ends the call
(R130, R140). -/
theorem step_of_running {s : State} (hcap : 22 ≤ s.cap) (hc : s.cont = true) (hs : s.script = []) :
    step s = finishMicro (microStep s) := by
  rw [step_eq, if_neg (Nat.not_lt.2 hcap), hs]
  exact blockTurn_run_of_cont hc

theorem returnCount_of_cont {s : State} (h : s.cont = true) : s.returnCount = s := if_pos h

/-- The loop of an atomic PARSE, if it ends the call within `n` micro-steps, is at most `n` steps of the machine. -/
theorem run_of_parseLoop (n : Nat) {s t : State} (hcap : 22 ≤ s.cap) (hc : s.cont = true) (hs : s.script = [])
    (h : parseLoop n s = .next t) (ht : t.cont = false) :
    ∃ k, k ≤ n ∧ Sys2Proof.core.run k s = .next t.returnCount := by
  induction n generalizing s with
  | zero =>
    cases h
    exact absurd (hc.symm.trans ht) (by decide)
  | succ n ih =>
    rw [parseLoop, if_pos hc] at h
    split at h
    · rename_i u hu
      obtain ⟨hucap, huscript⟩ := (kept_cap_script s.cap s.script).of_microStep hu ⟨rfl, rfl⟩
      have hstep : step s = .next u.returnCount := by rw [step_of_running hcap hc hs, hu, finishMicro]
      cases huc : u.cont with
      | true =>
        obtain ⟨k, hk, hrun⟩ := ih (hucap ▸ hcap) huc (huscript.trans hs) h
        refine ⟨k + 1, Nat.succ_le_succ hk, ?_⟩
        rw [core_run_next k hstep, returnCount_of_cont huc, hrun]
      | false =>
        rw [parseLoop_of_idle n huc] at h
        cases h
        exact ⟨1, Nat.succ_le_succ (Nat.zero_le n), core_run_next 0 hstep⟩
    · cases h
    · cases h

/-- R143 (a): the bound on the micro-steps of a call, by what is buffered and what its refill can take. -/
theorem callBound_callStart (s : State) : callBound s.callStart =
    24 * min (s.buf.length + s.src.length) (max s.cap s.buf.length) + 2 := by
  simp only [callBound, State.callStart, List.length_append, List.length_take]
  omega

/-- Settles O60: one step for the act and the refill, then a step for each micro-step of the atomic call. -/
theorem stepwiseParseIsParse : Obligations.StepwiseParseIsParse := by
  unfold Obligations.StepwiseParseIsParse
  intro s t hcap hc hs h
  obtain ⟨-, u, v, (rfl : u = s.callStart), hv, rfl⟩ := execParse_next h
  have hvc : v.cont = false := parseLoop_cont _ (callMeasure_le_callBound _) hv
  obtain ⟨k, hk, hrun⟩ := run_of_parseLoop _ (s := s.callStart) hcap rfl hs hv hvc
  rw [callBound_callStart] at hk
  exact ⟨k + 1, Nat.succ_le_succ hk, (core_run_next k (step_enter hcap hc hs)).trans hrun⟩

end Sys2Proof.Machine
end

section
/-! PROOFS. The operation words of R79: each row's operand form, reader and encoding agree, so encoding and decoding do;
and the codes without a row are refused (R88). -/

namespace Sys2Proof

/-! ## The rows of R79 -/

/-- What a row makes of an operand list: it reads an instruction, and then the list is of the row's form and the
instruction encodes back to the row's code with that list; or the list is not of the form. -/
inductive RowReading (op : BitVec 5) (form : OperandForm) (args : List Nat) : Option Instr → Prop
  | read (i : Instr) (hfits : form.fits args = true) (henc : encode i = .op5 ⟨op, args⟩) :
      RowReading op form args (some i)
  | rejected (hfits : form.fits args = false) : RowReading op form args none

/-- A row of R79: its operand form and its reader agree with each other and with the encoder. -/
def RowSound (op : BitVec 5) (form : OperandForm) (rd : List Nat → Option Instr) : Prop :=
  ∀ args, RowReading op form args (rd args)

/-- Numbers below 256 are the values of the bytes that the decoder makes of them. -/
theorem map_toNat_map_ofNat {args : List Nat} (h : args.all (fun b => decide (b < 256)) = true) :
    (args.map (BitVec.ofNat 8)).map BitVec.toNat = args := by
  rw [List.map_map]
  refine (List.map_congr_left fun b hb => ?_).trans (List.map_id args)
  exact Nat.mod_eq_of_lt (of_decide_eq_true (List.all_eq_true.1 h b hb))

namespace RowSound

variable {op : BitVec 5}

theorem nothing {i : Instr} (henc : encode i = .op5 ⟨op, []⟩) : RowSound op .nothing (argsNone i)
  | [] => .read i rfl henc
  | _ :: _ => .rejected rfl

theorem byte {f : Byte → Instr} (henc : ∀ b, encode (f b) = .op5 ⟨op, [b.toNat]⟩) :
    RowSound op .byte (argsByte f)
  | [b] => by
    rw [argsByte]
    split
    · rename_i hb
      refine .read _ (decide_eq_true hb) ?_
      rw [henc, BitVec.toNat_ofNat, Nat.mod_eq_of_lt hb]
    · rename_i hb
      exact .rejected (decide_eq_false hb)
  | [] | _ :: _ :: _ => .rejected rfl

theorem natural {f : Nat → Instr} (henc : ∀ n, encode (f n) = .op5 ⟨op, [n]⟩) :
    RowSound op .natural (argsNatural f)
  | [n] => .read _ rfl (henc n)
  | [] | _ :: _ :: _ => .rejected rfl

theorem slot {f : Fin 4 → Instr} (henc : ∀ k, encode (f k) = .op5 ⟨op, [k.val]⟩) :
    RowSound op .slot (argsSlot f)
  | [k] => by
    rw [argsSlot]
    split
    · rename_i hk
      exact .read _ (decide_eq_true hk) (henc ⟨k, hk⟩)
    · rename_i hk
      exact .rejected (decide_eq_false hk)
  | [] | _ :: _ :: _ => .rejected rfl

theorem u16Pair {f : U16 → U16 → Instr} (henc : ∀ a d, encode (f a d) = .op5 ⟨op, [a.toNat, d.toNat]⟩) :
    RowSound op .u16Pair (argsU16Pair f)
  | [a, d] => by
    have hfits : OperandForm.u16Pair.fits [a, d] = decide (a < 65536 ∧ d < 65536) := (Bool.decide_and _ _).symm
    rw [argsU16Pair]
    split
    · rename_i h
      refine .read _ (hfits.trans (decide_eq_true h)) ?_
      rw [henc, BitVec.toNat_ofNat, BitVec.toNat_ofNat, Nat.mod_eq_of_lt h.1, Nat.mod_eq_of_lt h.2]
    · rename_i h
      exact .rejected (hfits.trans (decide_eq_false h))
  | [] | [_] | _ :: _ :: _ :: _ => .rejected rfl

theorem bytes {f : List Byte → Instr} (henc : ∀ l, encode (f l) = .op5 ⟨op, l.map BitVec.toNat⟩) :
    RowSound op .bytes (argsBytes f) := by
  intro args
  rw [argsBytes]
  split
  · rename_i h
    refine .read _ h ?_
    rw [henc, map_toNat_map_ofNat h]
  · rename_i h
    exact .rejected (Bool.eq_false_iff.2 h)

end RowSound

/-- A code of format OP5 has no row, or a sound one. -/
inductive OpRow (op : BitVec 5) : Prop
  | unassigned (hform : operandForm op = none) (hreader : opReader op = none)
  | assigned (form : OperandForm) (rd : List Nat → Option Instr) (hform : operandForm op = some form)
      (hreader : opReader op = some rd) (hsound : RowSound op form rd)

/-- R79, R88: the 32 codes, by the form of their operands. -/
theorem opRow : ∀ op : BitVec 5, OpRow op
  | ⟨⟨0x00, _⟩⟩ | ⟨⟨0x01, _⟩⟩ | ⟨⟨0x02, _⟩⟩ | ⟨⟨0x03, _⟩⟩ | ⟨⟨0x05, _⟩⟩ | ⟨⟨0x09, _⟩⟩ | ⟨⟨0x0B, _⟩⟩ | ⟨⟨0x0C, _⟩⟩
  | ⟨⟨0x0D, _⟩⟩ | ⟨⟨0x0E, _⟩⟩ | ⟨⟨0x10, _⟩⟩ | ⟨⟨0x12, _⟩⟩ | ⟨⟨0x13, _⟩⟩ | ⟨⟨0x16, _⟩⟩ | ⟨⟨0x18, _⟩⟩ | ⟨⟨0x19, _⟩⟩
  | ⟨⟨0x1A, _⟩⟩ => .assigned _ _ rfl rfl (.nothing rfl)
  | ⟨⟨0x08, _⟩⟩ | ⟨⟨0x11, _⟩⟩ => .assigned _ _ rfl rfl (.byte fun _ => rfl)
  | ⟨⟨0x0A, _⟩⟩ => .assigned _ _ rfl rfl (.natural fun _ => rfl)
  | ⟨⟨0x14, _⟩⟩ | ⟨⟨0x15, _⟩⟩ => .assigned _ _ rfl rfl (.slot fun _ => rfl)
  | ⟨⟨0x04, _⟩⟩ => .assigned _ _ rfl rfl (.u16Pair fun _ _ => rfl)
  | ⟨⟨0x1F, _⟩⟩ => .assigned _ _ rfl rfl (.bytes fun _ => rfl)
  | ⟨⟨0x06, _⟩⟩ | ⟨⟨0x07, _⟩⟩ | ⟨⟨0x0F, _⟩⟩ | ⟨⟨0x17, _⟩⟩ | ⟨⟨0x1B, _⟩⟩ | ⟨⟨0x1C, _⟩⟩ | ⟨⟨0x1D, _⟩⟩ | ⟨⟨0x1E, _⟩⟩ =>
    .unassigned rfl rfl
  | ⟨⟨_ + 0x20, h⟩⟩ => absurd h (by omega)

/-- R88: the codes without a row. -/
theorem opReader_eq_none_iff (op : BitVec 5) :
    opReader op = none ↔ op.toNat ∈ [0x06, 0x07, 0x0F, 0x17, 0x1B, 0x1C, 0x1D, 0x1E] := by
  rw [← Option.isNone_iff_eq_none]
  revert op
  decide

/-! ## The decoder of operation words -/

theorem decodeOp_eq_unassigned_iff (w : OpWord) :
    decodeOp w = .error (.unassignedOp w.op) ↔ opReader w.op = none := by
  unfold decodeOp
  split
  · simp [*]
  · split <;> simp [*]

/-- What the decoder reads from a word encodes to it. -/
theorem encode_of_decodeOp {w : OpWord} {i : Instr} (h : decodeOp w = .ok i) : encode i = .op5 w := by
  obtain ⟨rd, hrd, hi⟩ := decodeOp_eq_ok h
  cases opRow w.op with
  | unassigned hform hreader => exact absurd (hreader.symm.trans hrd) (by simp)
  | assigned form rd' hform hreader hsound =>
    obtain rfl : rd' = rd := Option.some.inj (hreader.symm.trans hrd)
    have hrow := hsound w.args
    rw [hi] at hrow
    cases hrow with
    | read _ hfits henc => exact henc

/-- A word decodes exactly where it is well formed (log entry 10). -/
theorem decodeOp_ok_iff_wf (w : OpWord) : (∃ i, decodeOp w = .ok i) ↔ w.wf = true := by
  cases opRow w.op with
  | unassigned hform hreader => simp [decodeOp, OpWord.wf, hform, hreader]
  | assigned form rd hform hreader hsound =>
    have hrow := hsound w.args
    simp only [decodeOp, OpWord.wf, hform, hreader]
    generalize rd w.args = r at hrow
    cases hrow with
    | read i hfits henc => simp [hfits]
    | rejected hfits => simp [hfits]

/-! ## Round trips -/

/-- R79, R82: the decoder undoes the encoder. -/
theorem decode_encode (i : Instr) : decode (encode i) = .ok i := by
  cases i with
  | sinkAdd a d => exact Laws.RoundTrip.sinkAdd a d
  | bufPush b => exact Laws.RoundTrip.bufPush b
  | pktAppend b => exact Laws.RoundTrip.pktAppend b
  | decAngle k => exact Laws.RoundTrip.decAngle k
  | decDist k => exact Laws.RoundTrip.decDist k
  | hostFeed bytes => exact Laws.RoundTrip.hostFeed bytes
  | _ => rfl

/-- An operation word of the encoder is well formed, because it decodes. -/
theorem wf_of_encode {i : Instr} {w : OpWord} (h : encode i = .op5 w) : (encode i).wf = true := by
  have hd : decode (.op5 w) = .ok i := h ▸ decode_encode i
  rw [h]
  exact (decodeOp_ok_iff_wf w).1 ⟨i, hd⟩

/-- The encoder writes well-formed words: an operation word by its row, a selector by its bits (R80, R81). -/
theorem encode_wf (i : Instr) : (encode i).wf = true := by
  cases i with
  | fsmResetting | fsmStartPause | fsmStartHit | fsmStartDrop | fsmPayloadPause | fsmPayloadTake | fsmValidateFail
  | fsmValidatePass | fsmEmit => rfl
  | _ => exact wf_of_encode rfl

/-- Settles O1: the round trip of every instruction, and every encoding is well formed. -/
theorem decodeEncodeAgree : Obligations.DecodeEncodeAgree := by
  unfold Obligations.DecodeEncodeAgree
  exact fun i => ⟨decode_encode i, encode_wf i⟩

/-- Settles O2: the row that reads a word encodes back to its code and operand list. -/
theorem operationWordsHaveOneReading : Obligations.OperationWordsHaveOneReading := by
  unfold Obligations.OperationWordsHaveOneReading
  exact fun _ _ h => encode_of_decodeOp h

namespace Machine

/-- A word that is no operation, issued at once or between calls, is refused for the decoder's reason (R238). -/
theorem step_of_undecoded {s : State} {w : OpWord} {rest : List Event} {e : DecodeError} (hcap : 22 ≤ s.cap)
    (hs : s.script = .inside w :: rest ∨ (s.script = .call w :: rest ∧ s.cont = false))
    (hd : decode (.op5 w) = .error e) : step s = .refused (refusalOf e) := by
  rw [step_eq, if_neg (Nat.not_lt.2 hcap)]
  rcases hs with hs | ⟨hs, hc⟩
  · rw [hs]
    exact opTurn_run_of_error hd
  · simp only [hs, hc, Bool.false_eq_true, if_false]
    exact opTurn_run_of_error hd

/-- Settles O3: the codes without a row are the eight, and what the decoder answers of them the step refuses. -/
theorem unassignedIdentifiersRefused : Obligations.UnassignedIdentifiersRefused := by
  unfold Obligations.UnassignedIdentifiersRefused
  have hiff (w : OpWord) := (decodeOp_eq_unassigned_iff w).trans (opReader_eq_none_iff w.op)
  exact ⟨hiff, decodeOp_ok_iff_wf, fun _ w _ hcap hs hop => step_of_undecoded hcap hs ((hiff w).2 hop)⟩

end Machine

end Sys2Proof
end

section
/-! PROOFS. The step selector: how it is formed (R81), its table in words (R82), the reserved state codes and small
capacities that are refused (R87, R262), and the stored checksum that never matches (R86). -/

namespace Sys2Proof.Machine

/-! ## The step selector -/

/-- The byte part of a selector: the byte at the cursor, or 0 where the scan is exhausted (R81). -/
theorem State.selectorByte_eq_getD {s : State} (h : s.cur ≤ s.buf.length) :
    s.selectorByte = .ok (s.buf.getD s.cur 0#8) := by
  rcases Nat.lt_or_eq_of_le h with hlt | heq
  · rw [State.selectorByte_of_lt hlt, List.getD_eq_getElem _ _ hlt]
  · rw [State.selectorByte_of_eq heq, List.getD_eq_default _ _ heq.ge]

/-- The verdict part of a selector: set exactly in VALIDATING with a valid packet (R81). -/
theorem State.selectorVerdict_iff {s : State} (h : s.st = stValidating → s.pktLen = 22) :
    ∃ v, s.selectorVerdict = .ok v ∧
      (v = true ↔ s.st = stValidating ∧ (packetOf s.pkt).map validPacket = some true) := by
  by_cases hst : s.st = stValidating
  · obtain ⟨p, hp⟩ := packetOf_of_length (h hst)
    exact ⟨validPacket p, s.selectorVerdict_of_toList hst (packetOf_eq_some.1 hp), by simp [hst, hp]⟩
  · exact ⟨false, s.selectorVerdict_of_ne hst, by simp [hst]⟩

/-- Settles O5: the selector is the word of its four parts, and each part is read back from it. -/
theorem selectorIsFormedFromTheState : Obligations.SelectorIsFormedFromTheState := by
  unfold Obligations.SelectorIsFormedFromTheState
  intro s hcur hpkt
  obtain ⟨v, hv, hviff⟩ := s.selectorVerdict_iff hpkt
  refine ⟨selectorWord v (s.buf.getD s.cur 0#8) s.exh s.st, ?_, selSt_selectorWord .., ?_, selByte_selectorWord .., ?_⟩
  · simp only [State.selector, State.selectorByte_eq_getD hcur, hv]
  · rw [selExh_selectorWord, State.exh_iff]
  · rw [selVerdict_selectorWord, hviff]

/-- R82 in words, of every selector. -/
theorem decodeSel_eq_rowInWords (sel : BitVec 13) :
    decodeSel sel = rowInWords (selVerdict sel) (selByte sel) (selExh sel) (selSt sel) := by
  rw [← decodeSel_selectorWord, selectorWord_parts]

/-- Settles O4: a selector is the word of its four parts, and of such words the table is known. -/
theorem stepDecodeIsTheTable : Obligations.StepDecodeIsTheTable := by
  unfold Obligations.StepDecodeIsTheTable
  exact decodeSel_eq_rowInWords

/-- Settles O6: nine words are encodings; of the other two selectors, one meets the row of FSM_START_DROP and one
none. -/
theorem sampleWordsDecode : Obligations.SampleWordsDecode := by
  unfold Obligations.SampleWordsDecode
  exact ⟨decode_encode .reset, decode_encode .parse, decode_encode (.sinkAdd 6#16 16383#16),
    decode_encode (.bufPush 0xA0#8), decode_encode (.decAngle 2), decode_encode .valVerdict,
    decode_encode (.hostFeed [0x11#8, 0x22#8]), decode_encode .fsmStartHit, rfl,
    decode_encode .fsmValidatePass, rfl⟩

/-! ## Refused states -/

/-- Settles O9: the step of a running call is its micro-step, whose selector a reserved code fails or a cursor beyond
the buffer cannot form; the capacity is looked at before anything else. -/
theorem reservedStateAndSmallCapacityRefused : Obligations.ReservedStateAndSmallCapacityRefused := by
  unfold Obligations.ReservedStateAndSmallCapacityRefused
  refine ⟨fun s hcap hs hc hst => ⟨fun hcur => ?_, fun hcur => ?_⟩, fun s hcap => ?_⟩
  · rw [step_of_running hcap hc hs, microStep_of_reserved hcur hst, finishMicro]
  · rw [step_of_running hcap hc hs, microStep_of_gt hcur, finishMicro]
  · rw [step_eq, if_pos hcap]

/-! ## The stored checksum -/

/-- R191: the checksum has 15 bits. -/
theorem checksumOf_lt (p : Packet) : (checksumOf p).toNat < 2 ^ 15 := by
  rw [checksumOf_toNat]
  exact Nat.mod_lt _ (by decide)

/-- R75: byte 21 is the upper half of the stored checksum. -/
theorem storedChecksum_ge {p : Packet} (h : 0x80#8 ≤ p[21]) : 2 ^ 15 ≤ (storedChecksum p).toNat := by
  have h21 : 0x80 ≤ p[21].toNat := h
  rw [storedChecksum, le16_toNat]
  omega

/-- R86: bit 15 of a stored checksum makes the packet invalid, whatever else it holds. -/
theorem validPacket_of_topBit {p : Packet} (h : 0x80#8 ≤ p[21]) : validPacket p = false := by
  have hne : checksumOf p ≠ storedChecksum p := fun heq =>
    Nat.not_lt.2 (storedChecksum_ge h) (heq ▸ checksumOf_lt p)
  simp [validPacket, hne]

/-- VAL_VERDICT of a complete packet hands its verdict back (R192). -/
theorem execValVerdict_of_toList {s : State} {p : Packet} (h : s.pkt = p.toList) :
    execValVerdict s = .next (s.returns (.bool (validPacket p))) := by
  rw [execValVerdict, State.valVerdict, State.field_of_toList _ _ h, State.answers_ok]

/-- Settles O27: the computed checksum has 15 bits, so it differs from a stored one with bit 15 set. -/
theorem storedTopBitNeverMatches : Obligations.StoredTopBitNeverMatches := by
  unfold Obligations.StoredTopBitNeverMatches
  intro s hlen htop
  obtain ⟨p, hp⟩ := packetOf_of_length hlen
  have hpkt : s.pkt = p.toList := packetOf_eq_some.1 hp
  have htop' : 0x80#8 ≤ p[21] := by simpa [hpkt] using htop
  rw [exec, execValVerdict_of_toList hpkt, validPacket_of_topBit htop']
  rfl

end Sys2Proof.Machine
end

section
/-! PROOFS. The frame buffer (R100 to R106), and where the micro-steps fault (R101, R103, R139, R171, R174). -/

namespace Sys2Proof.Machine

/-! ## The operations of the frame buffer -/

/-- Settles O12: whether there is room decides what BUF_PUSH does. -/
theorem pushAppendsAtTheTail : Obligations.PushAppendsAtTheTail := by
  unfold Obligations.PushAppendsAtTheTail
  refine fun s b => ⟨decode_encode (.bufPush b), fun h => ?_, fun h => ?_⟩
  · rw [exec, execBufPush, State.bufPush_of_lt b h]
    rfl
  · rw [exec, execBufPush, State.bufPush_of_le b h]
    rfl

/-- BUF_POP_FRONT of a buffer that holds a byte, the cursor saturating at 0 (R101). -/
theorem execBufPopFront_of_cons {s : State} {v : Byte} {rest : List Byte} (h : s.buf = v :: rest) :
    execBufPopFront s = .next { s with buf := rest, cur := s.cur - 1, ret := .byte v } := by
  rw [execBufPopFront, State.bufPopFront_of_cons h]
  rfl

/-- Settles O13: a saturating subtraction moves the cursor down with the head, and leaves a cursor at 0 there. -/
theorem popRemovesTheOldestByte : Obligations.PopRemovesTheOldestByte := by
  unfold Obligations.PopRemovesTheOldestByte
  refine ⟨decode_encode .bufPopFront, fun s v rest h _ => execBufPopFront_of_cons h, fun s v rest h hcur => ?_,
    fun s h => ?_⟩
  · have hsame : s.cur - 1 = s.cur := by rw [hcur]
    rw [exec, execBufPopFront_of_cons h, hsame]
  · rw [exec, execBufPopFront, State.bufPopFront_of_nil h]
    rfl

/-- Settles O14: a read answers the byte or faults, the other two only answer. -/
theorem bufferReadsChangeNothing : Obligations.BufferReadsChangeNothing := by
  unfold Obligations.BufferReadsChangeNothing
  refine ⟨fun s o => ⟨decode_encode (.bufPeekAt o), fun h => ?_, fun h => ?_⟩, decode_encode .bufLen,
    decode_encode .bufIsScanExhausted, fun s => ⟨rfl, fun h => ?_, fun h => ?_⟩⟩
  · rw [exec, execBufPeekAt, State.bufRead_of_lt _ h]
    rfl
  · rw [exec, execBufPeekAt, State.bufRead_of_le _ h]
    rfl
  · rw [exec, execBufIsScanExhausted, State.exh_iff.2 h]
    rfl
  · rw [exec, execBufIsScanExhausted, Bool.eq_false_iff.2 (mt State.exh_iff.1 h)]
    rfl

/-- Settles O15: whether the cursor is below the length decides what BUF_NEXT does. -/
theorem nextReadsAndAdvances : Obligations.NextReadsAndAdvances := by
  unfold Obligations.NextReadsAndAdvances
  refine fun s => ⟨decode_encode .bufNext, fun h => ?_, fun h => ?_⟩
  · rw [exec, execBufNext, State.bufNext_of_lt h]
    rfl
  · rw [exec, execBufNext, State.bufNext_of_le h]
    rfl

/-- Settles O16: what a refill moves is the source's first bytes, as many as there is room for. -/
theorem refillMovesWhatFits : Obligations.RefillMovesWhatFits := by
  unfold Obligations.RefillMovesWhatFits
  refine ⟨decode_encode .bufRefill, fun s => ⟨s.src.take (s.cap - s.buf.length), s.src.drop (s.cap - s.buf.length),
    (List.take_append_drop _ _).symm, List.length_take, ?_⟩⟩
  rw [exec, execBufRefill, State.refill_eq]
  rfl

/-! ## The faults of the micro-steps -/

/-- A packet register of 22 slots is a packet, and its slot 1 is the packet's index byte (R72, R89). -/
theorem packet_of_pkt_length {s : State} (h : s.pkt.length = 22) :
    ∃ p : Packet, s.pkt = p.toList ∧ s.pkt[1] = packetIndex p := by
  obtain ⟨p, hp⟩ := packetOf_of_length h
  have hpkt : s.pkt = p.toList := packetOf_eq_some.1 hp
  exact ⟨p, hpkt, by simp [hpkt, packetIndex]⟩

/-- R190: the index range, on bytes. -/
theorem indexOk_iff_le (b : Byte) : indexOk b = true ↔ 0xA0#8 ≤ b ∧ b ≤ 0xF9#8 := by
  rw [indexOk, Bool.and_eq_true, decide_eq_true_eq, decide_eq_true_eq]
  rfl

/-- Settles O39: each fault is that of the operation that raises it. -/
theorem microStepFaults : Obligations.MicroStepFaults := by
  unfold Obligations.MicroStepFaults
  refine ⟨fun s h => ⟨execFsmStartHit_of_le h, execFsmPayloadTake_of_le h⟩,
    fun s h hp => ⟨execFsmStartHit_of_full h hp, execFsmPayloadTake_of_full h hp⟩,
    fun s h => execFsmValidateFail_of_nil h, fun s h => execFsmEmit_of_ne h.ne, fun s h hi => ?_,
    fun s h hlo hhi hb => ?_⟩
  · obtain ⟨p, hpkt, hidx⟩ := packet_of_pkt_length h
    rw [hidx] at hi ⊢
    exact execFsmEmit_of_index hpkt (Bool.eq_false_iff.2 (mt (indexOk_iff_le _).1 hi))
  · obtain ⟨p, hpkt, hidx⟩ := packet_of_pkt_length h
    rw [hidx] at hlo hhi
    exact execFsmEmit_of_short hpkt ((indexOk_iff_le _).2 ⟨hlo, hhi⟩) hb

end Sys2Proof.Machine
end

section
/-! PROOFS. PARSE computes the stream function (R130 to R144): with the candidate kept at the head of the buffer, what
is delivered and what the stream function still makes of the buffer stay together the same in every micro-step. -/

namespace Sys2Proof.Machine

/-! ## The stream function on a buffer -/

/-- To skip bytes is to scan what is behind them. -/
theorem streamScan_skip (n : Nat) (l : List Byte) : streamScan n l = streamScan 0 (l.drop n) := by
  induction n generalizing l with
  | zero => rfl
  | succ n ih =>
    cases l with
    | nil => rfl
    | cons b rest => exact ih rest

/-- A byte that is not a marker is passed over. -/
theorem streamScan_of_ne {l : List Byte} {b : Byte} (hb : l[0]? = some b) (hne : b ≠ startMarker) :
    streamScan 0 l = streamScan 0 (l.drop 1) := by
  cases l with
  | nil => rfl
  | cons c rest =>
    obtain rfl : c = b := by simpa using hb
    rw [streamScan, if_neg hne]
    rfl

/-- A marker whose window the stream is too short for begins what is left over. -/
theorem streamScan_of_short {l : List Byte} (hm : l[0]? = some startMarker) (hl : l.length < 22) :
    streamScan 0 l = ([], l) := by
  cases l with
  | nil => rfl
  | cons c rest =>
    obtain rfl : c = startMarker := by simpa using hm
    have hnone : packetOf ((startMarker :: rest).take 22) = none := by
      rw [packetOf_eq_none, List.length_take]
      omega
    rw [streamScan, if_pos rfl, hnone]

/-- A window that is not valid loses its marker. -/
theorem streamScan_of_invalid {l : List Byte} {p : Packet} (hm : l[0]? = some startMarker)
    (hp : l.take 22 = p.toList) (hv : validPacket p = false) : streamScan 0 l = streamScan 0 (l.drop 1) := by
  cases l with
  | nil => rfl
  | cons c rest =>
    obtain rfl : c = startMarker := by simpa using hm
    rw [streamScan, if_pos rfl, packetOf_eq_some.2 hp]
    simp [hv]

/-- A valid window is delivered and skipped. -/
theorem streamScan_of_valid {l : List Byte} {p : Packet} (hm : l[0]? = some startMarker)
    (hp : l.take 22 = p.toList) (hv : validPacket p = true) :
    streamScan 0 l = (measurementsOf p ++ measurementsIn (l.drop 22), leftover (l.drop 22)) := by
  cases l with
  | nil => simp at hm
  | cons c rest =>
    obtain rfl : c = startMarker := by simpa using hm
    rw [streamScan, if_pos rfl, packetOf_eq_some.2 hp]
    simp [hv, streamScan_skip 21, measurementsIn, leftover]

/-! ## The candidate in the buffer -/

namespace Invariants

variable {s : State} (h : Invariants s)
include h

/-- INV5 and R71: while there is a candidate, the buffer begins with its marker. -/
theorem buf_head (hst : s.st = stScanPayload ∨ s.st = stValidating ∨ s.st = stEmitting) :
    s.buf[0]? = some startMarker := by
  have hmark := h.marker hst
  rw [h.candidate hst, List.getElem?_take] at hmark
  split at hmark
  · exact hmark
  · cases hmark

/-- INV4 and INV5: a complete candidate is the window at the head of the buffer. -/
theorem buf_take (hst : s.st = stValidating ∨ s.st = stEmitting) : s.buf.take 22 = s.pkt := by
  have hcand := h.candidate (.inr hst)
  rw [(h.complete hst).1] at hcand
  exact hcand.symm

/-- What a paused call leaves: nothing, or a partial candidate that is the whole buffer (INV7, R142). -/
theorem paused_cases (hc : s.cont = false) (hst : s.st = stScanStart ∨ s.st = stScanPayload) :
    (s.st = stScanStart ∧ s.buf = [] ∧ s.pkt = [] ∧ s.cur = 0) ∨
      (s.st = stScanPayload ∧ s.pkt = s.buf ∧ s.cur = s.buf.length ∧ s.buf[0]? = some startMarker ∧
        s.buf.length < 22) := by
  have hcur : s.cur = s.buf.length := by
    rcases h.idle hc with ⟨-, hbuf, hcur⟩ | ⟨-, hcur⟩
    · rw [hbuf, hcur]
      rfl
    · exact hcur
  rcases hst with hst | hst
  · obtain ⟨hcur0, hpkt0⟩ := h.scanStart hst
    exact .inl ⟨hst, List.length_eq_zero_iff.1 (hcur.symm.trans hcur0), List.length_eq_zero_iff.1 hpkt0, hcur0⟩
  · obtain ⟨-, hlen, hle⟩ := h.scanPayload hst
    have hcand := h.candidate (.inl hst)
    rw [hlen, hcur, List.take_length] at hcand
    exact .inr ⟨hst, hcand, hcur, h.buf_head (.inl hst), by omega⟩

/-- Of the buffer of a paused call the stream function makes no measurement, and it is left over whole (R142). -/
theorem streamScan_of_paused (hc : s.cont = false) (hst : s.st = stScanStart ∨ s.st = stScanPayload) :
    streamScan 0 s.buf = ([], s.buf) := by
  rcases h.paused_cases hc hst with ⟨-, hbuf, -, -⟩ | ⟨-, -, -, hmark, hlen⟩
  · rw [hbuf]
    rfl
  · exact streamScan_of_short hmark hlen

/-- A paused call keeps its candidate in buffer and packet alike, and the state code says whether there is one
(R142). -/
theorem candidate_of_paused (hc : s.cont = false) (hst : s.st = stScanStart ∨ s.st = stScanPayload) :
    s.pkt = s.buf ∧ s.cur = s.buf.length ∧ (s.buf = [] → s.st = stScanStart) ∧
      (s.buf ≠ [] → s.st = stScanPayload) := by
  rcases h.paused_cases hc hst with ⟨hst, hbuf, hpkt, hcur⟩ | ⟨hst, hpkt, hcur, hmark, -⟩
  · exact ⟨hpkt.trans hbuf.symm, by rw [hbuf, hcur]; rfl, fun _ => hst, fun hne => absurd hbuf hne⟩
  · exact ⟨hpkt, hcur, fun hbuf => by simp [hbuf] at hmark, fun _ => hst⟩

end Invariants

/-! ## The simulation -/

/-- A state of a running or just ended call that is to deliver what the stream function makes of `stream`, after the
measurements `before`: what it has delivered and what its buffer still makes up to it. -/
structure FollowsStream (before : List Meas) (stream : List Byte) (s : State) : Prop where
  delivered : s.sink ++ measurementsIn s.buf = before ++ measurementsIn stream
  counted : s.emitted + (measurementsIn s.buf).length = (measurementsIn stream).length
  left : leftover s.buf = leftover stream
  /-- only a pause ends the call (R24) -/
  paused : s.cont = false → s.st = stScanStart ∨ s.st = stScanPayload

namespace FollowsStream

variable {before : List Meas} {stream : List Byte} {s t : State}

/-- A call begins with all of its stream in the buffer. -/
theorem of_callStart (s : State) : FollowsStream s.sink s.callStart.buf s.callStart where
  delivered := rfl
  counted := Nat.zero_add _
  left := rfl
  paused hc := absurd hc.symm Bool.false_ne_true

/-- A step within the call that delivers nothing, and passes over nothing that the stream function would not. -/
theorem of_scan_eq (h : FollowsStream before stream s) (hscan : streamScan 0 s.buf = streamScan 0 t.buf)
    (hsink : t.sink = s.sink) (hemitted : t.emitted = s.emitted)
    (hpaused : t.cont = false → t.st = stScanStart ∨ t.st = stScanPayload) : FollowsStream before stream t where
  delivered := by rw [hsink, measurementsIn, ← hscan]; exact h.delivered
  counted := by rw [hemitted, measurementsIn, ← hscan]; exact h.counted
  left := by rw [leftover, ← hscan]; exact h.left
  paused := hpaused

/-- A step that delivers the packet of a valid window and takes the window off the buffer. -/
theorem of_valid (h : FollowsStream before stream s) {p : Packet}
    (hscan : streamScan 0 s.buf = (measurementsOf p ++ measurementsIn t.buf, leftover t.buf))
    (hsink : t.sink = s.sink ++ measurementsOf p) (hemitted : t.emitted = s.emitted + 4)
    (hpaused : t.cont = false → t.st = stScanStart ∨ t.st = stScanPayload) : FollowsStream before stream t := by
  obtain ⟨hdelivered, hcounted, hleft, -⟩ := h
  rw [measurementsIn, hscan] at hdelivered hcounted
  rw [leftover, hscan] at hleft
  refine ⟨?_, ?_, hleft, hpaused⟩
  · rw [hsink, List.append_assoc]
    exact hdelivered
  · rw [List.length_append, measurementsOf_length] at hcounted
    rw [hemitted]
    omega

/-- Every micro-step of a call keeps to the stream. -/
theorem of_microStep (h : FollowsStream before stream s) (hinv : Invariants s) (hc : s.cont = true)
    (hm : microStep s = .next t) : FollowsStream before stream t := by
  have hrun {p : Prop} (hc' : s.cont = false) : p := absurd (hc'.symm.trans hc) Bool.false_ne_true
  cases microStep_next hm with
  | resetting | hit | take | pass => exact h.of_scan_eq rfl rfl rfl hrun
  | pause hst hcur => exact h.of_scan_eq rfl rfl rfl fun _ => hst
  | drop b hst hcur hb hne =>
    obtain ⟨hcur0, -⟩ := hinv.scanStart hst
    rw [hcur0] at hb
    exact h.of_scan_eq (streamScan_of_ne hb hne) rfl rfl hrun
  | fail p hst hcur hp hv hb =>
    have hwin : s.buf.take 22 = p.toList := (hinv.buf_take (.inl hst)).trans hp
    exact h.of_scan_eq (streamScan_of_invalid (hinv.buf_head (.inr (.inl hst))) hwin hv) rfl rfl hrun
  | emit p hst hcur hp hi hb =>
    have hwin : s.buf.take 22 = p.toList := (hinv.buf_take (.inr hst)).trans hp
    have hv : validPacket p = true := by simpa [packetOf_eq_some.2 hp] using hinv.emitting hst
    exact h.of_valid (streamScan_of_valid (hinv.buf_head (.inr (.inr hst))) hwin hv) rfl rfl hrun

/-- So do all the micro-steps of a call, which keep the invariants too. -/
theorem of_parseLoop (h : FollowsStream before stream s) (hinv : Invariants s) (n : Nat)
    (hl : parseLoop n s = .next t) : Invariants t ∧ FollowsStream before stream t := by
  induction n generalizing s with
  | zero =>
    cases hl
    exact ⟨hinv, h⟩
  | succ n ih =>
    rw [parseLoop] at hl
    split at hl
    · rename_i hc
      obtain ⟨u, hu⟩ := hinv.microStep_completes
      rw [hu] at hl
      exact ih (h.of_microStep hinv hc hu) (hinv.of_microStep hc hu) hl
    · cases hl
      exact ⟨hinv, h⟩

/-- At the end of the call all of the stream is delivered but its leftover, which is the buffer. -/
theorem at_pause (h : FollowsStream before stream s) (hinv : Invariants s) (hc : s.cont = false) :
    s.sink = before ++ measurementsIn stream ∧ s.emitted = (measurementsIn stream).length ∧
      s.buf = leftover stream := by
  have hscan := hinv.streamScan_of_paused hc (h.paused hc)
  obtain ⟨hdelivered, hcounted, hleft, -⟩ := h
  simp only [measurementsIn, leftover, hscan, List.append_nil] at hdelivered hcounted hleft
  exact ⟨hdelivered, hcounted, hleft⟩

end FollowsStream

theorem returnCount_of_idle {s : State} (h : s.cont = false) : s.returnCount = s.returns (.nat s.emitted) :=
  if_neg (by rw [h]; exact Bool.false_ne_true)

/-- Settles O51: the micro-steps of the call follow the stream that the refill leaves in the buffer, and a paused call
has nothing of it left to deliver. -/
theorem parseFollowsTheStream : Obligations.ParseFollowsTheStream := by
  unfold Obligations.ParseFollowsTheStream
  intro s h hc
  obtain ⟨t, ht, hinv⟩ := h.parse_completes hc
  have hsrc := execParse_src ht
  obtain ⟨hcap, hscript⟩ := exec_cap_script ht
  obtain ⟨-, u, v, (rfl : u = s.callStart), hv, rfl⟩ := execParse_next ht
  have hvc : v.cont = false := parseLoop_cont _ (callMeasure_le_callBound _) hv
  obtain ⟨hvinv, hfol⟩ := (FollowsStream.of_callStart s).of_parseLoop h.callStart _ hv
  obtain ⟨hsink, hcount, hbuf⟩ := hfol.at_pause hvinv hvc
  obtain ⟨hpkt, hcur, hnil, hne⟩ := hvinv.candidate_of_paused hvc (hfol.paused hvc)
  rw [returnCount_of_idle hvc] at ht hinv hsrc hcap hscript
  exact ⟨_, s.src.take (s.cap - s.buf.length), s.src.drop (s.cap - s.buf.length), (List.take_append_drop _ _).symm,
    List.length_take, ht, hsink, hbuf, hsrc, congrArg Ret.nat hcount, hvc, hcap, hscript, hinv, hpkt, hcur, hcount,
    hnil, hne⟩

end Sys2Proof.Machine
end

section
/-! PROOFS. The micro-steps one by one: what each does, and the states in which it is selected (R130 to R139). -/

namespace Sys2Proof.Machine

/-! ## The micro-steps -/

/-- Settles O31: FSM_RESETTING by its definition, and RESETTING selects it. -/
theorem resettingClearsPacketAndCursor : Obligations.ResettingClearsPacketAndCursor := by
  unfold Obligations.ResettingClearsPacketAndCursor
  exact ⟨fun _ => rfl, fun _ hcur hst => microStep_resetting hst hcur⟩

/-- Settles O32: whether the cursor is below the length decides what FSM_START_DROP does. -/
theorem startDropDiscardsOneByte : Obligations.StartDropDiscardsOneByte := by
  unfold Obligations.StartDropDiscardsOneByte
  exact ⟨fun _ h => execFsmStartDrop_of_lt h,
    fun _ h hst hb => (microStep_startDrop hst h hb).trans (execFsmStartDrop_of_lt h).symm,
    fun _ h => execFsmStartDrop_of_le h⟩

/-- Settles O33: both pauses by their definitions, and an exhausted scan selects the one of its state. -/
theorem pausesOnlyClearCont : Obligations.PausesOnlyClearCont := by
  unfold Obligations.PausesOnlyClearCont
  exact ⟨fun _ => ⟨rfl, rfl⟩,
    fun _ h => ⟨fun hst => microStep_startPause hst h, fun hst => microStep_payloadPause hst h⟩⟩

/-- Settles O34: the marker's byte is read, appended, and selects the step. -/
theorem startHitTakesTheMarker : Obligations.StartHitTakesTheMarker := by
  unfold Obligations.StartHitTakesTheMarker
  exact ⟨fun _ h hp => execFsmStartHit_of_lt h hp, fun _ h hst hb => microStep_startHit hst h hb⟩

/-- Settles O35: the byte that fills slot 21 moves the state on, the bytes before it do not. -/
theorem payloadTakeFillsTheNextSlot : Obligations.PayloadTakeFillsTheNextSlot := by
  unfold Obligations.PayloadTakeFillsTheNextSlot
  refine ⟨fun s h hp => ?_, fun s h hp => ?_, fun _ h hst => microStep_payloadTake hst h⟩
  · have hroom : s.pktLen + 1 ≠ 22 := by omega
    rw [exec, execFsmPayloadTake_of_lt h (by omega), if_neg hroom]
  · have hlast : s.pktLen + 1 = 22 := by omega
    rw [exec, execFsmPayloadTake_of_lt h (by omega), if_pos hlast]

/-- In VALIDATING the verdict on the complete candidate selects the step (R82, R192). -/
theorem microStep_of_verdict {s : State} {valid : Bool} (hst : s.st = stValidating) (hcur : s.cur ≤ s.buf.length)
    (hv : (packetOf s.pkt).map validPacket = some valid) :
    microStep s = if valid then execFsmValidatePass s else execFsmValidateFail s := by
  obtain ⟨p, hp, rfl⟩ := Option.map_eq_some_iff.1 hv
  exact microStep_validate hst hcur (packetOf_eq_some.1 hp)

/-- Settles O36: only the head byte is popped, and an invalid candidate selects the step. -/
theorem validateFailPopsOneByte : Obligations.ValidateFailPopsOneByte := by
  unfold Obligations.ValidateFailPopsOneByte
  exact ⟨fun _ h => execFsmValidateFail_of_lt h, fun _ hcur hst hv => microStep_of_verdict hst hcur hv⟩

/-- Settles O37: FSM_VALIDATE_PASS by its definition, and a valid candidate selects it. -/
theorem validatePassOnlyMovesOn : Obligations.ValidatePassOnlyMovesOn := by
  unfold Obligations.ValidatePassOnlyMovesOn
  exact ⟨fun _ => rfl, fun _ hcur hst hv => microStep_of_verdict hst hcur hv⟩

/-- Settles O38: what FSM_EMIT delivers is what DEC_MEASUREMENTS decodes, the measurements of the complete packet. -/
theorem emitDeliversFourMeasurements : Obligations.EmitDeliversFourMeasurements := by
  unfold Obligations.EmitDeliversFourMeasurements
  refine ⟨fun s h hlo hhi hb => ?_, fun _ hcur hst => microStep_emit hst hcur⟩
  obtain ⟨p, hpkt, hidx⟩ := packet_of_pkt_length h
  rw [hidx] at hlo hhi
  have hi : indexOk (packetIndex p) = true := (indexOk_iff_le _).2 ⟨hlo, hhi⟩
  refine ⟨measurementsOf p, measurementsOf_length p, ?_, execFsmEmit_of_valid hpkt hi hb⟩
  rw [exec, execDecMeasurements, State.decMeasurements_of_valid hpkt hi, State.answers_ok]
  rfl

/-! ## A step of a running call -/

/-- The micro-step is the instruction that its selector decodes to (R130). -/
theorem microStep_of_decode {s : State} {sel : BitVec 13} {i : Instr} (hsel : s.selector = .ok sel)
    (hd : decode (.sel13 sel) = .ok i) : microStep s = exec i s := by
  cases hm : decodeSel sel with
  | none => simp [decode, hm] at hd
  | some m =>
    obtain rfl : m.instr = i := by simpa [decode, hm] using hd
    simp only [microStep, hsel, hm, exec_instr]

/-- Settles O8: the step of a running call is its micro-step, with the count handed back if `cont` is then clear; the
step between calls is idle. -/
theorem stepRunsTheSelectedMicroStep : Obligations.StepRunsTheSelectedMicroStep := by
  unfold Obligations.StepRunsTheSelectedMicroStep
  refine ⟨fun s sel i hcap hs hc hsel hd => ?_, fun s hcap hs hc => ?_⟩
  · have hstep : step s = finishMicro (exec i s) := by
      rw [step_of_running hcap hc hs, microStep_of_decode hsel hd]
    refine ⟨fun t ht htc => ?_, fun t ht htc => ?_, fun f hf => ?_⟩
    · rw [hstep, ht, finishMicro, returnCount_of_cont htc]
    · rw [hstep, ht, finishMicro, returnCount_of_idle htc]
      rfl
    · rw [hstep, hf, finishMicro]
  · rw [step_eq, if_neg (Nat.not_lt.2 hcap), hs]
    exact blockTurn_run_of_idle hc

end Sys2Proof.Machine
end

section
/-! PROOFS. PARSE as a loop without a bound (R140), the bound on its micro-steps and its count (R141, R143), and the
empty input (R145). -/

namespace Sys2Proof.Machine

/-! ## The loop without a bound -/

/-- R140: `n` micro-steps from `u`, each taken with `cont` set, end in `v` with `cont` clear. -/
def LoopEnds (n : Nat) (u v : State) : Prop :=
  (∀ m, m < n → ∃ w, microSteps m u = .next w ∧ w.cont = true) ∧ microSteps n u = .next v ∧ v.cont = false

theorem microSteps_succ (n : Nat) {u w : State} (h : microStep u = .next w) :
    microSteps (n + 1) u = microSteps n w := by
  rw [microSteps, h]

/-- More than one micro-step in a row begin with one that answers a next state. -/
theorem microSteps_succ_eq_next {n : Nat} {u v : State} (h : microSteps (n + 1) u = .next v) :
    ∃ w, microStep u = .next w := by
  rw [microSteps] at h
  split at h
  · exact ⟨_, by assumption⟩
  · cases h
  · cases h

namespace LoopEnds

variable {n : Nat} {u v w : State}

theorem zero_iff : LoopEnds 0 u v ↔ u = v ∧ v.cont = false := by
  simp [LoopEnds, microSteps]

/-- The loop takes its first micro-step and goes on from there. -/
theorem succ_iff (hw : microStep u = .next w) : LoopEnds (n + 1) u v ↔ u.cont = true ∧ LoopEnds n w v := by
  constructor
  · rintro ⟨hrun, hend, hv⟩
    obtain ⟨_, hu, hc⟩ := hrun 0 (Nat.succ_pos n)
    cases hu
    rw [microSteps_succ n hw] at hend
    refine ⟨hc, fun m hm => ?_, hend, hv⟩
    rw [← microSteps_succ m hw]
    exact hrun (m + 1) (Nat.succ_lt_succ hm)
  · rintro ⟨hc, hrun, hend, hv⟩
    refine ⟨fun m hm => ?_, (microSteps_succ n hw).trans hend, hv⟩
    cases m with
    | zero => exact ⟨u, rfl, hc⟩
    | succ m =>
      rw [microSteps_succ m hw]
      exact hrun m (Nat.lt_of_succ_lt_succ hm)

/-- The bounded loop, where it ends the call, is the loop without a bound. -/
theorem of_parseLoop (n : Nat) {u v : State} (h : parseLoop n u = .next v) (hv : v.cont = false) :
    ∃ k, k ≤ n ∧ LoopEnds k u v := by
  induction n generalizing u with
  | zero =>
    cases h
    exact ⟨0, Nat.le_refl 0, zero_iff.2 ⟨rfl, hv⟩⟩
  | succ n ih =>
    rw [parseLoop] at h
    split at h
    · rename_i hc
      split at h
      · rename_i w hw
        obtain ⟨k, hk, hend⟩ := ih h
        exact ⟨k + 1, Nat.succ_le_succ hk, (succ_iff hw).2 ⟨hc, hend⟩⟩
      · cases h
      · cases h
    · cases h
      exact ⟨0, Nat.zero_le _, zero_iff.2 ⟨rfl, hv⟩⟩

/-- The loop without a bound, where it ends, is the bounded loop with as many turns as the measure allows: each
micro-step that does not end the call makes the measure smaller (R143 (a)). -/
theorem parseLoop_eq {k : Nat} (h : LoopEnds k u v) (n : Nat) (hn : u.cont = true → u.callMeasure ≤ n) :
    parseLoop n u = .next v := by
  induction k generalizing u n with
  | zero =>
    obtain ⟨rfl, hc⟩ := zero_iff.1 h
    exact parseLoop_of_idle n hc
  | succ k ih =>
    obtain ⟨w, hw⟩ := microSteps_succ_eq_next h.2.1
    obtain ⟨hc, hend⟩ := (succ_iff hw).1 h
    have hpos := callMeasure_pos u
    have hle := hn hc
    obtain ⟨n, rfl⟩ : ∃ n', n = n' + 1 := ⟨n - 1, by omega⟩
    rw [parseLoop, if_pos hc, hw]
    refine ih hend n fun hwc => ?_
    have hlt := callMeasure_lt hw hwc
    omega

end LoopEnds

/-- R140: a PARSE between calls completes exactly where the loop without a bound ends, and hands its count back. -/
theorem execParse_eq_next_iff {s t : State} (hc : s.cont = false) :
    execParse s = .next t ↔ ∃ n v, LoopEnds n s.callStart v ∧ t = v.returns (.nat v.emitted) := by
  rw [execParse_of_idle hc]
  constructor
  · intro h
    obtain ⟨v, hv, rfl⟩ := finishMicro_eq_next h
    have hvc : v.cont = false := parseLoop_cont _ (callMeasure_le_callBound _) hv
    obtain ⟨n, -, hend⟩ := LoopEnds.of_parseLoop _ hv hvc
    exact ⟨n, v, hend, returnCount_of_idle hvc⟩
  · rintro ⟨n, v, hend, rfl⟩
    rw [hend.parseLoop_eq _ fun _ => callMeasure_le_callBound _, finishMicro, returnCount_of_idle hend.2.2]

/-- BUF_REFILL always completes (R106). -/
theorem execBufRefill_eq (s : State) :
    execBufRefill s = .next { s with buf := s.buf ++ s.src.take (s.cap - s.buf.length)
                                     src := s.src.drop (s.cap - s.buf.length)
                                     ret := .none } := by
  rw [execBufRefill, State.refill_eq, Res.answer_ok, State.returns]

/-- Settles O49: the bound of the atomic call is never what ends it. -/
theorem parseIsRefillThenMicroSteps : Obligations.ParseIsRefillThenMicroSteps := by
  unfold Obligations.ParseIsRefillThenMicroSteps
  refine ⟨decode_encode .parse, fun s hc => ?_, fun s t hc => ⟨_, s.callStart, execBufRefill_eq s, rfl, ?_⟩⟩
  · rw [exec, execParse, if_pos hc]
  · rw [exec, execParse_eq_next_iff hc]
    simp only [LoopEnds, and_assoc]
    rfl

/-! ## The count -/

/-- What a call has delivered after `before`, and that each four measurements have cost 22 of its `bytes`. -/
structure CountsDeliveries (before : List Meas) (bytes : Nat) (s : State) : Prop where
  delivered : ∃ ms, s.sink = before ++ ms ∧ s.emitted = ms.length ∧ ms.length % 4 = 0
  paid : 22 * s.emitted + 4 * s.buf.length ≤ 4 * bytes

namespace CountsDeliveries

variable {before : List Meas} {bytes : Nat} {s t : State}

/-- A call that has counted nothing yet. -/
theorem of_zero (h : s.emitted = 0) : CountsDeliveries s.sink s.buf.length s where
  delivered := ⟨[], by simp [h]⟩
  paid := by omega

/-- Every micro-step counts what it delivers: FSM_EMIT its four measurements, for 22 bytes, the others none. -/
theorem of_microStep (h : CountsDeliveries before bytes s) (hm : microStep s = .next t) :
    CountsDeliveries before bytes t := by
  obtain ⟨⟨ms, hsink, hcount, hmod⟩, hpaid⟩ := h
  cases microStep_next hm with
  | resetting | pause | hit | take | pass => exact ⟨⟨ms, hsink, hcount, hmod⟩, hpaid⟩
  | drop | fail =>
    refine ⟨⟨ms, hsink, hcount, hmod⟩, ?_⟩
    simp only [List.length_drop]
    omega
  | emit p hst hcur hp hi hb =>
    refine ⟨⟨ms ++ measurementsOf p, ?_, ?_, ?_⟩, ?_⟩
    · rw [hsink, List.append_assoc]
    · rw [List.length_append, measurementsOf_length, hcount]
    · rw [List.length_append, measurementsOf_length, Nat.add_mod_right, hmod]
    · simp only [List.length_drop]
      omega

theorem of_parseLoop (h : CountsDeliveries before bytes s) (n : Nat) (hl : parseLoop n s = .next t) :
    CountsDeliveries before bytes t :=
  parseLoop_keeps (fun _ _ hu hm => hu.of_microStep hm) n h hl

/-- R143 (b): what is counted is at most four for each 22 bytes. -/
theorem emitted_le (h : CountsDeliveries before bytes s) : s.emitted ≤ 4 * (bytes / 22) := by
  obtain ⟨⟨ms, -, hcount, hmod⟩, hpaid⟩ := h
  omega

end CountsDeliveries

/-- Settles O50: the loop counts what it delivers, and the count at its end is handed back. -/
theorem countIsWhatWasDelivered : Obligations.CountIsWhatWasDelivered := by
  unfold Obligations.CountIsWhatWasDelivered
  intro s t h
  obtain ⟨-, u, v, (rfl : u = s.callStart), hv, rfl⟩ := execParse_next h
  have hvc : v.cont = false := parseLoop_cont _ (callMeasure_le_callBound _) hv
  obtain ⟨⟨ms, hsink, hcount, hmod⟩, -⟩ := (CountsDeliveries.of_zero (s := s.callStart) rfl).of_parseLoop _ hv
  rw [returnCount_of_idle hvc]
  exact ⟨ms, hsink, congrArg Ret.nat hcount, hmod⟩

/-- A call that has counted nothing yet is to deliver what the stream function makes of its buffer. -/
theorem FollowsStream.of_running {s : State} (hc : s.cont = true) (h : s.emitted = 0) :
    FollowsStream s.sink s.buf s where
  delivered := rfl
  counted := by rw [h, Nat.zero_add]
  left := rfl
  paused hc' := absurd (hc'.symm.trans hc) Bool.false_ne_true

/-- Settles O48: the measure bounds the micro-steps, the paid bytes bound the count, and the call ends in a pause. -/
theorem callIsBounded : Obligations.CallIsBounded := by
  unfold Obligations.CallIsBounded
  intro s hinv hc hemitted
  obtain ⟨t, ht, htinv⟩ := hinv.parseLoop_completes (callBound s)
  have htc : t.cont = false := parseLoop_cont _ (callMeasure_le_callBound s) ht
  obtain ⟨n, hn, -, hend, -⟩ := LoopEnds.of_parseLoop _ ht htc
  have hcount := ((CountsDeliveries.of_zero hemitted).of_parseLoop _ ht).emitted_le
  have hpaused := (FollowsStream.of_running hc hemitted).of_parseLoop hinv _ ht |>.2.paused htc
  exact ⟨n, t, hn, hend, htc, htinv, hpaused, (htinv.candidate_of_paused htc hpaused).2.1, hcount⟩

/-! ## The empty input -/

/-- With an empty source the refill moves nothing (R106), and a call is its micro-steps from the state as it is. -/
theorem execParse_of_empty_source {s v : State} {n : Nat} (hc : s.cont = false) (hsrc : s.src = [])
    (h : LoopEnds n { s with emitted := 0, cont := true } v) :
    execParse s = .next (v.returns (.nat v.emitted)) := by
  have hstart : s.callStart = { s with emitted := 0, cont := true } := by simp [State.callStart, hsrc]
  exact (execParse_eq_next_iff hc).2 ⟨n, v, hstart ▸ h, rfl⟩

/-- In SCAN_START on an exhausted scan the loop ends after the pause (R133). -/
theorem LoopEnds.of_startPause {u : State} (hst : u.st = stScanStart) (hcur : u.cur = u.buf.length)
    (hc : u.cont = true) : LoopEnds 1 u { u with cont := false } :=
  (succ_iff (microStep_startPause hst hcur)).2 ⟨hc, zero_iff.2 ⟨rfl, rfl⟩⟩

/-- Settles O54: the loop ends after the pause, which from RESETTING is the second micro-step. -/
theorem emptyInputReturnsZero : Obligations.EmptyInputReturnsZero := by
  unfold Obligations.EmptyInputReturnsZero
  intro s hc hsrc hbuf hcur
  have hexh : s.cur = s.buf.length := by rw [hcur, hbuf, List.length_nil]
  refine ⟨fun hst => ?_, fun hst => ?_⟩
  · have hexh0 : 0 = s.buf.length := hcur.symm.trans hexh
    have hreset : microStep { s with emitted := 0, cont := true } =
        .next { s with emitted := 0, cont := true, pkt := [], cur := 0, st := 1#3 } :=
      microStep_resetting hst hexh.le
    have hparse := execParse_of_empty_source hc hsrc
      ((LoopEnds.succ_iff hreset).2 ⟨rfl, .of_startPause rfl hexh0 rfl⟩)
    refine ⟨?_, _, _, hreset, rfl, rfl, microStep_startPause rfl hexh0, rfl, rfl⟩
    rw [hcur]
    exact hparse
  · exact ⟨execParse_of_empty_source hc hsrc (.of_startPause hst hexh rfl), _, microStep_startPause hst hexh, rfl,
      rfl⟩

end Sys2Proof.Machine
end

section
/-! PROOFS. The stream function on its own (R144, R147 to R149): run in pieces, on packets back to back, behind garbage;
and one PARSE on one packet (R146). -/

namespace Sys2Proof.Machine

/-! ## The stream function on a packet -/

/-- A packet that begins with the marker is the window at the head of any stream that it begins (R70). -/
theorem streamScan_packet {p : Packet} (hm : p[0] = startMarker) (hv : validPacket p = true) (rest : List Byte) :
    streamScan 0 (p.toList ++ rest) = (measurementsOf p ++ measurementsIn rest, leftover rest) := by
  have hlen : p.toList.length = 22 := p.length_toList
  have hhead : (p.toList ++ rest)[0]? = some startMarker := by
    rw [List.getElem?_append_left (by omega), ← hm]
    simp
  rw [streamScan_of_valid hhead (List.take_left' hlen) hv, List.drop_left' hlen]

theorem measurementsIn_packet {p : Packet} (hm : p[0] = startMarker) (hv : validPacket p = true)
    (rest : List Byte) : measurementsIn (p.toList ++ rest) = measurementsOf p ++ measurementsIn rest :=
  congrArg Prod.fst (streamScan_packet hm hv rest)

theorem leftover_packet {p : Packet} (hm : p[0] = startMarker) (hv : validPacket p = true) (rest : List Byte) :
    leftover (p.toList ++ rest) = leftover rest := by
  rw [leftover, streamScan_packet hm hv]

/-- Settles O56: packet by packet. -/
theorem concatenatedPacketsAllDelivered : Obligations.ConcatenatedPacketsAllDelivered := by
  unfold Obligations.ConcatenatedPacketsAllDelivered
  intro ps hps
  have hall : measurementsIn (ps.flatMap fun p => p.toList) = ps.flatMap measurementsOf := by
    induction ps with
    | nil => rfl
    | cons p ps ih =>
      obtain ⟨⟨hm, hv⟩, hrest⟩ := List.forall_mem_cons.1 hps
      rw [List.flatMap_cons, List.flatMap_cons, measurementsIn_packet hm hv, ih hrest]
  refine ⟨hall, ?_⟩
  rw [hall]
  simp [List.length_flatMap, measurementsOf_length, Nat.mul_comm]

/-! ## The cases of the stream function -/

/-- The streams, by what the stream function does at their head. -/
inductive StreamCases : List Byte → Prop where
  | nil : StreamCases []
  /-- a byte that is passed over, whatever bytes come after the stream: no marker, or the marker of a window that is
  not valid -/
  | passed (b : Byte) (rest : List Byte)
    (hscan : ∀ more, streamScan 0 (b :: rest ++ more) = streamScan 0 (rest ++ more))
    (hrest : StreamCases rest) : StreamCases (b :: rest)
  /-- a partial candidate -/
  | partialCandidate (l : List Byte) (hm : l[0]? = some startMarker) (hl : l.length < 22) : StreamCases l
  | packet (p : Packet) (rest : List Byte) (hm : p[0] = startMarker) (hv : validPacket p = true)
    (hrest : StreamCases rest) : StreamCases (p.toList ++ rest)

/-- Every stream is one of these, down to its end. -/
theorem streamCases (l : List Byte) : StreamCases l := by
  induction hn : l.length using Nat.strong_induction_on generalizing l with
  | _ n ih =>
    cases l with
    | nil => exact .nil
    | cons b rest =>
      have hrest : StreamCases rest := ih rest.length (by rw [← hn]; exact Nat.lt_succ_self _) rest rfl
      by_cases hb : b = startMarker
      · by_cases hl : (b :: rest).length < 22
        · exact .partialCandidate _ (congrArg some hb) hl
        · obtain ⟨p, hp⟩ := packetOf_of_length (l := (b :: rest).take 22) (by rw [List.length_take]; omega)
          have hwin : (b :: rest).take 22 = p.toList := packetOf_eq_some.1 hp
          cases hv : validPacket p with
          | true =>
            have hm : p[0] = startMarker := by
              have hhead : p.toList[0]? = some b := by rw [← hwin]; rfl
              simpa [hb] using hhead
            have hsplit : p.toList ++ (b :: rest).drop 22 = b :: rest := hwin ▸ List.take_append_drop 22 _
            rw [← hsplit]
            exact .packet p _ hm hv (ih _ (by rw [← hn, List.length_drop]; omega) _ rfl)
          | false =>
            refine .passed b rest (fun more => streamScan_of_invalid (congrArg some hb) ?_ hv) hrest
            rw [List.take_append_of_le_length (Nat.not_lt.1 hl), hwin]
      · exact .passed b rest (fun more => streamScan_of_ne rfl hb) hrest

/-- What is scanned alike whatever comes after it is so at the end of the stream. -/
theorem streamScan_alone {b : Byte} {rest : List Byte}
    (h : ∀ more, streamScan 0 (b :: rest ++ more) = streamScan 0 (rest ++ more)) :
    streamScan 0 (b :: rest) = streamScan 0 rest := by
  simpa using h []

/-- Settles O53: piece by piece of the first stream, each of which is scanned alike whatever comes after it. -/
theorem streamMayBeSplit : Obligations.StreamMayBeSplit := by
  unfold Obligations.StreamMayBeSplit
  intro xs ys
  induction streamCases xs with
  | nil => exact ⟨rfl, rfl⟩
  | passed b rest hscan _ ih =>
    simp only [measurementsIn, leftover, hscan, streamScan_alone hscan]
    exact ih
  | partialCandidate l hm hl =>
    simp only [measurementsIn, leftover, streamScan_of_short hm hl, List.nil_append, and_self]
  | packet p rest hm hv _ ih =>
    obtain ⟨ihm, ihl⟩ := ih
    simp only [List.append_assoc, measurementsIn_packet hm hv, leftover_packet hm hv, ihm, ihl, and_self]

/-! ## Garbage before a packet -/

/-- What is left over is the end of the stream, too short for a window (R142). -/
theorem leftover_suffix (l : List Byte) : leftover l <:+ l ∧ (leftover l).length < 22 := by
  induction streamCases l with
  | nil => exact ⟨List.suffix_rfl, by decide⟩
  | passed b rest hscan _ ih =>
    rw [leftover, streamScan_alone hscan]
    exact ⟨ih.1.trans (List.suffix_cons b rest), ih.2⟩
  | partialCandidate l hm hl =>
    rw [leftover, streamScan_of_short hm hl]
    exact ⟨List.suffix_rfl, hl⟩
  | packet p rest hm hv _ ih =>
    rw [leftover_packet hm hv]
    exact ⟨ih.1.trans (List.suffix_append _ _), ih.2⟩

theorem windowValid_eq {stream : List Byte} {i : Nat} {p : Packet} (h : (stream.drop i).take 22 = p.toList) :
    windowValid stream i = validPacket p := by
  rw [windowValid, packetOf_eq_some.2 h]

/-- R148's precondition: no window that starts at a marker before the packet and overlaps the packet is valid. -/
def NoValidOverlap (before : List Byte) (p : Packet) : Prop :=
  ∀ i, i < before.length → before.length < i + 22 → before[i]? = some 0xFA#8 →
    windowValid (before ++ p.toList) i = false

/-- The precondition speaks of the end of the garbage too. -/
theorem NoValidOverlap.of_suffix {before l : List Byte} {p : Packet} (h : NoValidOverlap before p)
    (hl : l <:+ before) : NoValidOverlap l p := by
  obtain ⟨pre, rfl⟩ := hl
  intro i hi hover hm
  have hwin : windowValid (l ++ p.toList) i = windowValid (pre ++ l ++ p.toList) (pre.length + i) := by
    rw [windowValid, windowValid, List.append_assoc, ← List.drop_drop, List.drop_left]
  rw [hwin]
  apply h
  · rw [List.length_append]; omega
  · rw [List.length_append]; omega
  · rw [List.getElem?_append_right (Nat.le_add_right _ _), Nat.add_sub_cancel_left, hm]

/-- Garbage too short for a window of its own is passed over, every window that starts in it overlapping the packet. -/
theorem measurementsIn_short_garbage {l after : List Byte} {p : Packet} (hm : p[0] = startMarker)
    (hv : validPacket p = true) (hl : l.length < 22) (h : NoValidOverlap l p) :
    measurementsIn (l ++ (p.toList ++ after)) = measurementsOf p ++ measurementsIn after := by
  induction l with
  | nil => exact measurementsIn_packet hm hv after
  | cons b rest ih =>
    rw [List.length_cons] at hl
    rw [← ih (by omega) (h.of_suffix (List.suffix_cons b rest))]
    by_cases hb : b = startMarker
    · have hlen : 22 ≤ (b :: rest ++ p.toList).length := by simp
      have hwin : windowValid (b :: rest ++ p.toList) 0 = false :=
        h 0 (Nat.succ_pos _) (by rw [List.length_cons]; omega) (congrArg some hb)
      obtain ⟨q, hq⟩ := packetOf_of_length (l := (b :: rest ++ p.toList).take 22) (by rw [List.length_take]; omega)
      have hq : (b :: rest ++ p.toList).take 22 = q.toList := packetOf_eq_some.1 hq
      have hqv : validPacket q = false := (windowValid_eq (i := 0) hq).symm.trans hwin
      refine congrArg Prod.fst (streamScan_of_invalid (congrArg some hb) ?_ hqv)
      rw [← List.append_assoc, List.take_append_of_le_length hlen, hq]
    · exact congrArg Prod.fst (streamScan_of_ne rfl hb)

/-- Settles O57: of the bytes before the packet only their leftover is scanned together with it. -/
theorem resyncUnderThePrecondition : Obligations.ResyncUnderThePrecondition := by
  unfold Obligations.ResyncUnderThePrecondition
  intro before after p hm hv (hno : NoValidOverlap before p)
  obtain ⟨hsuffix, hlen⟩ := leftover_suffix before
  rw [List.append_assoc, (streamMayBeSplit before (p.toList ++ after)).1,
    measurementsIn_short_garbage hm hv hlen (hno.of_suffix hsuffix), List.append_assoc]

/-! ## Without the precondition -/

/-- Settles O58: V-CONF-C4. The window at the garbage's marker is valid and takes the front of the packet, so the four
measurements delivered are the window's. -/
theorem resyncFailsWithoutThePrecondition : Obligations.ResyncFailsWithoutThePrecondition := by
  unfold Obligations.ResyncFailsWithoutThePrecondition
  refine ⟨[0xFA#8, 0xA0#8, 0xA0#8, 0xD6#8, 0x00#8, 0x00#8, 0x00#8, 0x00#8], ⟨sampleValid.toArray, rfl⟩, by decide,
    by decide, ?_⟩
  rintro ⟨ms, ms', h⟩
  have hall : measurementsIn ([0xFA#8, 0xA0#8, 0xA0#8, 0xD6#8, 0x00#8, 0x00#8, 0x00#8, 0x00#8] ++ sampleValid) =
      [(0#16, 0#16), (1#16, 8442#16), (2#16, 407#16), (3#16, 407#16)] := by decide
  replace h := hall.symm.trans h
  have hlen := congrArg List.length h
  simp only [List.length_append, measurementsOf_length, List.length_cons, List.length_nil] at hlen
  obtain rfl : ms = [] := List.length_eq_zero_iff.1 (by omega)
  obtain rfl : ms' = [] := List.length_eq_zero_iff.1 (by omega)
  exact absurd h (by decide)

/-! ## One packet -/

theorem measurementsOf_slot (p : Packet) (k : Fin 4) : (measurementsOf p)[k.val]? = some (measurementOf p k) := by
  fin_cases k <;> rfl

/-- FSM_RESETTING clears the packet register, so that a call from RESETTING does not see what was in it (R131). -/
theorem execParse_of_resetting {s : State} (hst : s.st = stResetting) (hcur : s.cur = 0) :
    execParse { s with pkt := [] } = execParse s := by
  have hle : s.cur ≤ s.callStart.buf.length := hcur ▸ Nat.zero_le _
  have hstep : microStep (State.callStart { s with pkt := [] }) = microStep s.callStart :=
    (microStep_resetting (s := State.callStart { s with pkt := [] }) hst hle).trans
      (microStep_resetting (s := s.callStart) hst hle).symm
  have hloop (n : Nat) : parseLoop (n + 1) (State.callStart { s with pkt := [] }) = parseLoop (n + 1) s.callStart := by
    rw [parseLoop, parseLoop, hstep]
    rfl
  by_cases hc : s.cont = true
  · rw [execParse, execParse, if_pos hc, if_pos hc]
  · have hc : s.cont = false := Bool.eq_false_iff.2 hc
    rw [execParse_of_idle hc, execParse_of_idle (s := { s with pkt := [] }) hc]
    exact congrArg finishMicro (hloop _)

/-- One packet in the source of a state with an empty buffer: the refill takes it whole, and the stream is the
packet. -/
theorem parse_one_packet {s : State} {p : Packet} (hinv : Invariants s) (hc : s.cont = false) (hbuf : s.buf = [])
    (hsrc : s.src = p.toList) (hm : p[0] = startMarker) (hv : validPacket p = true) :
    ∃ t, exec .parse s = .next t ∧ t.ret = .nat 4 ∧ t.sink = s.sink ++ measurementsOf p := by
  obtain ⟨t, moved, left, hsplit, hmoved, ht, hsink, -, -, hret, -⟩ := parseFollowsTheStream s hinv hc
  have hlen : s.src.length = 22 := by rw [hsrc, Vector.length_toList]
  have hall : moved = s.src := by
    have hcap := hinv.cap_ok
    have hleft : left.length = 0 := by
      have := congrArg List.length hsplit
      rw [List.length_append, hmoved, hbuf, List.length_nil] at this
      omega
    rw [hsplit, List.length_eq_zero_iff.1 hleft, List.append_nil]
  have hmeas : measurementsIn (s.buf ++ moved) = measurementsOf p := by
    rw [hbuf, hall, hsrc, List.nil_append, ← List.append_nil p.toList, measurementsIn_packet hm hv]
    rfl
  rw [hmeas] at hsink hret
  exact ⟨t, ht, hret, hsink⟩

/-- Settles O55: from either state the call is that of a state with an empty packet register, which meets the
invariants; the values are those of the packet's bytes (R76, R77). -/
theorem onePacketDeliversFour : Obligations.OnePacketDeliversFour := by
  unfold Obligations.OnePacketDeliversFour
  intro s p hcap hc hbuf hcur hst hsrc hm hv
  have hparse : ∃ t, exec .parse s = .next t ∧ t.ret = .nat 4 ∧ t.sink = s.sink ++ measurementsOf p := by
    rcases hst with hst | ⟨hst, hpkt⟩
    · have hinv : Invariants { s with pkt := [] } := .of_fresh hcap hst hbuf hcur rfl
      rw [exec, ← execParse_of_resetting hst hcur]
      exact parse_one_packet hinv hc hbuf hsrc hm hv
    · have hlen : s.pktLen = 0 := by rw [State.pktLen, hpkt, List.length_nil]
      have hwf : Memory.wf s = true := Memory.wf_iff.2 (by simp [hbuf, hcur, hlen])
      exact parse_one_packet (.of_scanStart hcap hwf hst hcur hlen fun _ => by rw [hcur, hbuf, List.length_nil]) hc
        hbuf hsrc hm hv
  obtain ⟨t, ht, hret, hsink⟩ := hparse
  obtain ⟨-, hidx⟩ := (indexOk_iff _).1 (validPacket_indexOk hv)
  exact ⟨t, measurementsOf p, ht, hret, hsink, measurementsOf_length p, fun k =>
    ⟨_, _, measurementsOf_slot p k, angleOf_toNat k hidx, distanceOf_toNat p k⟩⟩

end Sys2Proof.Machine
end

section
/-! PROOFS. What the sink receives depends on the bytes fed only (R144): whatever the host does but RESET, what is
delivered and what is still to deliver of the bytes on the way stay together the measurements of all bytes fed. -/

namespace Sys2Proof.Machine

/-! ## Delivered and still to deliver -/

/-- The measurements delivered, then those that the bytes in the buffer and in the source, followed by `more`, are still
to give. -/
def State.due (s : State) (more : List Byte) : List Meas := s.sink ++ measurementsIn (s.buf ++ (s.src ++ more))

theorem due_returnCount (s : State) (more : List Byte) : s.returnCount.due more = s.due more := by
  unfold State.returnCount
  split <;> rfl

/-- The refill moves bytes from the source to the buffer in their order (R106). -/
theorem due_callStart (s : State) (more : List Byte) : s.callStart.due more = s.due more := by
  rw [State.due, State.callStart, List.append_assoc, ← List.append_assoc (s.src.take _), List.take_append_drop]
  rfl

/-- A step that takes a byte off the buffer that the stream function passes over. -/
theorem due_of_passed {s t : State} (hbuf : 0 < s.buf.length) (ht : t.buf = s.buf.drop 1) (hsrc : t.src = s.src)
    (hsink : t.sink = s.sink) (hscan : ∀ rest, streamScan 0 (s.buf ++ rest) = streamScan 0 ((s.buf ++ rest).drop 1))
    (more : List Byte) : t.due more = s.due more := by
  rw [State.due, State.due, hsink, hsrc, ht, ← List.drop_append_of_le_length hbuf, measurementsIn, ← hscan,
    measurementsIn]

/-- Every micro-step of a state that meets the invariants takes off the buffer what the stream function passes over,
or delivers what it delivers (R132, R137, R139). -/
theorem due_microStep {s t : State} (hinv : Invariants s) (hm : microStep s = .next t) (more : List Byte) :
    t.due more = s.due more := by
  cases microStep_next hm with
  | resetting | pause | hit | take | pass => rfl
  | drop b hst hcur hb hne =>
    obtain ⟨hcur0, -⟩ := hinv.scanStart hst
    rw [hcur0] at hb hcur
    exact due_of_passed (t := { s with buf := s.buf.drop 1 }) hcur rfl rfl rfl
      (fun rest => streamScan_of_ne ((List.getElem?_append_left hcur).trans hb) hne) more
  | fail p hst hcur hp hv hb =>
    have hlen := (hinv.complete (.inl hst)).2.2
    exact due_of_passed (t := { s with buf := s.buf.drop 1, cur := s.cur - 1, st := stResetting }) hb rfl rfl rfl
      (fun rest => streamScan_of_invalid ((List.getElem?_append_left hb).trans (hinv.buf_head (.inr (.inl hst))))
        ((List.take_append_of_le_length hlen).trans ((hinv.buf_take (.inl hst)).trans hp)) hv) more
  | emit p hst hcur hp hi hb =>
    have hv : validPacket p = true := by simpa [packetOf_eq_some.2 hp] using hinv.emitting hst
    have hmeas : measurementsIn (s.buf ++ (s.src ++ more)) =
        measurementsOf p ++ measurementsIn ((s.buf ++ (s.src ++ more)).drop 22) :=
      congrArg Prod.fst (streamScan_of_valid
        ((List.getElem?_append_left (by omega)).trans (hinv.buf_head (.inr (.inr hst))))
        ((List.take_append_of_le_length hb).trans ((hinv.buf_take (.inr hst)).trans hp)) hv)
    rw [State.due, State.due, hmeas, List.drop_append_of_le_length hb, List.append_assoc]

/-- A PARSE delivers what its stream gives and keeps the leftover, which with the bytes still to come gives the rest
(R142). -/
theorem due_parse {s t : State} (hinv : Invariants s) (h : exec .parse s = .next t) (more : List Byte) :
    t.due more = s.due more := by
  obtain ⟨hc, -⟩ := execParse_cont h
  obtain ⟨t', moved, left, hsrc, -, ht', hsink, hbuf, hleft, -⟩ := parseFollowsTheStream s hinv hc
  obtain rfl : t' = t := by simpa [ht'] using h
  rw [State.due, State.due, hsink, hbuf, hleft, hsrc, List.append_assoc moved, ← List.append_assoc s.buf,
    (streamMayBeSplit (s.buf ++ moved) (left ++ more)).1, List.append_assoc]

/-- The bytes that an instruction gives to the source: HOST_FEED's (R214). -/
def Instr.fed : Instr → List Byte
  | .hostFeed bytes => bytes
  | _ => []

/-- What the host may issue at any time counts its bytes among those to come. -/
theorem due_hostAnytime {i : Instr} {s t : State} (hi : Instr.hostAnytime i = true) (h : exec i s = .next t)
    (more : List Byte) : t.due more = s.due (Instr.fed i ++ more) := by
  cases i with
  | sinkSize =>
    cases h
    rfl
  | hostFeed bytes =>
    cases h
    exact congrArg (fun l => s.sink ++ measurementsIn (s.buf ++ l)) (List.append_assoc s.src bytes more)
  | _ => cases hi

/-- So does what the host may issue between calls, but for RESET, which discards bytes (R260). -/
theorem due_hostPort {i : Instr} {s t : State} (hinv : Invariants s) (hi : Instr.hostPort i = true)
    (hreset : i ≠ .reset) (h : exec i s = .next t) (more : List Byte) :
    t.due more = s.due (Instr.fed i ++ more) := by
  cases i with
  | reset => exact absurd rfl hreset
  | parse => exact due_parse hinv h more
  | sinkSize => exact due_hostAnytime rfl h more
  | hostFeed bytes => exact due_hostAnytime rfl h more
  | _ => cases hi

/-- Between calls with an empty source nothing is still to deliver: the buffer is a partial candidate at most. -/
theorem due_of_drained {s : State} (hinv : Invariants s) (hc : s.cont = false) (hsrc : s.src = []) :
    s.due [] = s.sink := by
  have hrest : measurementsIn s.buf = [] := by
    rcases hinv.idle hc with ⟨-, hbuf, -⟩ | ⟨hst, -⟩
    · rw [hbuf]
      rfl
    · rw [measurementsIn, hinv.streamScan_of_paused hc hst]
  rw [State.due, hsrc, List.append_nil, List.append_nil, hrest, List.append_nil]

/-- A freshly built block owes the measurements of all that it will be fed. -/
theorem due_built (cap : Nat) (more : List Byte) : (State.built cap).due more = measurementsIn more := rfl

/-! ## Host programs -/

/-- A state between calls that meets the invariants, in which what is due of `more` bytes is the measurements of the
bytes `fed` so far and `more`. -/
structure OwesStream (fed : List Byte) (s : State) : Prop where
  inv : Invariants s
  idle : s.cont = false
  due : ∀ more, s.due more = measurementsIn (fed ++ more)

namespace OwesStream

variable {fed : List Byte} {s t : State}

theorem built {cap : Nat} (hcap : 22 ≤ cap) : OwesStream [] (State.built cap) where
  inv := invariantsHoldAtReset.1 cap hcap
  idle := rfl
  due := due_built cap

/-- An operation that the host may issue between calls, but for RESET. -/
theorem of_hostPort (h : OwesStream fed s) {i : Instr} (hi : Instr.hostPort i = true) (hreset : i ≠ .reset)
    (ht : exec i s = .next t) : OwesStream (fed ++ Instr.fed i) t := by
  obtain ⟨u, hu, hinv⟩ := h.inv.hostPort_completes hi h.idle
  obtain rfl : u = t := by simpa [hu] using ht
  refine ⟨hinv, ?_, fun more => ?_⟩
  · rcases execNext_cont (exec_next ht) with hc | rfl | rfl | rfl | rfl
    · exact hc.trans h.idle
    · exact (execParse_cont ht).2
    · exact absurd rfl hreset
    · cases hi
    · cases hi
  · rw [due_hostPort h.inv hi hreset ht, h.due, List.append_assoc]

/-- The sink holds the first of the stream's measurements, and all of them once the source is empty. -/
theorem delivered (h : OwesStream fed s) :
    (∃ rest, measurementsIn fed = s.sink ++ rest) ∧ (s.src = [] → s.sink = measurementsIn fed) := by
  have hdue := h.due []
  rw [List.append_nil] at hdue
  exact ⟨⟨_, hdue.symm⟩, fun hsrc => (due_of_drained h.inv h.idle hsrc).symm.trans hdue⟩

end OwesStream

theorem HostRun.issue_eq_some {r : HostRun} {i : Instr} {t : State} (h : r.issue i = some t) :
    exec i r.state = .next t := by
  unfold HostRun.issue at h
  split at h
  · rename_i u hu
    cases h
    exact hu
  · cases h
  · cases h

/-- What a statement that runs does to the state: its operation, or nothing (R91). -/
theorem HostRun.stmt_state {r r' : HostRun} {st : Stmt} (h : r.stmt st = some r') :
    (∃ i, st.instr = some i ∧ exec i r.state = .next r'.state) ∨ (st.instr = none ∧ r'.state = r.state) := by
  cases st with
  | reset =>
    rw [HostRun.stmt, Option.map_eq_some_iff] at h
    obtain ⟨t, ht, rfl⟩ := h
    exact .inl ⟨_, rfl, issue_eq_some ht⟩
  | feed bytes =>
    rw [HostRun.stmt, Option.map_eq_some_iff] at h
    obtain ⟨t, ht, rfl⟩ := h
    exact .inl ⟨_, rfl, issue_eq_some ht⟩
  | parse n =>
    rw [HostRun.stmt] at h
    split at h
    · rename_i t ht
      split at h
      · cases h
        exact .inl ⟨_, rfl, issue_eq_some ht⟩
      · cases h
    · cases h
  | expectSink ms =>
    rw [HostRun.stmt] at h
    split at h
    · cases h
      exact .inr ⟨rfl, rfl⟩
    · cases h
  | expectState c bufLen cur pktLen srcLen =>
    rw [HostRun.stmt] at h
    split at h
    · cases h
      exact .inr ⟨rfl, rfl⟩
    · cases h

/-- The operations of the statements are the host's, and the bytes that a statement feeds are its operation's. -/
theorem Stmt.instr_spec {st : Stmt} {i : Instr} (h : st.instr = some i) :
    Instr.hostPort i = true ∧ (st ≠ .reset → i ≠ .reset) ∧
      ∀ rest, fedBytes (st :: rest) = Instr.fed i ++ fedBytes rest := by
  cases st with
  | expectSink ms => cases h
  | expectState c bufLen cur pktLen srcLen => cases h
  | reset =>
    cases h
    exact ⟨rfl, fun hne => absurd rfl hne, fun _ => rfl⟩
  | feed bytes =>
    cases h
    exact ⟨rfl, fun _ => nofun, fun _ => rfl⟩
  | parse n =>
    cases h
    exact ⟨rfl, fun _ => nofun, fun _ => rfl⟩

theorem fedBytes_of_expect {st : Stmt} (h : st.instr = none) (rest : List Stmt) :
    fedBytes (st :: rest) = fedBytes rest := by
  cases st with
  | reset | feed | parse => cases h
  | expectSink | expectState => rfl

/-- A program without RESET keeps to the stream. -/
theorem OwesStream.of_program {fed : List Byte} {r r' : HostRun} {p : List Stmt} (h : OwesStream fed r.state)
    (hp : Stmt.reset ∉ p) (hr : r.program p = some r') : OwesStream (fed ++ fedBytes p) r'.state := by
  induction p generalizing r fed with
  | nil =>
    cases hr
    rwa [fedBytes, List.append_nil]
  | cons st rest ih =>
    obtain ⟨hst, hrest⟩ : Stmt.reset ≠ st ∧ Stmt.reset ∉ rest := by simpa using hp
    rw [HostRun.program] at hr
    split at hr
    · rename_i u hu
      rcases HostRun.stmt_state hu with ⟨i, hi, hex⟩ | ⟨hi, hstate⟩
      · obtain ⟨hport, hne, hfed⟩ := Stmt.instr_spec hi
        rw [hfed, ← List.append_assoc]
        exact ih (h.of_hostPort hport (hne hst.symm) hex) hrest hr
      · rw [fedBytes_of_expect hi]
        exact ih (hstate ▸ h) hrest hr
    · cases hr

/-- On a freshly built block a first RESET changes nothing, and the rest of the program keeps to the stream. -/
theorem owesStream_of_start {cap : Nat} {p : List Stmt} {r : HostRun} (hcap : 22 ≤ cap) (hp : Stmt.reset ∉ p.tail)
    (hr : (HostRun.start cap).program p = some r) : OwesStream (fedBytes p) r.state := by
  have hstart : OwesStream [] (HostRun.start cap).state := .built hcap
  by_cases hmem : Stmt.reset ∈ p
  · obtain ⟨rest, rfl⟩ : ∃ rest, p = .reset :: rest := by
      cases p with
      | nil => cases hmem
      | cons st rest =>
        rcases List.mem_cons.1 hmem with rfl | hmem
        · exact ⟨rest, rfl⟩
        · exact absurd hmem hp
    exact hstart.of_program hp hr
  · exact hstart.of_program hmem hr

/-! ## Runs of the machine -/

/-- A state of a run under acts that keep the host's duties and issue no RESET, in which the measurements due of the
bytes still to be fed are `total`. -/
structure RunOwes (total : List Meas) (s : State) : Prop where
  inv : Invariants s
  acts : ∀ e ∈ s.script, e.dutiful = true ∧ e.resets = false
  due : s.due (s.script.flatMap Event.fed) = total

/-- The bytes that an act feeds are its operation's. -/
theorem Event.fed_of_decode {w : OpWord} {i : Instr} (h : decode (.op5 w) = .ok i) :
    (Event.call w).fed = Instr.fed i ∧ (Event.inside w).fed = Instr.fed i := by
  have hfed : (Event.call w).fed = Instr.fed i := by
    rw [Event.fed, h]
    cases i <;> rfl
  exact ⟨hfed, hfed⟩

theorem ne_reset_of_not_resets {w : OpWord} {i : Instr} (h : decode (.op5 w) = .ok i)
    (hr : (Event.call w).resets = false) : i ≠ .reset := by
  rintro rfl
  simp [Event.resets, h] at hr

/-- A turn of the block owes what it owed. -/
theorem due_blockTurn {s t : State} (hinv : Invariants s) (h : s.blockTurn.run exec = .next t) (more : List Byte) :
    t.due more = s.due more := by
  cases hc : s.cont with
  | false =>
    rw [blockTurn_run_of_idle hc] at h
    cases h
    rfl
  | true =>
    rw [blockTurn_run_of_cont hc] at h
    obtain ⟨u, hu, rfl⟩ := finishMicro_eq_next h
    rw [due_returnCount, due_microStep hinv hu]

namespace RunOwes

variable {total : List Meas} {s t : State}

/-- A turn that completes and leaves acts of which the state still owes what it did. -/
theorem of_completes {acts : List Event} {o : Out} (hacts : ∀ e ∈ acts, e.dutiful = true ∧ e.resets = false)
    (hcomp : CompletesWith acts o) (ht : o = .next t) (hdue : t.due (acts.flatMap Event.fed) = total) :
    RunOwes total t := by
  obtain ⟨u, hu, hinv, rfl⟩ := hcomp
  obtain rfl : u = t := by simpa [hu] using ht
  exact ⟨hinv, hacts, hdue⟩

theorem of_blockTurn (h : RunOwes total s) (ht : s.blockTurn.run exec = .next t) : RunOwes total t :=
  .of_completes h.acts h.inv.blockTurn_completes ht ((due_blockTurn h.inv ht _).trans h.due)

/-- Every step of the run keeps what is owed in all: it is a turn of the block, an operation that counts its bytes, or
the start of a call. -/
theorem of_step (h : RunOwes total s) (ht : step s = .next t) : RunOwes total t := by
  have hinv := h.inv
  have hacts := h.acts
  have hdue := h.due
  rw [step_eq, if_neg (Nat.not_lt.2 hinv.cap_ok)] at ht
  cases hs : s.script with
  | nil =>
    rw [hs] at ht
    exact h.of_blockTurn ht
  | cons e rest =>
    rw [hs] at ht hacts hdue
    rw [List.flatMap_cons] at hdue
    obtain ⟨⟨hduty, hreset⟩, hrest⟩ := List.forall_mem_cons.1 hacts
    have hinv' := hinv.withScript rest
    cases e with
    | nested p c => cases hduty
    | pass => exact of_blockTurn ⟨hinv', hrest, hdue⟩ ht
    | inside w =>
      obtain ⟨i, hdec, hi⟩ := Event.dutiful_inside hduty
      refine .of_completes hrest (opTurn_completes hdec (hinv'.hostAnytime_completes hi)) ht ?_
      rw [due_hostAnytime hi ((opTurn_run_of_ok hdec).symm.trans ht), ← (Event.fed_of_decode hdec).2]
      exact hdue
    | call w =>
      obtain ⟨i, hdec, hi⟩ := Event.dutiful_call hduty
      dsimp only at ht
      split at ht
      · exact h.of_blockTurn ht
      · rename_i hc
        have hcomp := hinv'.hostPort_completes hi (Bool.eq_false_iff.2 hc)
        refine .of_completes hrest (opTurn_completes hdec hcomp) ht ?_
        rw [due_hostPort hinv' hi (ne_reset_of_not_resets hdec hreset) ((opTurn_run_of_ok hdec).symm.trans ht),
          ← (Event.fed_of_decode hdec).1]
        exact hdue
    | enter =>
      dsimp only at ht
      split at ht
      · exact h.of_blockTurn ht
      · rw [State.enterCall_eq] at ht
        cases ht
        exact ⟨hinv'.callStart, hrest, (due_callStart _ _).trans hdue⟩

theorem of_run (h : RunOwes total s) (n : Nat) (ht : Sys2Proof.core.run n s = .next t) : RunOwes total t := by
  induction n generalizing s with
  | zero =>
    cases ht
    exact h
  | succ n ih =>
    obtain ⟨u, hu, -⟩ := invariantsAreKept s h.inv (List.all_eq_true.2 fun e he => (h.acts e he).1)
    rw [core_run_next n hu] at ht
    exact ih (h.of_step hu) ht

/-- The sink holds the first of what is owed in all. -/
theorem delivered (h : RunOwes total s) : ∃ rest, total = s.sink ++ rest := ⟨_, h.due.symm⟩

end RunOwes

/-- Settles O52: programs statement by statement, runs of the machine step by step. -/
theorem streamDeterminism : Obligations.StreamDeterminism := by
  unfold Obligations.StreamDeterminism
  refine ⟨fun _ _ _ hcap hp hr => (owesStream_of_start hcap hp hr).delivered, fun cap acts n t hcap hacts hrun => ?_⟩
  have hstart : RunOwes (measurementsIn (acts.flatMap Event.fed)) { State.built cap with script := acts } :=
    ⟨(OwesStream.built hcap).inv.withScript acts, hacts, due_built cap _⟩
  have hend := hstart.of_run n hrun
  refine ⟨hend.delivered, fun hscript hc hsrc => ?_⟩
  rw [← hend.due, hscript]
  exact (due_of_drained hend.inv hc hsrc).symm

end Sys2Proof.Machine
end

section
/-! PROOFS. The packet register (R170, R171) and the fields of a complete packet (R172 to R177): each accessor's answer
on a complete packet and its fault on an incomplete one. -/

namespace Sys2Proof.Machine

/-! ## The packet register -/

theorem State.pktRead_of_lt {s : State} {i : Nat} (op : Site) (h : i < s.pkt.length) :
    s.pktRead op i = .ok s.pkt[i] := by
  rw [State.pktRead, List.getElem?_eq_getElem h]

theorem State.pktRead_of_le {s : State} {i : Nat} (op : Site) (h : s.pktLen ≤ i) :
    s.pktRead op i = .error (.pktUnwritten op i) := by
  rw [State.pktRead, List.getElem?_eq_none h]

/-- Settles O18: whether a slot is free decides what PKT_APPEND does, whether it is written what a read answers. -/
theorem packetFillsInOrder : Obligations.PacketFillsInOrder := by
  unfold Obligations.PacketFillsInOrder
  refine ⟨decode_encode .pktClear, fun s => rfl, fun s b => ⟨decode_encode (.pktAppend b), fun h => ?_, fun h => ?_⟩,
    fun s op i => ⟨State.pktRead_of_lt op, State.pktRead_of_le op⟩⟩
  · rw [exec, execPktAppend, State.pktAppend_of_lt b h]
    rfl
  · rw [exec, execPktAppend, State.pktAppend_of_le b h.ge]
    rfl

/-- A packet register of 22 slots is a packet, slot by slot (R89). -/
theorem packet_slots {s : State} (h : s.pkt.length = 22) :
    ∃ p : Packet, s.pkt = p.toList ∧ ∀ (i : Nat) (hi : i < 22), s.pkt[i] = p[i] := by
  obtain ⟨p, hpkt, -⟩ := packet_of_pkt_length h
  exact ⟨p, hpkt, fun i hi => by simp [hpkt]⟩

/-! ## What each accessor answers -/

/-- PKT_INDEX_BYTE of a complete packet (R172). -/
theorem exec_pktIndexByte_of_toList {s : State} {p : Packet} (h : s.pkt = p.toList) :
    exec .pktIndexByte s = .next { s with ret := .byte (packetIndex p) } := by
  rw [exec, execPktIndexByte, State.field_of_toList _ _ h]
  rfl

/-- PKT_SPEED of a complete packet (R173). -/
theorem exec_pktSpeed_of_toList {s : State} {p : Packet} (h : s.pkt = p.toList) :
    exec .pktSpeed s = .next { s with ret := .u16 (packetSpeed p) } := by
  rw [exec, execPktSpeed, State.field_of_toList _ _ h]
  rfl

/-- DEC_ANGLE of a complete packet with an index byte in range (R174). -/
theorem exec_decAngle_of_valid {s : State} {p : Packet} (k : Fin 4) (h : s.pkt = p.toList)
    (hi : indexOk (packetIndex p) = true) :
    exec (.decAngle k) s = .next { s with ret := .u16 (angleOf (packetIndex p) k) } := by
  simp [exec, execDecAngle, State.decAngle, State.packet_of_toList _ h, hi, State.returns]

/-- DEC_ANGLE of a complete packet with an index byte out of range (R174). -/
theorem exec_decAngle_of_index {s : State} {p : Packet} (k : Fin 4) (h : s.pkt = p.toList)
    (hi : indexOk (packetIndex p) = false) : exec (.decAngle k) s = .fault (.decodeInvalid (packetIndex p)) := by
  simp [exec, execDecAngle, State.decAngle, State.packet_of_toList _ h, hi]

/-- DEC_DIST of a complete packet (R175). -/
theorem exec_decDist_of_toList {s : State} {p : Packet} (k : Fin 4) (h : s.pkt = p.toList) :
    exec (.decDist k) s = .next { s with ret := .u16 (distanceOf p k) } := by
  rw [exec, execDecDist, State.decDist, State.field_of_toList _ _ h]
  rfl

/-- DEC_MEASUREMENTS of a complete packet with an index byte in range (R176). -/
theorem exec_decMeasurements_of_valid {s : State} {p : Packet} (h : s.pkt = p.toList)
    (hi : indexOk (packetIndex p) = true) :
    exec .decMeasurements s = .next { s with ret := .pairs (measurementsOf p) } := by
  rw [exec, execDecMeasurements, State.decMeasurements_of_valid h hi]
  rfl

/-! ## The obligations -/

/-- Settles O19: byte 1, and bytes 3 and 2 as one word, of the packet that the register holds. -/
theorem indexAndSpeedFieldsRead : Obligations.IndexAndSpeedFieldsRead := by
  unfold Obligations.IndexAndSpeedFieldsRead
  refine ⟨decode_encode .pktIndexByte, decode_encode .pktSpeed, fun s hlen => ?_, fun s hlen => ⟨?_, ?_⟩⟩
  · obtain ⟨p, hpkt, hslot⟩ := packet_slots hlen
    rw [hslot 1 (by decide), hslot 2 (by decide), hslot 3 (by decide), ← le16_eq_append]
    exact ⟨exec_pktIndexByte_of_toList hpkt, exec_pktSpeed_of_toList hpkt⟩
  · rw [exec, execPktIndexByte, State.field_of_ne _ _ hlen.ne]
    rfl
  · rw [exec, execPktSpeed, State.field_of_ne _ _ hlen.ne]
    rfl

/-- Settles O20: the index byte decides between answer and fault, and an index of at most 249 gives an angle of at most
359. -/
theorem angleIsNormalised : Obligations.AngleIsNormalised := by
  unfold Obligations.AngleIsNormalised
  refine fun s k => ⟨decode_encode (.decAngle k), fun hlen hlo hhi => ?_, fun hlen hout => ?_, fun hlen => ?_⟩
  · obtain ⟨p, hpkt, hidx⟩ := packet_of_pkt_length hlen
    rw [hidx] at hlo hhi ⊢
    have hok := (indexOk_iff_le _).2 ⟨hlo, hhi⟩
    have hmax : (packetIndex p).toNat ≤ 249 := hhi
    have hval := angleOf_toNat k hmax
    exact ⟨angleOf (packetIndex p) k, hval, by omega, exec_decAngle_of_valid k hpkt hok⟩
  · obtain ⟨p, hpkt, hidx⟩ := packet_of_pkt_length hlen
    rw [hidx] at hout ⊢
    exact exec_decAngle_of_index k hpkt (Bool.eq_false_iff.2 (mt (indexOk_iff_le _).1 hout))
  · rw [exec, execDecAngle, State.decAngle, State.packet_of_ne _ hlen.ne]
    rfl

/-- Settles O21: the mask keeps the 14 low bits of the slot's word. -/
theorem distanceIsMasked : Obligations.DistanceIsMasked := by
  unfold Obligations.DistanceIsMasked
  refine fun s k => ⟨decode_encode (.decDist k), fun hlen => ?_, fun hlen => ?_⟩
  · obtain ⟨p, hpkt, hslot⟩ := packet_slots hlen
    refine ⟨distanceOf p k, ?_, exec_decDist_of_toList k hpkt⟩
    rw [hslot (4 + 4 * k.val) (by omega), hslot (5 + 4 * k.val) (by omega)]
    exact distanceOf_toNat p k
  · rw [exec, execDecDist, State.decDist, State.field_of_ne _ _ hlen.ne]
    rfl

/-- Settles O22: the k-th pair is the angle and the distance of slot k, each what its own accessor answers; a fault is
that of the first slot's DEC_ANGLE. -/
theorem measurementsInSlotOrder : Obligations.MeasurementsInSlotOrder := by
  unfold Obligations.MeasurementsInSlotOrder
  refine ⟨decode_encode .decMeasurements, fun s hlen hlo hhi => ?_, fun s hlen hout => ?_, fun s hlen => ?_⟩
  · obtain ⟨p, hpkt, hidx⟩ := packet_of_pkt_length hlen
    rw [hidx] at hlo hhi
    have hok := (indexOk_iff_le _).2 ⟨hlo, hhi⟩
    exact ⟨measurementsOf p, exec_decMeasurements_of_valid hpkt hok, measurementsOf_length p, fun k =>
      ⟨angleOf (packetIndex p) k, distanceOf p k, measurementsOf_slot p k, exec_decAngle_of_valid k hpkt hok,
        exec_decDist_of_toList k hpkt⟩⟩
  · obtain ⟨p, hpkt, hidx⟩ := packet_of_pkt_length hlen
    rw [hidx] at hout ⊢
    rw [exec, execDecMeasurements,
      State.decMeasurements_of_index hpkt (Bool.eq_false_iff.2 (mt (indexOk_iff_le _).1 hout))]
    rfl
  · rw [exec, execDecMeasurements, State.decMeasurements_of_ne hlen.ne]
    rfl

/-- An instruction that only reads, if it completes, changes the value handed back only (R177, R195). -/
theorem exec_of_readsOnly {i : Instr} {s t : State} (hi : readsOnly i = true) (h : exec i s = .next t) :
    ∃ v, t = { s with ret := v } := by
  cases exec_next h with
  | reads _ v _ => exact ⟨v, rfl⟩
  | fsmPause _ hpause => rcases hpause with rfl | rfl <;> cases hi
  | _ => cases hi

/-- Settles O23: the eight operations only read. -/
theorem accessorsChangeNothing : Obligations.AccessorsChangeNothing := by
  unfold Obligations.AccessorsChangeNothing
  intro i s t hi h
  have hreads : readsOnly i = true := by
    rcases hi with rfl | rfl | ⟨k, rfl⟩ | ⟨k, rfl⟩ | rfl | rfl | rfl | rfl <;> rfl
  obtain ⟨v, rfl⟩ := exec_of_readsOnly hreads h
  rfl

end Sys2Proof.Machine
end

section
/-! PROOFS. The packet validator (R190 to R193): what the three checks answer on a complete packet and their faults on
an incomplete one. The checksum rests on one fact: the loop's accumulator is a weighted sum that never wraps. -/

namespace Sys2Proof.Machine

/-! ## What a field of the packet register answers -/

/-- An operation that hands back a field of a complete packet changes nothing else (R195). -/
theorem State.answers_field_of_toList {α : Type} {s : State} {p : Packet} (op : Site) (f : Packet → α) (g : α → Ret)
    (h : s.pkt = p.toList) : s.answers (s.field op f) g = .next { s with ret := g (f p) } := by
  rw [State.field_of_toList op f h]
  rfl

/-- An operation that hands back a field of the packet faults while a slot is unwritten (R27). -/
theorem State.answers_field_of_ne {α : Type} {s : State} (op : Site) (f : Packet → α) (g : α → Ret)
    (h : s.pktLen ≠ 22) : s.answers (s.field op f) g = .fault (.pktUnwritten op s.pktLen) := by
  rw [State.field_of_ne op f h]
  rfl

/-- VAL_INDEX of a complete packet (R190). -/
theorem exec_valIndex_of_toList {s : State} {p : Packet} (h : s.pkt = p.toList) :
    exec .valIndex s = .next { s with ret := .bool (indexOk (packetIndex p)) } :=
  State.answers_field_of_toList .valIndex _ .bool h

/-- VAL_CHECKSUM of a complete packet (R191). -/
theorem exec_valChecksum_of_toList {s : State} {p : Packet} (h : s.pkt = p.toList) :
    exec .valChecksum s = .next { s with ret := .u16 (checksumOf p) } :=
  State.answers_field_of_toList .valChecksum _ .u16 h

/-! ## The weighted sum of the checksum words -/

/-- The value of the checksum loop on numbers: the last word counts once, each word before it twice as much as the
next (R191). -/
def weightedSum : List U16 → Nat
  | [] => 0
  | w :: ws => w.toNat * 2 ^ ws.length + weightedSum ws

theorem weightedSum_le (ws : List U16) : weightedSum ws + 0xFFFF ≤ 0xFFFF * 2 ^ ws.length := by
  induction ws with
  | nil => exact Nat.le_refl _
  | cons w ws ih =>
    have hw : w.toNat * 2 ^ ws.length ≤ 0xFFFF * 2 ^ ws.length := Nat.mul_le_mul_right _ (Nat.le_of_lt_succ w.isLt)
    rw [weightedSum, List.length_cons, Nat.pow_succ]
    omega

/-- R193: the loop wraps nowhere if the largest words would keep it below `2^26`; a turn at most doubles
`acc + 0xFFFF`. -/
theorem foldl_chkTurn_toNat (ws : List U16) (acc : BitVec 32) (h : (acc.toNat + 0xFFFF) * 2 ^ ws.length < 2 ^ 26) :
    (ws.foldl chkTurn acc).toNat = acc.toNat * 2 ^ ws.length + weightedSum ws := by
  induction ws generalizing acc with
  | nil => simp [weightedSum]
  | cons w ws ih =>
    have hacc : acc.toNat < 2 ^ 26 := by
      have hgrow := Nat.le_mul_of_pos_right (acc.toNat + 0xFFFF) (Nat.two_pow_pos (w :: ws).length)
      omega
    have hturn := chkTurn_toNat acc w hacc
    have hdouble : (chkTurn acc w).toNat + 0xFFFF ≤ (acc.toNat + 0xFFFF) * 2 := by
      have hw := w.isLt
      omega
    have hnext : ((chkTurn acc w).toNat + 0xFFFF) * 2 ^ ws.length < 2 ^ 26 := by
      refine (Nat.mul_le_mul_right _ hdouble).trans_lt ?_
      rwa [Nat.mul_assoc, ← Nat.pow_succ']
    rw [List.foldl_cons, ih _ hnext, hturn, weightedSum, List.length_cons, Nat.pow_succ]
    ring

/-- The ten checksum words of a packet, in order (R78). -/
def chkWords (p : Packet) : List U16 := chkWordNumbers.map (chkWord p)

/-- R191: the accumulator holds the weighted sum, since ten words keep it below `2^26` (R193). -/
theorem chkAcc_toNat (p : Packet) : (chkAcc p).toNat = weightedSum (chkWords p) := by
  have h := foldl_chkTurn_toNat (chkWords p) 0#32 (by decide : (0 + 0xFFFF) * 2 ^ 10 < 2 ^ 26)
  rwa [BitVec.toNat_zero, Nat.zero_mul, Nat.zero_add] at h

/-- R193: the bound is `0xFFFF * (2^10 - 1)`. -/
theorem weightedSum_chkWords_le (p : Packet) : weightedSum (chkWords p) ≤ 0x03FEFC01 := by
  have h := weightedSum_le (chkWords p)
  have hlen : (chkWords p).length = 10 := rfl
  rw [hlen] at h
  omega

/-- R191: the checksum is the weighted sum, folded once and cut to 15 bits. -/
theorem checksumOf_toNat_eq_fold (p : Packet) :
    (checksumOf p).toNat = (weightedSum (chkWords p) % 2 ^ 15 + weightedSum (chkWords p) / 2 ^ 15) % 2 ^ 15 := by
  have hacc : (chkAcc p).toNat < 2 ^ 31 := by
    have hle := weightedSum_chkWords_le p
    rw [chkAcc_toNat]
    omega
  rw [checksumOf_toNat, chkFold_toNat _ hacc, chkAcc_toNat]

/-- The weighted sum of a packet, term by term: word `i` has the weight `2^(9-i)`. -/
theorem weightedSum_chkWords (p : Packet) :
    weightedSum (chkWords p) = ((List.finRange 10).map fun i => (chkWord p i).toNat * 2 ^ (9 - i.val)).sum := rfl

/-! ## The obligations -/

/-- Settles O25: the accumulator is a weighted sum of words, at most that of ten words 0xFFFF. -/
theorem checksumIsTheFoldedSum : Obligations.ChecksumIsTheFoldedSum := by
  unfold Obligations.ChecksumIsTheFoldedSum
  refine ⟨decode_encode .valChecksum, fun s hlen => ?_, fun s hlen => State.answers_field_of_ne .valChecksum _ _ hlen.ne⟩
  obtain ⟨p, hpkt, hslot⟩ := packet_slots hlen
  have hle := weightedSum_chkWords_le p
  refine ⟨weightedSum (chkWords p), checksumOf p, ?_, hle, by omega, checksumOf_toNat_eq_fold p,
    exec_valChecksum_of_toList hpkt⟩
  rw [weightedSum_chkWords]
  refine congrArg List.sum (List.map_congr_left fun i _ => ?_)
  rw [chkWord, le16_toNat, hslot (2 * i.val) (by omega), hslot (2 * i.val + 1) (by omega)]

/-- Settles O24: the index check compares byte 1 as a number. -/
theorem indexRangeChecked : Obligations.IndexRangeChecked := by
  unfold Obligations.IndexRangeChecked
  refine ⟨decode_encode .valIndex, fun s hlen => ?_, fun s hlen => State.answers_field_of_ne .valIndex _ _ hlen.ne⟩
  obtain ⟨p, hpkt, hidx⟩ := packet_of_pkt_length hlen
  rw [hidx]
  exact exec_valIndex_of_toList hpkt

/-- Settles O26: the verdict is the validity of the packet, whose two parts are the answers of the two checks. -/
theorem verdictIsBothChecks : Obligations.VerdictIsBothChecks := by
  unfold Obligations.VerdictIsBothChecks
  refine ⟨decode_encode .valVerdict, fun s hlen => ?_, fun s hlen => State.answers_field_of_ne .valVerdict _ _ hlen.ne⟩
  obtain ⟨p, hpkt, hslot⟩ := packet_slots hlen
  rw [hslot 20 (by decide), hslot 21 (by decide), ← le16_eq_append]
  exact ⟨indexOk (packetIndex p), checksumOf p, exec_valIndex_of_toList hpkt, exec_valChecksum_of_toList hpkt,
    execValVerdict_of_toList hpkt⟩

end Sys2Proof.Machine
end

section
/-! PROOFS. The interfaces (R210 to R216): the calls of the source and of the sink, and the refusal of a PARSE or RESET
issued while a PARSE is running. With an act of a handler held, a step comes down to one question: does its turn call
that handler's port? -/

namespace Sys2Proof.Machine

/-! ## The calls of the source, of the sink, and of the host's feed -/

theorem exec_srcIsEmpty {s : State} {b : Bool} (h : s.src.isEmpty = b) :
    exec .srcIsEmpty s = .next { s with ret := .bool b } := by
  subst h
  rfl

/-- Settles O28: whether the source holds a byte decides what its two calls do; the sink's calls are by
definition. -/
theorem sourceAndSinkCalls : Obligations.SourceAndSinkCalls := by
  unfold Obligations.SourceAndSinkCalls
  refine ⟨decode_encode .srcIsEmpty, decode_encode .srcNextByte,
    fun s hsrc => ⟨exec_srcIsEmpty (by rw [hsrc]; rfl), ?_⟩,
    fun s v rest hsrc => ⟨exec_srcIsEmpty (by rw [hsrc]; rfl), ?_⟩,
    decode_encode .sinkSize, fun s a d => ⟨decode_encode (.sinkAdd a d), rfl, rfl⟩⟩
  · rw [exec, execSrcNextByte, State.srcNextByte_of_nil hsrc, Res.answer_fault]
  · rw [exec, execSrcNextByte, State.srcNextByte_of_cons hsrc, Res.answer_ok, State.returns]

/-- Settles O29: by the definition of HOST_FEED. -/
theorem feedAppendsToTheSource : Obligations.FeedAppendsToTheSource := by
  unfold Obligations.FeedAppendsToTheSource
  exact fun s bytes => ⟨decode_encode (.hostFeed bytes), rfl⟩

/-! ## The step with a handler's act held -/

section

variable {s : State} {p : Port} {c : Command} {rest : List Event} (hcap : 22 ≤ s.cap)
  (hs : s.script = .nested p c :: rest)
include hcap hs

theorem step_of_nested : step s = (s.turnFrom [.nested p c] rest).runWith exec (.nested p c :: rest) := by
  rw [step_eq, if_neg (Nat.not_lt.2 hcap), hs]

/-- The turn calls the handler's port, from inside which the act is issued (R216). -/
theorem step_nested_of_mem (h : p ∈ (s.turnFrom [.nested p c] rest).ports) : step s = .refused .reentrant := by
  rw [step_of_nested hcap hs, runWith_of_mem h]

/-- The turn does not call the port, and the act stays held (log entry 14). -/
theorem step_nested_of_not_mem (hrest : nestedPorts rest = []) (h : p ∉ (s.turnFrom [.nested p c] rest).ports) :
    step s = (s.turnFrom [.nested p c] rest).run exec := by
  rw [step_of_nested hcap hs, runWith_of_not_mem hrest h]

end

/-! ## The turns that begin a PARSE, and the ports they call -/

theorem turnFrom_enter {s : State} (hc : s.cont = false) (held rest : List Event) :
    s.turnFrom held (.enter :: rest) = .enter { s with script := held ++ rest } := by
  rw [State.turnFrom, hc, if_neg Bool.false_ne_true]

theorem turnFrom_parse {s : State} (hc : s.cont = false) (held rest : List Event) :
    s.turnFrom held (.call ⟨0x01#5, []⟩ :: rest) = .op .parse { s with script := held ++ rest } := by
  rw [State.turnFrom, hc, if_neg Bool.false_ne_true]
  rfl

theorem ports_enter (s : State) (acts : List Event) :
    (Turn.enter { s with script := acts }).ports = s.refillPorts := rfl

theorem ports_parse (s : State) (acts : List Event) :
    (Turn.op .parse { s with script := acts }).ports = s.parsePorts :=
  (if_pos (.inr rfl)).trans (parsePorts_withScript s acts)

theorem mem_parsePorts_of_refill {s : State} {p : Port} (h : p ∈ s.refillPorts) : p ∈ s.parsePorts := by
  rw [parsePorts_eq]
  exact List.mem_append_left _ h

/-- What a PARSE calls is a call of its refill, or of the sink by its micro-steps (R106, R139). -/
theorem mem_parsePorts {s : State} {p : Port} (h : p ∈ s.parsePorts) : p ∈ s.refillPorts ∨ p = .sinkAdd := by
  rw [parsePorts_eq, List.mem_append] at h
  exact h.imp_right (mem_loopPorts _)

/-- A PARSE that completes calls the sink exactly if it leaves another sink. -/
theorem sinkAdd_mem_parsePorts_iff_ne {s t : State} (h : execParse s = .next t) :
    Port.sinkAdd ∈ s.parsePorts ↔ t.sink ≠ s.sink := by
  obtain ⟨ms, hms⟩ := (kept_sink_prefix s.sink).of_execParse h (List.prefix_refl _)
  rw [sinkAdd_mem_parsePorts h, ← hms]
  simp [List.length_pos_iff]

/-- The ports that a refill does not call: the sink, any with a full buffer, or the read of an empty
source (R106). -/
theorem not_mem_refillPorts {s : State} {p : Port}
    (h : p = .sinkAdd ∨ s.cap ≤ s.buf.length ∨ (p = .srcNextByte ∧ s.src = [])) : p ∉ s.refillPorts := by
  rw [mem_refillPorts]
  rintro ⟨hroom, hport⟩
  rcases h with rfl | hfull | ⟨rfl, hsrc⟩
  · simp at hport
  · omega
  · simp [hsrc] at hport

/-! ## The refusals of R216, and the steps that go on -/

/-- An operation issued between two micro-steps is refused if it is PARSE or RESET (R216). -/
theorem step_inside_of_running {s : State} {w : OpWord} {rest : List Event} {i : Instr} (hcap : 22 ≤ s.cap)
    (hc : s.cont = true) (hs : s.script = .inside w :: rest) (hd : decode (.op5 w) = .ok i)
    (hi : i = .parse ∨ i = .reset) : step s = .refused .reentrant := by
  rw [stepRunsTheIssuedOperation.1 s w rest i hcap hs hd]
  rcases hi with rfl | rfl <;> exact if_pos hc

/-- A handler of a source call that the refill of a beginning PARSE makes: its act is refused, whether the PARSE is
taken step by step or whole. -/
theorem step_nested_of_refill {s : State} {p : Port} {c : Command} {rest : List Event} (hcap : 22 ≤ s.cap)
    (hc : s.cont = false)
    (hs : s.script = .nested p c :: .enter :: rest ∨ s.script = .nested p c :: .call ⟨0x01#5, []⟩ :: rest)
    (hp : p ∈ s.refillPorts) : step s = .refused .reentrant := by
  rcases hs with hs | hs
  · refine step_nested_of_mem hcap hs ?_
    rwa [turnFrom_enter hc, ports_enter]
  · refine step_nested_of_mem hcap hs ?_
    rw [turnFrom_parse hc, ports_parse]
    exact mem_parsePorts_of_refill hp

/-- A handler of the sink, where the running PARSE emits a packet (R139). -/
theorem step_nested_of_emit {s : State} {c : Command} (h : s.pkt.length = 22) (hcap : 22 ≤ s.cap) (hc : s.cont = true)
    (hs : s.script = [.nested .sinkAdd c]) (hst : s.st = stEmitting) (hcur : s.cur ≤ s.buf.length)
    (hidx : 0xA0#8 ≤ s.pkt[1] ∧ s.pkt[1] ≤ 0xF9#8) : step s = .refused .reentrant := by
  obtain ⟨p, hpkt, hp⟩ := packet_of_pkt_length h
  have hdec := State.decMeasurements_of_valid hpkt ((indexOk_iff_le _).2 (hp ▸ hidx))
  refine step_nested_of_mem hcap hs ?_
  rw [State.turnFrom, blockTurn_ports_of_cont hc, microPorts_emitting hst hcur hdec]
  exact List.mem_singleton_self _

theorem cap_of_step_next {s t : State} (h : step s = .next t) : 22 ≤ s.cap := by
  by_contra hcap
  rw [step_eq, if_pos (Nat.not_le.1 hcap)] at h
  cases h

/-- A running PARSE whose micro-step does not call the handler's port goes on as with no act pending. -/
theorem step_nested_of_not_mem_microPorts {s t : State} {p : Port} {c : Command} (hc : s.cont = true)
    (hs : s.script = [.nested p c]) (hp : p ∉ s.microPorts) (h : step { s with script := [] } = .next t) :
    step s = .next { t with script := s.script } := by
  have hcap : 22 ≤ s.cap := cap_of_step_next (s := { s with script := [] }) h
  rw [step_of_running (s := { s with script := [] }) hcap hc rfl] at h
  rw [step_nested_of_not_mem hcap hs rfl (by rwa [State.turnFrom, blockTurn_ports_of_cont hc]), State.turnFrom,
    blockTurn_run_of_cont hc]
  calc finishMicro (microStep s)
      = mapNext (fun u => { u with script := s.script }) (finishMicro (microStep { s with script := [] })) := by
        rw [← finishMicro_withScript, ← microStep_withScript]
    _ = .next { t with script := s.script } := by rw [h, mapNext]

/-- A stepwise PARSE begins, and the act stays held, where the refill does not call the handler's port. -/
theorem step_nested_enter {s : State} {p : Port} {c : Command} {rest : List Event} (hcap : 22 ≤ s.cap)
    (hc : s.cont = false) (hs : s.script = .nested p c :: .enter :: rest) (hp : p ∉ s.refillPorts) :
    step s = .next { s.callStart with script := .nested p c :: rest } := by
  rw [step_nested_of_not_mem hcap hs rfl (by rwa [turnFrom_enter hc, ports_enter]), turnFrom_enter hc, Turn.run,
    State.enterCall_eq]
  rfl

/-- A PARSE taken whole completes, and the act stays held, where the PARSE does not call the handler's port. -/
theorem step_nested_parse {s t : State} {p : Port} {c : Command} {rest : List Event} (hcap : 22 ≤ s.cap)
    (hc : s.cont = false) (hs : s.script = .nested p c :: .call ⟨0x01#5, []⟩ :: rest) (hp : p ∉ s.parsePorts)
    (h : execParse s = .next t) : step s = .next { t with script := .nested p c :: rest } := by
  rw [step_nested_of_not_mem hcap hs rfl (by rwa [turnFrom_parse hc, ports_parse]), turnFrom_parse hc, Turn.run]
  exact (execParse_withScript s _).trans (by rw [h, mapNext]; rfl)

/-- Settles O47: a step is refused exactly where its turn calls the handler's port, and the ports of a turn are those
of a refill, of an emitted packet, or of both. -/
theorem reentrantCallsRefused : Obligations.ReentrantCallsRefused := by
  unfold Obligations.ReentrantCallsRefused
  refine ⟨fun s hc => ⟨if_pos hc, if_pos hc⟩, fun s rest hcap hc hs => ?inside,
    fun s p c rest hcap hc hs hroom hp => step_nested_of_refill hcap hc hs (mem_refillPorts.2 ⟨hroom, hp⟩),
    fun s c h hcap hc hs hst hcur hlo hhi => step_nested_of_emit h hcap hc hs hst hcur ⟨hlo, hhi⟩,
    fun s t c rest hcap hc hs h hne => ?delivers, fun s t p c hc hs hp => ?goesOn,
    fun s t p c rest hcap hc hp => ⟨fun hs h => ?enters, fun hs h hsink => ?parses⟩⟩
  case inside =>
    rcases hs with hs | hs
    · exact step_inside_of_running hcap hc hs (decode_encode .parse) (.inl rfl)
    · exact step_inside_of_running hcap hc hs (decode_encode .reset) (.inr rfl)
  case delivers =>
    refine step_nested_of_mem hcap hs ?_
    rw [turnFrom_parse hc, ports_parse]
    exact (sinkAdd_mem_parsePorts_iff_ne h).2 hne
  case goesOn =>
    refine step_nested_of_not_mem_microPorts hc hs fun hmem => ?_
    obtain ⟨hport, hst⟩ := mem_microPorts hmem
    exact hp.elim (· hport) (· hst)
  case enters =>
    cases (execBufRefill_eq s).symm.trans h
    exact step_nested_enter hcap hc hs (not_mem_refillPorts hp)
  case parses =>
    refine step_nested_parse hcap hc hs (fun hmem => ?_) h
    rcases mem_parsePorts hmem with hrefill | rfl
    · exact not_mem_refillPorts hp hrefill
    · exact (sinkAdd_mem_parsePorts_iff_ne h).1 hmem (hsink.resolve_left (· rfl))

end Sys2Proof.Machine
end

section
/-! PROOFS. The recovered conditions (R230 to R235): the condition of a state is the one its row of the step decode
raises, so the table in words (R82) says where there is one. -/

namespace Sys2Proof.Machine

/-! ## The condition of a row -/

/-- What the row named by a selector raises (R231 to R234): a dropped byte, the two pauses and a failed candidate. -/
def State.raised (s : State) : Option MicroStep → Option Condition
  | some .startDrop => some .framing
  | some .startPause => some .starvation
  | some .payloadPause => some .starvation
  | some .validateFail => s.failClass
  | _ => none

/-- The step selector, by its parts (R81). -/
theorem State.selector_of_parts {s : State} {b : Byte} {v : Bool} (hb : s.selectorByte = .ok b)
    (hv : s.selectorVerdict = .ok v) : s.selector = .ok (selectorWord v b s.exh s.st) := by
  simp only [State.selector, hb, hv]

/-- The condition of a state is what the row of its selector raises (R82, R230). -/
theorem State.condition_of_parts {s : State} {b : Byte} {v : Bool} (hb : s.selectorByte = .ok b)
    (hv : s.selectorVerdict = .ok v) : s.condition = s.raised (rowInWords v b s.exh s.st) := by
  simp only [State.condition, State.selector_of_parts hb hv, decodeSel_selectorWord]
  rfl

/-- Outside VALIDATING the verdict bit is clear, so the cursor and the state code name the row (R81). -/
theorem State.condition_of_ne {s : State} {b : Byte} (hb : s.selectorByte = .ok b) (hst : s.st ≠ stValidating) :
    s.condition = s.raised (rowInWords false b s.exh s.st) :=
  State.condition_of_parts hb (State.selectorVerdict_of_ne hst)

/-- Without a selector no micro-step is taken, and there is no condition. -/
theorem State.condition_of_error {s : State} {f : Fault} (h : s.selector = .error f) : s.condition = none := by
  rw [State.condition, h]

/-- R87: a reserved state code names no row. -/
theorem rowInWords_reserved (v : Bool) (b : Byte) (e : Bool) {st : BitVec 3} (h : 5 ≤ st.toNat) :
    rowInWords v b e st = none := by
  have hne : ∀ c : BitVec 3, c.toNat < 5 → st ≠ c := fun c hc heq => absurd (heq ▸ h) (Nat.not_le.2 hc)
  rw [rowInWords, if_neg (hne _ (by decide)), if_neg (hne _ (by decide)), if_neg (hne _ (by decide)),
    if_neg (hne _ (by decide)), if_neg (hne _ (by decide))]

/-- The class of a complete candidate that fails rests on its index byte alone (R235(a)). -/
theorem State.failClass_of_toList {s : State} {p : Packet} (hp : s.pkt = p.toList) :
    s.failClass = if 0xA0#8 ≤ p[1] ∧ p[1] ≤ 0xF9#8 then some .checksum else some .field := by
  rw [State.failClass, State.valIndex, State.field_of_toList _ _ hp]
  by_cases hi : 0xA0#8 ≤ p[1] ∧ p[1] ≤ 0xF9#8
  · rw [if_pos hi, (indexOk_iff_le (packetIndex p)).2 hi]
  · rw [if_neg hi, Bool.eq_false_iff.2 (mt (indexOk_iff_le (packetIndex p)).1 hi)]

/-! ## The condition in each situation -/

/-- FRAMING: SCAN_START drops the byte at the cursor unless it is the marker (R231). -/
theorem State.condition_scanStart {s : State} (h : s.cur < s.buf.length) (hst : s.st = stScanStart) :
    s.condition = if s.buf[s.cur] = startMarker then none else some .framing := by
  rw [State.condition_of_ne (State.selectorByte_of_lt h) (by rw [hst]; decide), hst, rowInWords_scanStart,
    if_neg (State.not_exh h), apply_ite s.raised]
  rfl

/-- STARVATION: both scanning states pause on an exhausted scan (R234). -/
theorem State.condition_exhausted {s : State} (h : s.cur = s.buf.length)
    (hst : s.st = stScanStart ∨ s.st = stScanPayload) : s.condition = some .starvation := by
  have hexh : s.exh = true := State.exh_iff.2 h
  rcases hst with hst | hst
  · rw [State.condition_of_ne (State.selectorByte_of_eq h) (by rw [hst]; decide), hst, rowInWords_scanStart,
      if_pos hexh]
    rfl
  · rw [State.condition_of_ne (State.selectorByte_of_eq h) (by rw [hst]; decide), hst, rowInWords_scanPayload,
      if_pos hexh]
    rfl

/-- FIELD and CHECKSUM: VALIDATING raises the class of a complete candidate that is not valid (R232, R233). -/
theorem State.condition_validating {s : State} {p : Packet} (h : s.cur ≤ s.buf.length) (hst : s.st = stValidating)
    (hp : s.pkt = p.toList) : s.condition = if validPacket p then none else s.failClass := by
  obtain ⟨b, hb⟩ := s.selectorByte_of_le h
  rw [State.condition_of_parts hb (State.selectorVerdict_of_toList hst hp), hst, rowInWords_validating,
    apply_ite s.raised]
  rfl

/-- RESETTING raises no condition. -/
theorem State.condition_resetting {s : State} (h : s.cur ≤ s.buf.length) (hst : s.st = stResetting) :
    s.condition = none := by
  obtain ⟨b, hb⟩ := s.selectorByte_of_le h
  rw [State.condition_of_ne hb (by rw [hst]; decide), hst, rowInWords_resetting]
  rfl

/-- EMITTING raises no condition. -/
theorem State.condition_emitting {s : State} (h : s.cur ≤ s.buf.length) (hst : s.st = stEmitting) :
    s.condition = none := by
  obtain ⟨b, hb⟩ := s.selectorByte_of_le h
  rw [State.condition_of_ne hb (by rw [hst]; decide), hst, rowInWords_emitting]
  rfl

/-- SCAN_PAYLOAD raises no condition while there is a byte to take. -/
theorem State.condition_payloadTake {s : State} (h : s.cur < s.buf.length) (hst : s.st = stScanPayload) :
    s.condition = none := by
  rw [State.condition_of_ne (State.selectorByte_of_lt h) (by rw [hst]; decide), hst, rowInWords_scanPayload,
    if_neg (State.not_exh h)]
  rfl

/-! ## Where no micro-step is taken -/

/-- A cursor beyond the buffer has no selector (R81). -/
theorem State.condition_of_gt {s : State} (h : s.buf.length < s.cur) : s.condition = none :=
  State.condition_of_error (f := .peekRange .stepSelect s.cur)
    (by simp only [State.selector, State.selectorByte_of_gt h])

/-- A reserved state code has no row, whether its selector exists or not (R87). -/
theorem State.condition_reserved {s : State} (hst : 5 ≤ s.st.toNat) : s.condition = none := by
  rcases Nat.lt_or_ge s.buf.length s.cur with hgt | hle
  · exact State.condition_of_gt hgt
  · obtain ⟨b, hb⟩ := s.selectorByte_of_le hle
    have hne : s.st ≠ stValidating := fun heq => absurd (heq ▸ hst) (by decide)
    rw [State.condition_of_ne hb hne, rowInWords_reserved _ _ _ hst]
    rfl

/-- VALIDATING without a complete packet has no verdict, so no selector (R192). -/
theorem State.condition_unwritten {s : State} (hst : s.st = stValidating) (hp : s.pktLen ≠ 22) :
    s.condition = none := by
  rcases Nat.lt_or_ge s.buf.length s.cur with hgt | hle
  · exact State.condition_of_gt hgt
  · obtain ⟨b, hb⟩ := s.selectorByte_of_le hle
    have hv : s.selectorVerdict = .error (.pktUnwritten .valVerdict s.pktLen) := by
      rw [State.selectorVerdict, if_pos hst, State.valVerdict, State.field_of_ne _ _ hp]
    exact State.condition_of_error (f := .pktUnwritten .valVerdict s.pktLen) (by simp only [State.selector, hb, hv])

/-- Settles O40: each situation names its row, and the row its condition; where there is no selector or no row there
is none. -/
theorem conditionsAreTheStepsTaken : Obligations.ConditionsAreTheStepsTaken := by
  unfold Obligations.ConditionsAreTheStepsTaken
  refine ⟨fun _ h hst => State.condition_scanStart h hst, fun _ h hst => State.condition_exhausted h hst,
    fun s p h hst hp => ?validating, fun s h hst => ?quiet, fun s h => ?noStep, rfl⟩
  case validating => rw [State.condition_validating h hst hp, State.failClass_of_toList hp]
  case quiet =>
    rcases hst with hst | hst | ⟨hst, hlt⟩
    · exact State.condition_resetting h hst
    · exact State.condition_emitting h hst
    · exact State.condition_payloadTake hlt hst
  case noStep =>
    rcases h with hgt | hst | ⟨hst, hp⟩
    · exact State.condition_of_gt hgt
    · exact State.condition_reserved hst
    · exact State.condition_unwritten hst hp

end Sys2Proof.Machine
end

section
/-! PROOFS. RESET (R260), and the hazard of a capacity below 22 (R266): a PARSE on a full buffer with its scan exhausted
inside a candidate takes in nothing and pauses at once. -/

namespace Sys2Proof.Machine

/-! ## Reset -/

/-- Between calls RESET completes (R260). -/
theorem execReset_of_idle {s : State} (h : s.cont = false) : execReset s = .next (s.resetBlock.returns .none) :=
  if_neg (Bool.eq_false_iff.1 h)

/-- During a PARSE it is refused (R216). -/
theorem execReset_of_running {s : State} (h : s.cont = true) : execReset s = .refused .reentrant := if_pos h

/-- Settles O10: the two branches of RESET. -/
theorem resetRebuildsTheBlock : Obligations.ResetRebuildsTheBlock := by
  unfold Obligations.ResetRebuildsTheBlock
  exact ⟨decode_encode .reset, fun _ h => execReset_of_idle h, fun _ h => execReset_of_running h⟩

/-! ## A full buffer -/

/-- The refill of a call moves nothing into a full buffer, whatever the source holds (R106, R140). -/
theorem callStart_of_full {s : State} (h : s.cap ≤ s.buf.length) :
    s.callStart = { s with emitted := 0, cont := true } := by
  have hroom : s.cap - s.buf.length = 0 := Nat.sub_eq_zero_of_le h
  rw [State.callStart, hroom, List.take_zero, List.append_nil, List.drop_zero]

/-- In SCAN_PAYLOAD on an exhausted scan the loop ends after the pause (R135). -/
theorem LoopEnds.of_payloadPause {u : State} (hst : u.st = stScanPayload) (hcur : u.cur = u.buf.length)
    (hc : u.cont = true) : LoopEnds 1 u { u with cont := false } :=
  (succ_iff (microStep_payloadPause hst hcur)).2 ⟨hc, zero_iff.2 ⟨rfl, rfl⟩⟩

/-- Settles O59: the refill has no room, so the scan is still exhausted and the first micro-step pauses. The capacity
below 22 is what lets a candidate fill the buffer; the call itself does not depend on it. -/
theorem capacityHazard : Obligations.CapacityHazard := by
  unfold Obligations.CapacityHazard
  intro s _ hst hc hfull hcur
  have hend : LoopEnds 1 s.callStart { s with emitted := 0, cont := false } := by
    rw [callStart_of_full hfull.ge]
    exact .of_payloadPause hst (hcur.trans hfull.symm) rfl
  exact (execParse_eq_next_iff hc).2 ⟨1, _, hend, rfl⟩

end Sys2Proof.Machine
end
